-- ==== Sys2Proof/Word.lean ====
section
/-!
DEFINITION. The plain widths (spec 00_scope.md R8, R9) and the tag of an encrypted bit (R12).
The encrypted bit itself is an OPEN parameter and stands in Config (R6).
-/

namespace Sys2Proof

/-- The tag a ciphertext may carry (R12): made by trivial encryption of a public constant, or not.
No rule of the CORE reads it. -/
inductive CtTag where
  | trivial
  | genuine
  deriving DecidableEq, Repr

/-- A plain 32-bit value (R8), digits numbered from the least significant (R9(b)). -/
abbrev U32 := BitVec 32

/-- A command word (R80), digits numbered from the least significant (R9(b)). -/
abbrev CmdWord := BitVec 64

/-- One byte of a stored command word (R56). -/
abbrev Byte := BitVec 8

end Sys2Proof
end

