-- ==== Sys2Proof/Syntax.lean ====
section
/-!
DEFINITION. The 20 operations as a type (R82, R90), their formats, and the pseudo-instructions (R92).
-/

namespace Sys2Proof

/-- A register specifier: every 4-bit value names a register (R25, R84). -/
abbrev Reg := Fin 16

/-- One constructor per row of the operation table (R90), operands in the order rd, rs1, rs2, rs3, n, imm. -/
inductive Instr where
  | xorw (rd rs1 rs2 : Reg)
  | andw (rd rs1 rs2 : Reg)
  | notw (rd rs1 : Reg)
  | trivw (rd : Reg) (imm : U32)
  | rotr (rd rs1 : Reg) (n : BitVec 8)
  | shr (rd rs1 : Reg) (n : BitVec 8)
  | ssig0 (rd rs1 : Reg)
  | ssig1 (rd rs1 : Reg)
  | bsig0 (rd rs1 : Reg)
  | bsig1 (rd rs1 : Reg)
  | ch (rd rs1 rs2 rs3 : Reg)
  | maj (rd rs1 rs2 rs3 : Reg)
  | add (rd rs1 rs2 : Reg)
  | compress
  | hinit
  | hash (imm : U32)
  | ldw (rd : Reg)
  | stw (rs1 : Reg)
  | ldblk
  | rdh
  deriving DecidableEq, Repr

/-- `MOV rd, rs` is `ROTR rd, rs, 0` (R92). -/
abbrev Instr.mov (rd rs : Reg) : Instr := .rotr rd rs 0

/-- `ZEROW rd` is `TRIVW rd, 0` (R92). -/
abbrev Instr.zerow (rd : Reg) : Instr := .trivw rd 0

/-- `ONESW rd` is `TRIVW rd, 0xFFFFFFFF` (R92). -/
abbrev Instr.onesw (rd : Reg) : Instr := .trivw rd 0xFFFFFFFF

/-- The nine formats (R82). -/
inductive Format where
  | Z | D | S | R2 | R3 | R4 | RN | RI | I
  deriving DecidableEq, Repr

/-- The format of each operation (R82). -/
def Instr.format : Instr → Format
  | .xorw _ _ _ => .R3
  | .andw _ _ _ => .R3
  | .notw _ _ => .R2
  | .trivw _ _ => .RI
  | .rotr _ _ _ => .RN
  | .shr _ _ _ => .RN
  | .ssig0 _ _ => .R2
  | .ssig1 _ _ => .R2
  | .bsig0 _ _ => .R2
  | .bsig1 _ _ => .R2
  | .ch _ _ _ _ => .R4
  | .maj _ _ _ _ => .R4
  | .add _ _ _ => .R3
  | .compress => .Z
  | .hinit => .Z
  | .hash _ => .I
  | .ldw _ => .D
  | .stw _ => .S
  | .ldblk => .Z
  | .rdh => .Z

end Sys2Proof
end

