-- ==== Sys2Proof/WellFormed.lean ====
section
/-!
DEFINITION. Which instructions have a command word (R85, R89).
-/

namespace Sys2Proof

/-- An instruction some legal command word stands for.
The one check the types do not make: `SHR` takes 0 to 32 (R85, R89 case (c)). -/
def Instr.wellFormed : Instr → Bool
  | .shr _ _ n => decide (n.toNat ≤ 32)
  | .xorw _ _ _ => true
  | .andw _ _ _ => true
  | .notw _ _ => true
  | .trivw _ _ => true
  | .rotr _ _ _ => true
  | .ssig0 _ _ => true
  | .ssig1 _ _ => true
  | .bsig0 _ _ => true
  | .bsig1 _ _ => true
  | .ch _ _ _ _ => true
  | .maj _ _ _ _ => true
  | .add _ _ _ => true
  | .compress => true
  | .hinit => true
  | .hash _ => true
  | .ldw _ => true
  | .stw _ => true
  | .ldblk => true
  | .rdh => true

end Sys2Proof
end

