-- ==== Sys2Proof/Decode.lean ====
section
/-!
DEFINITION. Decoding a command word (R87), the encoder beside it (R81, R90), command words as bytes (R56)
and the assembler text of an instruction (R91).
-/

namespace Sys2Proof

/-- The seven fields of a command word (R81). -/
structure Fields where
  op : BitVec 8
  rd : BitVec 4
  rs1 : BitVec 4
  rs2 : BitVec 4
  rs3 : BitVec 4
  n : BitVec 8
  imm : BitVec 32
  deriving DecidableEq, Repr

/-- The fields of a command word: `cw[63:56]`, `cw[55:52]`, `cw[51:48]`, `cw[47:44]`, `cw[43:40]`, `cw[39:32]`, `cw[31:0]` (R81). -/
def fieldsOf (cw : CmdWord) : Fields where
  op := cw.extractLsb' 56 8
  rd := cw.extractLsb' 52 4
  rs1 := cw.extractLsb' 48 4
  rs2 := cw.extractLsb' 44 4
  rs3 := cw.extractLsb' 40 4
  n := cw.extractLsb' 32 8
  imm := cw.extractLsb' 0 32

/-- The command word with the given fields (R81), most significant field first. -/
def ofFields (f : Fields) : CmdWord :=
  f.op ++ f.rd ++ f.rs1 ++ f.rs2 ++ f.rs3 ++ f.n ++ f.imm

/-- A 4-bit field used as it stands names a register (R84). -/
def regOf (x : BitVec 4) : Reg := ⟨x.toNat, x.isLt⟩

/-- The specifier field of a register (R84). -/
def regBits (r : Reg) : BitVec 4 := BitVec.ofNat 4 r.val

/-- One row of the operation table (R90): a word selects it when `cw & mask = match`. -/
structure OpRow where
  pattern : CmdWord
  mask : CmdWord
  build : Fields → Instr

/-- The rows of the GateEngine (R90). -/
def gateRows : List OpRow :=
  [⟨0x1000000000000000, 0xFF000FFFFFFFFFFF, fun f => .xorw (regOf f.rd) (regOf f.rs1) (regOf f.rs2)⟩,
   ⟨0x1100000000000000, 0xFF000FFFFFFFFFFF, fun f => .andw (regOf f.rd) (regOf f.rs1) (regOf f.rs2)⟩,
   ⟨0x1200000000000000, 0xFF00FFFFFFFFFFFF, fun f => .notw (regOf f.rd) (regOf f.rs1)⟩,
   ⟨0x1300000000000000, 0xFF0FFFFF00000000, fun f => .trivw (regOf f.rd) f.imm⟩]

/-- The rows of WordOps (R90). -/
def wordRows : List OpRow :=
  [⟨0x2000000000000000, 0xFF00FF00FFFFFFFF, fun f => .rotr (regOf f.rd) (regOf f.rs1) f.n⟩,
   ⟨0x2100000000000000, 0xFF00FF00FFFFFFFF, fun f => .shr (regOf f.rd) (regOf f.rs1) f.n⟩,
   ⟨0x2200000000000000, 0xFF00FFFFFFFFFFFF, fun f => .ssig0 (regOf f.rd) (regOf f.rs1)⟩,
   ⟨0x2300000000000000, 0xFF00FFFFFFFFFFFF, fun f => .ssig1 (regOf f.rd) (regOf f.rs1)⟩,
   ⟨0x2400000000000000, 0xFF00FFFFFFFFFFFF, fun f => .bsig0 (regOf f.rd) (regOf f.rs1)⟩,
   ⟨0x2500000000000000, 0xFF00FFFFFFFFFFFF, fun f => .bsig1 (regOf f.rd) (regOf f.rs1)⟩,
   ⟨0x2600000000000000, 0xFF0000FFFFFFFFFF, fun f => .ch (regOf f.rd) (regOf f.rs1) (regOf f.rs2) (regOf f.rs3)⟩,
   ⟨0x2700000000000000, 0xFF0000FFFFFFFFFF, fun f => .maj (regOf f.rd) (regOf f.rs1) (regOf f.rs2) (regOf f.rs3)⟩]

/-- The rows of the Adder, the Compressor and the HashDriver (R90). -/
def hashRows : List OpRow :=
  [⟨0x3000000000000000, 0xFF000FFFFFFFFFFF, fun f => .add (regOf f.rd) (regOf f.rs1) (regOf f.rs2)⟩,
   ⟨0x4000000000000000, 0xFFFFFFFFFFFFFFFF, fun _ => .compress⟩,
   ⟨0x5000000000000000, 0xFFFFFFFFFFFFFFFF, fun _ => .hinit⟩,
   ⟨0x5100000000000000, 0xFFFFFFFF00000000, fun f => .hash f.imm⟩]

/-- The rows of the transfers (R90). -/
def transferRows : List OpRow :=
  [⟨0x6000000000000000, 0xFF0FFFFFFFFFFFFF, fun f => .ldw (regOf f.rd)⟩,
   ⟨0x6100000000000000, 0xFFF0FFFFFFFFFFFF, fun f => .stw (regOf f.rs1)⟩,
   ⟨0x6200000000000000, 0xFFFFFFFFFFFFFFFF, fun _ => .ldblk⟩,
   ⟨0x6300000000000000, 0xFFFFFFFFFFFFFFFF, fun _ => .rdh⟩]

/-- The operation table (R90), 20 rows. -/
def opTable : List OpRow := gateRows ++ wordRows ++ hashRows ++ transferRows

/-- Whether a command word selects a row: `cw & mask = match` (R83, R87). -/
def OpRow.selects (r : OpRow) (cw : CmdWord) : Bool := cw &&& r.mask == r.pattern

/-- Decoding (R87): the first row the word selects, unless it is `SHR` with `n > 32`; otherwise illegal (`none`, R89). -/
def decode (cw : CmdWord) : Option Instr :=
  match opTable.find? (fun r => r.selects cw) with
  | some r => if (r.build (fieldsOf cw)).wellFormed then some (r.build (fieldsOf cw)) else none
  | none => none

/-- The fields of an instruction's command word, dead fields zero (R82, R83, R90). -/
def Instr.fields : Instr → Fields
  | .xorw rd rs1 rs2 => ⟨0x10, regBits rd, regBits rs1, regBits rs2, 0, 0, 0⟩
  | .andw rd rs1 rs2 => ⟨0x11, regBits rd, regBits rs1, regBits rs2, 0, 0, 0⟩
  | .notw rd rs1 => ⟨0x12, regBits rd, regBits rs1, 0, 0, 0, 0⟩
  | .trivw rd imm => ⟨0x13, regBits rd, 0, 0, 0, 0, imm⟩
  | .rotr rd rs1 n => ⟨0x20, regBits rd, regBits rs1, 0, 0, n, 0⟩
  | .shr rd rs1 n => ⟨0x21, regBits rd, regBits rs1, 0, 0, n, 0⟩
  | .ssig0 rd rs1 => ⟨0x22, regBits rd, regBits rs1, 0, 0, 0, 0⟩
  | .ssig1 rd rs1 => ⟨0x23, regBits rd, regBits rs1, 0, 0, 0, 0⟩
  | .bsig0 rd rs1 => ⟨0x24, regBits rd, regBits rs1, 0, 0, 0, 0⟩
  | .bsig1 rd rs1 => ⟨0x25, regBits rd, regBits rs1, 0, 0, 0, 0⟩
  | .ch rd rs1 rs2 rs3 => ⟨0x26, regBits rd, regBits rs1, regBits rs2, regBits rs3, 0, 0⟩
  | .maj rd rs1 rs2 rs3 => ⟨0x27, regBits rd, regBits rs1, regBits rs2, regBits rs3, 0, 0⟩
  | .add rd rs1 rs2 => ⟨0x30, regBits rd, regBits rs1, regBits rs2, 0, 0, 0⟩
  | .compress => ⟨0x40, 0, 0, 0, 0, 0, 0⟩
  | .hinit => ⟨0x50, 0, 0, 0, 0, 0, 0⟩
  | .hash imm => ⟨0x51, 0, 0, 0, 0, 0, imm⟩
  | .ldw rd => ⟨0x60, regBits rd, 0, 0, 0, 0, 0⟩
  | .stw rs1 => ⟨0x61, 0, regBits rs1, 0, 0, 0, 0⟩
  | .ldblk => ⟨0x62, 0, 0, 0, 0, 0, 0⟩
  | .rdh => ⟨0x63, 0, 0, 0, 0, 0, 0⟩

/-- The command word of an instruction (R81, R82, R90). -/
def encode (i : Instr) : CmdWord := ofFields i.fields

/-- A command word from its bytes, most significant byte first; nothing but eight bytes is a command word (R56, R80). -/
def cmdOfBytes : List Byte → Option CmdWord
  | [b0, b1, b2, b3, b4, b5, b6, b7] => some (b0 ++ b1 ++ b2 ++ b3 ++ b4 ++ b5 ++ b6 ++ b7)
  | _ => none

/-- The bytes of a command word, most significant byte first (R56). -/
def bytesOfCmd (cw : CmdWord) : List Byte :=
  [cw.extractLsb' 56 8, cw.extractLsb' 48 8, cw.extractLsb' 40 8, cw.extractLsb' 32 8,
   cw.extractLsb' 24 8, cw.extractLsb' 16 8, cw.extractLsb' 8 8, cw.extractLsb' 0 8]

/-- Decoding of stored bytes: total, and illegal unless they are one command word (R56, R87). -/
def decodeBytes (bs : List Byte) : Option Instr := (cmdOfBytes bs).bind decode

/-- The command word whose low `nbits` bits are those of `w` and whose other bits are zero.
A command word is handed over whole, so no byte order enters (R56). -/
def tableWord (nbits w : Nat) : CmdWord := BitVec.ofNat 64 (w % 2 ^ nbits)

/-- What the decoder reads from an instruction given as one number; none when the number needs more than 64 bits (R80). -/
def decodeTableWord (nbits w : Nat) : Option Instr :=
  if w % 2 ^ nbits < 2 ^ 64 then decode (tableWord nbits w) else none

/-- The name of a register in assembler text (R91). -/
def regText (r : Reg) : String := "r" ++ toString r.val

/-- The assembler text of an instruction (R91), immediates in decimal. -/
def Instr.text : Instr → String
  | .xorw rd rs1 rs2 => "XORW " ++ regText rd ++ ", " ++ regText rs1 ++ ", " ++ regText rs2
  | .andw rd rs1 rs2 => "ANDW " ++ regText rd ++ ", " ++ regText rs1 ++ ", " ++ regText rs2
  | .notw rd rs1 => "NOTW " ++ regText rd ++ ", " ++ regText rs1
  | .trivw rd imm => "TRIVW " ++ regText rd ++ ", " ++ toString imm.toNat
  | .rotr rd rs1 n => "ROTR " ++ regText rd ++ ", " ++ regText rs1 ++ ", " ++ toString n.toNat
  | .shr rd rs1 n => "SHR " ++ regText rd ++ ", " ++ regText rs1 ++ ", " ++ toString n.toNat
  | .ssig0 rd rs1 => "SSIG0 " ++ regText rd ++ ", " ++ regText rs1
  | .ssig1 rd rs1 => "SSIG1 " ++ regText rd ++ ", " ++ regText rs1
  | .bsig0 rd rs1 => "BSIG0 " ++ regText rd ++ ", " ++ regText rs1
  | .bsig1 rd rs1 => "BSIG1 " ++ regText rd ++ ", " ++ regText rs1
  | .ch rd rs1 rs2 rs3 => "CH " ++ regText rd ++ ", " ++ regText rs1 ++ ", " ++ regText rs2 ++ ", " ++ regText rs3
  | .maj rd rs1 rs2 rs3 => "MAJ " ++ regText rd ++ ", " ++ regText rs1 ++ ", " ++ regText rs2 ++ ", " ++ regText rs3
  | .add rd rs1 rs2 => "ADD " ++ regText rd ++ ", " ++ regText rs1 ++ ", " ++ regText rs2
  | .compress => "COMPRESS"
  | .hinit => "HINIT"
  | .hash imm => "HASH " ++ toString imm.toNat
  | .ldw rd => "LDW " ++ regText rd
  | .stw rs1 => "STW " ++ regText rs1
  | .ldblk => "LDBLK"
  | .rdh => "RDH"

end Sys2Proof
end

