-- ==== Sys2Proof/Config.lean ====
section
/-!
DEFINITION. The parameters of the CORE (R6): what is fixed for a machine, and, OPEN, the type of ciphertexts (R12)
and the external capability on it (R14).
-/

namespace Sys2Proof

/-- Cells per encrypted word (R6). -/
abbrev Config.LANES : Nat := 32

/-- Worker units (R6, R7): 8 in this build (assumption 15). -/
abbrev Config.NCHUNK : Nat := 8

/-- Cells per chunk, `LANES / NCHUNK` (R6, R115). -/
abbrev Config.CHUNKW : Nat := 4

/-- Rounds per block (R6). -/
abbrev Config.NROUND : Nat := 64

/-- Words of a block (R6). -/
abbrev Config.BLKWORDS : Nat := 16

/-- Words of hash state and of digest (R6). -/
abbrev Config.HSWORDS : Nat := 8

/-- General word registers (R6). -/
abbrev Config.NREG : Nat := 16

/-- Bits of a command word (R6). -/
abbrev Config.CWBITS : Nat := 64

/-- The ciphertexts of a scheme: the pairs of a tag (R12) and a name that the scheme's predicate admits.
Any type with countably many values is of this form; a name says nothing of the plain bit. -/
structure CtOf (isCt : CtTag → Nat → Bool) where
  tag : CtTag
  name : Nat
  named : isCt tag name = true
  deriving DecidableEq, Repr

/-- A gate capability (R14) on a type of ciphertexts: four calls, each a total function of its operands (D18).
There is no OR. Failure of a call is no answer of these functions: it is a draw (R15). -/
structure CapabilityOn (C : Type) where
  and : C → C → C
  xor : C → C → C
  not : C → C
  triv : Bool → C

/-- The capability's context matches the key whose decryption is `dec`: the four laws of R14.
Every guarantee about plain values is stated under this premise (R275). -/
structure CapabilityOn.Fits {C : Type} (G : CapabilityOn C) (dec : C → Bool) : Prop where
  dec_and : ∀ a b, dec (G.and a b) = (dec a && dec b)
  dec_xor : ∀ a b, dec (G.xor a b) = (dec a ^^ dec b)
  dec_not : ∀ a, dec (G.not a) = !dec a
  dec_triv : ∀ b, dec (G.triv b) = b

/-- The two OPEN parameters of R6 that a rule depends on, together: the ciphertexts and a capability on them that some
key fits and whose trivial encryptions are tagged so (R12, R14).
How many ciphertexts there are, which one a call returns, and the tag of a gate's result stay free (U1, U6). -/
structure Scheme where
  isCt : CtTag → Nat → Bool
  G : CapabilityOn (CtOf isCt)
  fits : ∃ dec, G.Fits dec
  tag_triv : ∀ b, (G.triv b).tag = .trivial

/-- One scheme, in which a name's parity is the plain bit. It shows that there is one; the machine's is not this one. -/
def Scheme.parity : Scheme where
  isCt _ _ := true
  G :=
    { and := fun a b => ⟨.genuine, a.name % 2 * (b.name % 2), rfl⟩
      xor := fun a b => ⟨.genuine, (a.name + b.name) % 2, rfl⟩
      not := fun a => ⟨.genuine, (a.name + 1) % 2, rfl⟩
      triv := fun b => ⟨.trivial, b.toNat, rfl⟩ }
  fits :=
    ⟨fun c => c.name % 2 == 1,
      { dec_and := fun a b => by
          rcases Nat.mod_two_eq_zero_or_one a.name with h | h <;>
            rcases Nat.mod_two_eq_zero_or_one b.name with k | k <;> simp [h, k]
        dec_xor := fun a b => by
          rcases Nat.mod_two_eq_zero_or_one a.name with h | h <;>
            rcases Nat.mod_two_eq_zero_or_one b.name with k | k <;> simp [Nat.add_mod, h, k]
        dec_not := fun a => by
          rcases Nat.mod_two_eq_zero_or_one a.name with h | h <;> simp [Nat.add_mod, h]
        dec_triv := fun b => by cases b <;> rfl }⟩
  tag_triv _ := rfl

/-- The OPEN parameters `Ct` and `G` of R6: opaque, so no proof can see which ciphertexts there are or which one a call
returns. All that is known is what `Scheme` says (assumptions 1, 2). -/
opaque Config.openScheme [Inhabited Scheme] : Scheme

/-- The scheme of this machine, with the proof that there is one. -/
def Config.scheme : Scheme := @Config.openScheme ⟨Scheme.parity⟩

/-- `Ct`, one encrypted bit (R12): an abstract type, of which nothing is known but that `Config.G` acts on it. -/
abbrev Ct := CtOf Config.scheme.isCt

/-- An encrypted word: exactly 32 cells, cell 0 the most significant (R9(a), R10, R21). -/
abbrev Word := Vector Ct 32

/-- A gate capability on the ciphertexts of this machine. -/
abbrev Capability := CapabilityOn Ct

/-- The capability reached through port CAP (R14, R63). -/
def Config.G : Capability := Config.scheme.G

/-- Some key fits the capability. -/
theorem Config.some_key : ∃ dec, Config.G.Fits dec := Config.scheme.fits

/-- Trivial encryptions carry the trivial tag. -/
theorem Config.tag_triv (b : Bool) : (Config.G.triv b).tag = .trivial := Config.scheme.tag_triv b

end Sys2Proof
end

