-- ==== Sys2Proof/Machine/State.lean ====
section
/-!
DEFINITION. The state of the CORE (10_state.md R20 to R39), the environment's side of its ports,
and the state after reset (R39, R300). All of it is plain data.
-/

namespace Sys2Proof.Machine

/-- Why a step of the model would stop. No rule of the spec stops the machine: every fault of the CORE is a state
(FATAL, R266) and every wait is a state (BUSY, R61), so there is no reason here. -/
inductive Fault where
  deriving DecidableEq, Repr

/-- Why the model would give an instruction no meaning. -/
inductive Refusal where
  /-- Raised by an arm of `exec` whose instruction has no meaning yet, and by nothing else. Safe. -/
  | notModelled (mnemonic : String)
  deriving DecidableEq, Repr

/-- `STATUS.STATE` (R33): 0 IDLE, 1 BUSY, 2 FATAL; the value 3 never occurs. -/
inductive RunState where
  | idle
  | busy
  | fatal
  deriving DecidableEq, Repr

/-- The four faults of the CORE (R261). -/
inductive FaultCode where
  | fCtx
  | fShape
  | fWorker
  | fIllegal
  deriving DecidableEq, Repr

/-- The fields of `STATUS` (R33); `fault = none` is FAULT = 0. -/
@[ext] structure Status where
  state : RunState
  fault : Option FaultCode
  deriving DecidableEq, Repr

/-- `SEQ.PHASE` (R31). -/
inductive Phase where
  | none
  | hinit
  | load
  | sched
  | round
  | ff
  | out
  deriving DecidableEq, Repr

/-- The sequencer record `SEQ` (R31). -/
@[ext] structure Seq where
  cmd : CmdWord
  phase : Phase
  t : Fin 64
  blkLeft : U32
  ci : Fin 32
  deriving DecidableEq, Repr

/-- `SEQ` idle: `PHASE = NONE`, the other fields 0 (R39). -/
def Seq.idle : Seq := ⟨0, .none, 0, 0, 0⟩

/-- The scratch storage (R20, R29): schedule, working variables, round temporaries, adder words. -/
@[ext] structure Scratch where
  w : Vector (Option Word) 64
  v : Vector (Option Word) 8
  t1 : Option Word
  t2 : Option Word
  ap : Option Word
  ag : Option Word
  ac : Option Word
  deriving DecidableEq, Repr

/-- All scratch storage `empty` (R29, R39). -/
def Scratch.empty : Scratch :=
  ⟨Vector.replicate 64 none, Vector.replicate 8 none, none, none, none, none, none⟩

/-- A frame the host offers on port DIN (R60): of either kind, of any length. -/
inductive Frame where
  | word (cells : List Ct)
  | block (words : List (List Ct))
  deriving DecidableEq, Repr

/-- A moment in the middle of a piece of the sequencer's work (R301): what the work has done by then that stays,
with the host or with the environment (assumption 6). -/
structure Moment where
  /-- Frames emitted. -/
  emitted : Nat
  /-- Capability calls made. -/
  calls : Nat
  /-- Workers that have ended or failed. -/
  workers : Nat
  deriving DecidableEq, Repr

/-- One act of the host (R283). -/
inductive HostEvent where
  /-- The host offers a command word on port CMD (R59). -/
  | command (cw : CmdWord)
  /-- The host offers a frame on port DIN (R60). -/
  | frame (f : Frame)
  /-- The reset event on port RESET, at a moment when the sequencer is not in the middle of its work (R300). -/
  | reset
  /-- The reset event in the middle of the work the sequencer does next, at the given moment of it (R301). -/
  | resetDuring (moment : Moment)
  deriving DecidableEq, Repr

/-- The environment's side, not state of the CORE (R38): what the host will do next, oldest first;
the frames emitted on DOUT, oldest first (R62); and the draws of R15 still to come, one per capability call
(`true`: the call answers `ctx_error`) and one per worker per batch (`true`: the worker fails).
Where a list of draws has run out, calls are answered and workers finish (assumption 3). -/
@[ext] structure Env where
  host : List HostEvent
  dout : List Word
  ctxDraws : List Bool
  workerDraws : List Bool
  deriving DecidableEq, Repr

/-- The state of the machine (R20) and of its environment. A word storage element is an optional word,
`none` being `empty` (R21). `K`, `IV` and `CFG` are fixed tables and stand as constants (R36, R37). -/
structure State where
  r : Vector (Option Word) 16
  hs : Vector (Option Word) 8
  blk : Vector (Option Word) 16
  scratch : Scratch
  status : Status
  fcmd : CmdWord
  seq : Seq
  dinq : List Frame
  env : Env
  deriving DecidableEq, Repr

/-- An environment with nothing to come and nothing emitted. -/
def Env.silent : Env := ⟨[], [], [], []⟩

/-- The machine right after reset (R39, R300), in a silent environment. -/
def State.reset : State where
  r := Vector.replicate 16 none
  hs := Vector.replicate 8 none
  blk := Vector.replicate 16 none
  scratch := Scratch.empty
  status := ⟨.idle, none⟩
  fcmd := 0
  seq := Seq.idle
  dinq := []
  env := Env.silent

end Sys2Proof.Machine
end

