-- ==== Sys2Proof/Machine/Ops.lean ====
section
/-!
DEFINITION. The shared operations: updates of the state, taking a fault (R266) and the reset event (R300),
micro-steps of the sequencer (R31, R280), the draws of the environment (R15),
and the three primitives `Gate`, `Batch` and `Triv` (R112 to R114).
-/

namespace Sys2Proof.Machine

/-! Updates of the state. Each replaces a whole element (R23); no two elements alias (R24). -/

/-- `R[k] <- w`. -/
def State.setR (s : State) (k : Reg) (w : Word) : State := { s with r := s.r.set k.val (some w) }

/-- Storage elements that all hold a word. -/
def filled {n : Nat} (ws : Vector Word n) : Vector (Option Word) n := ⟨⟨ws.toList.map some⟩, by simp⟩

/-- All eight words of `HS` at once (R27). -/
def State.setHS (s : State) (ws : Vector Word 8) : State :=
  { s with hs := filled ws }

/-- All sixteen words of `BLK` at once (R28). -/
def State.setBLK (s : State) (ws : Vector Word 16) : State :=
  { s with blk := filled ws }

/-- `W[t] <- w`. -/
def State.setW (s : State) (t : Fin 64) (w : Word) : State :=
  { s with scratch := { s.scratch with w := s.scratch.w.set t.val (some w) } }

/-- `V[k] <- w`. -/
def State.setV (s : State) (k : Fin 8) (w : Word) : State :=
  { s with scratch := { s.scratch with v := s.scratch.v.set k.val (some w) } }

/-- All eight working variables at once (R193). -/
def State.setAllV (s : State) (ws : Vector Word 8) : State :=
  { s with scratch := { s.scratch with v := filled ws } }

/-- `T1 <- w`. -/
def State.setT1 (s : State) (w : Word) : State := { s with scratch := { s.scratch with t1 := some w } }

/-- `T2 <- w`. -/
def State.setT2 (s : State) (w : Word) : State := { s with scratch := { s.scratch with t2 := some w } }

/-- `AP <- w`. -/
def State.setAP (s : State) (w : Word) : State := { s with scratch := { s.scratch with ap := some w } }

/-- `AG <- w`. -/
def State.setAG (s : State) (w : Word) : State := { s with scratch := { s.scratch with ag := some w } }

/-- `AC <- w`. -/
def State.setAC (s : State) (w : Word) : State := { s with scratch := { s.scratch with ac := some w } }

/-- `AP <- empty; AG <- empty; AC <- empty` (R172). -/
def State.clearAdder (s : State) : State :=
  { s with scratch := { s.scratch with ap := none, ag := none, ac := none } }

/-- `W[0..63] <- empty; V[0..7] <- empty; T1 <- empty; T2 <- empty` (R194). -/
def State.clearRounds (s : State) : State :=
  { s with scratch :=
      { s.scratch with w := Vector.replicate 64 none, v := Vector.replicate 8 none, t1 := none, t2 := none } }

/-- `SEQ.PHASE <- p`. -/
def State.setPhase (s : State) (p : Phase) : State := { s with seq := { s.seq with phase := p } }

/-- `SEQ.T <- t`. -/
def State.setT (s : State) (t : Fin 64) : State := { s with seq := { s.seq with t := t } }

/-- `SEQ.BLKLEFT <- n`. -/
def State.setBlkLeft (s : State) (n : U32) : State := { s with seq := { s.seq with blkLeft := n } }

/-- `SEQ.CI <- i`. -/
def State.setCI (s : State) (i : Fin 32) : State := { s with seq := { s.seq with ci := i } }

/-- `DINQ <- q`. -/
def State.setDinq (s : State) (q : List Frame) : State := { s with dinq := q }

/-- The host's acts still to come. -/
def State.setHost (s : State) (es : List HostEvent) : State := { s with env := { s.env with host := es } }

/-- `DoutWordFrame(w)`: the frame is added to the host's history, whole (R62, assumption 16). -/
def State.emit (s : State) (w : Word) : State := { s with env := { s.env with dout := s.env.dout ++ [w] } }

/-- `n` capability calls have had their draws. -/
def State.dropCtx (s : State) (n : Nat) : State :=
  { s with env := { s.env with ctxDraws := s.env.ctxDraws.drop n } }

/-- `n` workers have had their draws. -/
def State.dropWorkers (s : State) (n : Nat) : State :=
  { s with env := { s.env with workerDraws := s.env.workerDraws.drop n } }

/-- Accepting a command word: `STATE` becomes BUSY and the sequencer starts at the word (R34, R59). -/
def State.accept (s : State) (cw : CmdWord) : State :=
  { s with status := { s.status with state := .busy }, seq := { Seq.idle with cmd := cw } }

/-- The command completes: `STATE` becomes IDLE (R34) and the sequencer is idle again (R31, assumption 8). -/
def State.complete (s : State) : State :=
  { s with status := { s.status with state := .idle }, seq := Seq.idle }

/-- `raise F_x` (R266): FAULT takes the code, FCMD the command word in execution, STATE becomes FATAL.
Nothing else changes: no destination is written, no frame is emitted (assumption 12). -/
def State.takeFault (s : State) (c : FaultCode) : State :=
  { s with status := ⟨.fatal, some c⟩, fcmd := s.seq.cmd }

/-- The reset event (R300), the only exit from FATAL (R269, R303): the CORE as after reset.
The environment is not reached by it (R302); the host's history stays. -/
def State.resetEvent (s : State) : State := { State.reset with env := s.env }

/-! Micro-steps of the sequencer. -/

/-- Why a command stops before its last line: a fault was raised, or it waits for a frame. -/
inductive Stop where
  | faulted
  | held
  deriving DecidableEq, Repr

/-- A stretch of the sequencer's work (R31, R280): from a state to a result and the next state, or to a stop.
Lines run in textual order (R70); after a stop no later line runs (R266). -/
abbrev Micro := EStateM Stop State

/-- One change of the state. -/
def update (f : State → State) : Micro Unit := fun s => .ok () (f s)

/-- `raise F_x` inside a command (R11, R266). -/
def raise {α : Type} (c : FaultCode) : Micro α := fun s => .error .faulted (s.takeFault c)

/-- The command waits, BUSY, and only the host can end the wait (R61, R284; assumption 11). -/
def hold {α : Type} : Micro α := fun s => .error .held s

/-- Reading a word storage element: `F_SHAPE` when it is `empty` (R11, R22). -/
def readElement (x : State → Option Word) : Micro Word := fun s =>
  match x s with
  | some w => .ok w s
  | none => .error .faulted (s.takeFault .fShape)

/-- `for i in lo .. lo + n - 1: body i`, in increasing i. -/
def forRange (lo : Nat) : (n : Nat) → (Nat → Micro Unit) → Micro Unit
  | 0, _ => pure ()
  | n + 1, body => do
    forRange lo n body
    body (lo + n)

/-- `for i in 0 .. n - 1: x[i] <- f i`, in increasing i, giving all of x. -/
def collect {α : Type} : (n : Nat) → (Fin n → Micro α) → Micro (Vector α n)
  | 0, _ => pure #v[]
  | n + 1, f => do
    let xs ← collect n fun i => f i.castSucc
    let x ← f (Fin.last n)
    pure (xs.push x)

/-! Draws of the environment (R15). -/

/-- The draws of the next `n` capability calls: does any of them answer `ctx_error`? -/
def drawCtx (n : Nat) : Micro Bool := fun s => .ok ((s.env.ctxDraws.take n).any id) (s.dropCtx n)

/-- The draws of the next `n` workers: does any of them fail? -/
def drawWorkers (n : Nat) : Micro Bool := fun s => .ok ((s.env.workerDraws.take n).any id) (s.dropWorkers n)

/-! The three primitives. -/

/-- Cell i of a plain value: `bit(v, i) = (v >> (31 - i)) & 1` (R9, R52). -/
def bitOf (v : U32) (i : Fin 32) : Bool := v.getLsbD (31 - i)

/-- The kinds of a single gate (R112). -/
inductive GateKind where
  | and
  | xor
  deriving DecidableEq, Repr

/-- `Gate(kind, a, b)` (R112): one call, by the sequencer itself; its only failure is `F_CTX`. -/
def gate (G : Capability) (kind : GateKind) (a b : Ct) : Micro Ct := do
  if ← drawCtx 1 then raise .fCtx
  else pure (match kind with | .and => G.and a b | .xor => G.xor a b)

/-- `Triv(b)` (R114): one call, no worker, no join; its only failure is `F_CTX`. -/
def triv (G : Capability) (b : Bool) : Micro Ct := do
  if ← drawCtx 1 then raise .fCtx
  else pure (G.triv b)

/-- `TrivW(v)` (R114): 32 calls in cell order. -/
def trivW (G : Capability) (v : U32) : Micro Word := collect 32 fun i => triv G (bitOf v i)

/-- What a batch is asked to do: a kind with its operand words (R113). -/
inductive BatchOp where
  | and (a b : Word)
  | xor (a b : Word)
  | not (a : Word)
  deriving DecidableEq, Repr

/-- The gate of lane i (R113): it reads only the operand cells of its own lane (R69). -/
def BatchOp.lane (G : Capability) (i : Fin 32) : BatchOp → Ct
  | .and a b => G.and a[i] b[i]
  | .xor a b => G.xor a[i] b[i]
  | .not a => G.not a[i]

/-- The slots worker j delivers: lanes `CHUNKW*j .. CHUNKW*j + CHUNKW - 1` (R115). -/
def workerSlots (G : Capability) (q : BatchOp) (j : Fin Config.NCHUNK) : Vector Ct Config.CHUNKW :=
  Vector.ofFn fun l => q.lane G ⟨Config.CHUNKW * j + l, by
    have hj := j.isLt
    have hl := l.isLt
    simp only [Config.CHUNKW, Config.NCHUNK] at *
    omega⟩

/-- The join (R113): every slot back in its own position. -/
def joinSlots (chunks : Fin Config.NCHUNK → Vector Ct Config.CHUNKW) : Word :=
  Vector.ofFn fun i => (chunks ⟨i / Config.CHUNKW, Nat.div_lt_of_lt_mul i.isLt⟩)[i.val % Config.CHUNKW]'(Nat.mod_lt _ (by decide))

/-- `Batch(kind, A, B)` (R113), taken as one atomic step (R117(a)): 32 calls by the workers, then the join.
Any `ctx_error` raises `F_CTX`; otherwise any failed worker raises `F_WORKER` (R118, R268; assumption 9). -/
def batch (G : Capability) (q : BatchOp) : Micro Word := do
  let badCall ← drawCtx Config.LANES
  let badWorker ← drawWorkers Config.NCHUNK
  if badCall then raise .fCtx
  else if badWorker then raise .fWorker
  else pure (joinSlots (workerSlots G q))

/-- One command as a step: completed (IDLE), or stopped with a fault (FATAL) or in a wait (still BUSY). -/
def runCommand (m : Micro Unit) (s : State) : Host.Outcome State Fault Refusal :=
  match m s with
  | .ok _ s' => .next s'.complete
  | .error _ s' => .next s'

end Sys2Proof.Machine
end

