-- ==== Sys2Proof/Machine/Operands.lean ====
section
/-!
DEFINITION. Every form an operand takes: source and destination registers (R26, R84), the sequencer's own storage
(R27 to R29), and frames taken from DIN (R61).
-/

namespace Sys2Proof.Machine

/-- `R[k]` as a source (R22, R26). -/
def readR (k : Reg) : Micro Word := readElement fun s => s.r[k]

/-- `R[rd] <- w`, once, after every source has been read (R23). -/
def writeR (k : Reg) (w : Word) : Micro Unit := update fun s => s.setR k w

/-- `HS[k]` as a source. -/
def readHS (k : Fin 8) : Micro Word := readElement fun s => s.hs[k]

/-- `BLK[k]` as a source. -/
def readBLK (k : Fin 16) : Micro Word := readElement fun s => s.blk[k]

/-- `W[t]` as a source. -/
def readW (t : Fin 64) : Micro Word := readElement fun s => s.scratch.w[t]

/-- `V[k]` as a source. -/
def readV (k : Fin 8) : Micro Word := readElement fun s => s.scratch.v[k]

/-- A word frame's cells as a word, the first cell becoming cell 0; only 32 cells are a word (R61, R65). -/
def toWord (cells : List Ct) : Option Word :=
  if h : cells.length = 32 then some ⟨⟨cells⟩, h⟩ else none

/-- The words of a block frame, if every one of them has 32 cells (R61). -/
def toWords : List (List Ct) → Option (List Word)
  | [] => some []
  | f :: fs =>
    match toWord f, toWords fs with
    | some w, some ws => some (w :: ws)
    | _, _ => none

/-- A block frame as 16 words, frame k becoming word k; nothing else is a block (R61, R65). -/
def toBlock (frames : List (List Ct)) : Option (Vector Word 16) :=
  match toWords frames with
  | some ws => if h : ws.length = 16 then some ⟨⟨ws⟩, h⟩ else none
  | none => none

/-- A frame as a word: a block frame is of the wrong kind (R61). -/
def Frame.asWord : Frame → Option Word
  | .word cells => toWord cells
  | .block _ => none

/-- A frame as a block: a word frame is of the wrong kind (R61). -/
def Frame.asBlock : Frame → Option (Vector Word 16)
  | .word _ => none
  | .block frames => toBlock frames

/-- Taking the head frame of `DINQ` (R61): a wait while there is none; the frame is consumed in any case;
`F_SHAPE` when it has not the wanted kind and lengths. -/
def takeFrame {α : Type} (shape : Frame → Option α) : Micro α := fun s =>
  match s.dinq with
  | [] => .error .held s
  | f :: q =>
    match shape f with
    | some x => .ok x (s.setDinq q)
    | none => .error .faulted ((s.setDinq q).takeFault .fShape)

/-- `DinWordFrame()` (R61). -/
def dinWordFrame : Micro Word := takeFrame Frame.asWord

/-- `DinBlockFrame()` (R61). -/
def dinBlockFrame : Micro (Vector Word 16) := takeFrame Frame.asBlock

/-- `DoutWordFrame(w)` (R62). -/
def doutWordFrame (w : Word) : Micro Unit := update fun s => s.emit w

end Sys2Proof.Machine
end

