-- ==== Sys2Proof/Machine/GateEngine.lean ====
section
/-!
DEFINITION. GateEngine (40_gate_engine.md): XORW, ANDW, NOTW, TRIVW.
-/

namespace Sys2Proof.Machine

/-- XORW rd, rs1, rs2 (R120). -/
def execXorw (rd rs1 rs2 : Reg) (s : State) : Host.Outcome State Fault Refusal :=
  runCommand (do
    let a ← readR rs1
    let b ← readR rs2
    let w ← batch Config.G (.xor a b)
    writeR rd w) s

/-- ANDW rd, rs1, rs2 (R121). -/
def execAndw (rd rs1 rs2 : Reg) (s : State) : Host.Outcome State Fault Refusal :=
  runCommand (do
    let a ← readR rs1
    let b ← readR rs2
    let w ← batch Config.G (.and a b)
    writeR rd w) s

/-- NOTW rd, rs1 (R122). -/
def execNotw (rd rs1 : Reg) (s : State) : Host.Outcome State Fault Refusal :=
  runCommand (do
    let a ← readR rs1
    let w ← batch Config.G (.not a)
    writeR rd w) s

/-- TRIVW rd, imm (R123): no source element, so no `F_SHAPE`. -/
def execTrivw (rd : Reg) (imm : U32) (s : State) : Host.Outcome State Fault Refusal :=
  runCommand (do
    let w ← trivW Config.G imm
    writeR rd w) s

end Sys2Proof.Machine
end

