-- ==== Sys2Proof/Machine/Adder.lean ====
section
/-!
DEFINITION. Adder (42_adder.md): the word function `Add` by the reference netlist (R172, assumption 17), and ADD.
-/

namespace Sys2Proof.Machine

/-- The strictly sequential phase of `Add` (R172, R175): the cells `c[m-1]`, .., `c[0]` of the carry word in that order,
from the carry into cell m. Each step is one AND gate and one XOR gate; the XOR stands for the source's OR (R174). -/
def carryFrom (G : Capability) (p g : Word) : (m : Nat) → m < 32 → Ct → Micro (Vector Ct m)
  | 0, _, _ => pure #v[]
  | m + 1, h, c => do
    update fun s => s.setCI ⟨m, by omega⟩
    let t ← gate G .and p[m + 1] c
    let ci ← gate G .xor g[m + 1] t
    let rest ← carryFrom G p g m (by omega) ci
    pure (rest.push ci)

/-- `Add(a, b)` (R172): addition modulo 2^32 with carry-in 0 and no carry-out (R170). -/
def add (G : Capability) (a b : Word) : Micro Word := do
  let p ← batch G (.xor a b)
  update fun s => s.setAP p
  let g ← batch G (.and a b)
  update fun s => s.setAG g
  let c31 ← triv G false
  let c ← carryFrom G p g 31 (by decide) c31
  update fun s => s.setAC (c.push c31)
  let sum ← batch G (.xor p (c.push c31))
  update State.clearAdder
  pure sum

/-- ADD rd, rs1, rs2 (R171). -/
def execAdd (rd rs1 rs2 : Reg) (s : State) : Host.Outcome State Fault Refusal :=
  runCommand (do
    let a ← readR rs1
    let b ← readR rs2
    let w ← add Config.G a b
    writeR rd w) s

end Sys2Proof.Machine
end

