-- ==== Sys2Proof/Machine/WordOps.lean ====
section
/-!
DEFINITION. WordOps (41_word_ops.md): the eight word functions and ROTR, SHR, SSIG0, SSIG1, BSIG0, BSIG1, CH, MAJ.
-/

namespace Sys2Proof.Machine

/-- `RotR(x, n)` (R140): cell i moves to cell (i + n) mod 32, that is, cell j comes from cell (j - n) mod 32.
Pure relabelling: no capability call, no fault. -/
def rotR (x : Word) (n : Nat) : Word :=
  Vector.ofFn fun j => x[(j.val + (32 - n % 32)) % 32]'(Nat.mod_lt _ (by decide))

/-- `ShR(x, n)` for n up to 32 (R142, conflict C1): n new trivial zeros at the most significant end,
then the input cells 0 .. 31-n; no gate, n calls of `G.triv`. -/
def shR (G : Capability) (x : Word) (n : Nat) : Micro Word := do
  let zeros ← collect n fun _ => triv G false
  pure (Vector.ofFn fun i => if h : i.val < n then zeros[i.val] else x[i.val - n])

/-- `SSig0(x)` (R149). -/
def ssig0 (G : Capability) (x : Word) : Micro Word := do
  let t ← batch G (.xor (rotR x 7) (rotR x 18))
  let c ← shR G x 3
  batch G (.xor t c)

/-- `SSig1(x)` (R149). -/
def ssig1 (G : Capability) (x : Word) : Micro Word := do
  let t ← batch G (.xor (rotR x 17) (rotR x 19))
  let c ← shR G x 10
  batch G (.xor t c)

/-- `BSig0(x)` (R149). -/
def bsig0 (G : Capability) (x : Word) : Micro Word := do
  let t ← batch G (.xor (rotR x 2) (rotR x 13))
  batch G (.xor t (rotR x 22))

/-- `BSig1(x)` (R149). -/
def bsig1 (G : Capability) (x : Word) : Micro Word := do
  let t ← batch G (.xor (rotR x 6) (rotR x 11))
  batch G (.xor t (rotR x 25))

/-- `Ch(x, y, z)` (R149). -/
def ch (G : Capability) (x y z : Word) : Micro Word := do
  let t1 ← batch G (.and x y)
  let nx ← batch G (.not x)
  let t2 ← batch G (.and nx z)
  batch G (.xor t1 t2)

/-- `Maj(x, y, z)` (R149). -/
def maj (G : Capability) (x y z : Word) : Micro Word := do
  let t1 ← batch G (.and x y)
  let t2 ← batch G (.and x z)
  let t3 ← batch G (.xor t1 t2)
  let t4 ← batch G (.and y z)
  batch G (.xor t3 t4)

/-- ROTR rd, rs1, n (R141): the amount modulo 32. -/
def execRotr (rd rs1 : Reg) (n : BitVec 8) (s : State) : Host.Outcome State Fault Refusal :=
  runCommand (do
    let x ← readR rs1
    writeR rd (rotR x n.toNat)) s

/-- SHR rd, rs1, n (R143): no legal word has n above 32 (R89). -/
def execShr (rd rs1 : Reg) (n : BitVec 8) (s : State) : Host.Outcome State Fault Refusal :=
  runCommand (do
    let x ← readR rs1
    let w ← shR Config.G x n.toNat
    writeR rd w) s

/-- SSIG0 rd, rs1 (R144). -/
def execSsig0 (rd rs1 : Reg) (s : State) : Host.Outcome State Fault Refusal :=
  runCommand (do
    let x ← readR rs1
    let w ← ssig0 Config.G x
    writeR rd w) s

/-- SSIG1 rd, rs1 (R145). -/
def execSsig1 (rd rs1 : Reg) (s : State) : Host.Outcome State Fault Refusal :=
  runCommand (do
    let x ← readR rs1
    let w ← ssig1 Config.G x
    writeR rd w) s

/-- BSIG0 rd, rs1 (R146). -/
def execBsig0 (rd rs1 : Reg) (s : State) : Host.Outcome State Fault Refusal :=
  runCommand (do
    let x ← readR rs1
    let w ← bsig0 Config.G x
    writeR rd w) s

/-- BSIG1 rd, rs1 (R147). -/
def execBsig1 (rd rs1 : Reg) (s : State) : Host.Outcome State Fault Refusal :=
  runCommand (do
    let x ← readR rs1
    let w ← bsig1 Config.G x
    writeR rd w) s

/-- CH rd, rs1, rs2, rs3 (R148). -/
def execCh (rd rs1 rs2 rs3 : Reg) (s : State) : Host.Outcome State Fault Refusal :=
  runCommand (do
    let x ← readR rs1
    let y ← readR rs2
    let z ← readR rs3
    let w ← ch Config.G x y z
    writeR rd w) s

/-- MAJ rd, rs1, rs2, rs3 (R152). -/
def execMaj (rd rs1 rs2 rs3 : Reg) (s : State) : Host.Outcome State Fault Refusal :=
  runCommand (do
    let x ← readR rs1
    let y ← readR rs2
    let z ← readR rs3
    let w ← maj Config.G x y z
    writeR rd w) s

end Sys2Proof.Machine
end

