-- ==== Sys2Proof/Machine/Compressor.lean ====
section
/-!
DEFINITION. Compressor (43_compressor.md): schedule, rounds, feed-forward, and COMPRESS.
-/

namespace Sys2Proof.Machine

/-- The index t as an index of the schedule; every counter of the sequencer stays in its range (R51). -/
def tIdx (t : Nat) : Fin 64 := Fin.ofNat 64 t

/-- `W[t] <- BLK[t]` for t below 16 (R191): copies, no capability call. -/
def copyBlockWord (t : Nat) : Micro Unit := do
  let w ← readBLK (Fin.ofNat 16 t)
  update fun s => s.setW (tIdx t) w

/-- One step of the message schedule, t in 16..63 (R191), the sum grouped from the left. -/
def scheduleStep (G : Capability) (t : Nat) : Micro Unit := do
  update fun s => s.setT (tIdx t)
  let x1 ← ssig1 G (← readW (tIdx (t - 2)))
  let x2 ← add G x1 (← readW (tIdx (t - 7)))
  let x3 ← ssig0 G (← readW (tIdx (t - 15)))
  let x4 ← add G x2 x3
  let w ← add G x4 (← readW (tIdx (t - 16)))
  update fun s => s.setW (tIdx t) w

/-- Phase SCHED (R191). -/
def schedulePhase (G : Capability) : Micro Unit := do
  forRange 0 16 copyBlockWord
  forRange 16 48 (scheduleStep G)

/-- `V[k] <- HS[k]` (R193). -/
def loadWorking (k : Nat) : Micro Unit := do
  let w ← readHS (Fin.ofNat 8 k)
  update fun s => s.setV (Fin.ofNat 8 k) w

/-- One round, t in 0..63 (R193): the sums grouped from the left, `d + T1` before `T2 + T1`,
and the eight working variables replaced at once. -/
def roundStep (G : Capability) (t : Nat) : Micro Unit := do
  update fun s => s.setT (tIdx t)
  let v ← collect 8 readV
  let s1 ← bsig1 G v[4]
  let u1 ← add G v[7] s1
  let cf ← ch G v[4] v[5] v[6]
  let u2 ← add G u1 cf
  let kw ← trivW G (K (tIdx t))
  let u3 ← add G u2 kw
  let t1 ← add G u3 (← readW (tIdx t))
  update fun s => s.setT1 t1
  let s0 ← bsig0 G v[0]
  let mj ← maj G v[0] v[1] v[2]
  let t2 ← add G s0 mj
  update fun s => s.setT2 t2
  let ne ← add G v[3] t1
  let na ← add G t2 t1
  update fun s => s.setAllV #v[na, v[0], v[1], v[2], ne, v[4], v[5], v[6]]

/-- Phase ROUND (R193). -/
def roundPhase (G : Capability) : Micro Unit := do
  forRange 0 8 loadWorking
  forRange 0 64 (roundStep G)

/-- `N[k] <- Add(HS[k], V[k])` (R194). -/
def feedForwardWord (G : Capability) (k : Fin 8) : Micro Word := do
  update fun s => s.setT (tIdx k)
  add G (← readHS k) (← readV k)

/-- Phase FF (R194): `HS` is written only here, all eight words at once; then the scratch storage is emptied. -/
def feedForwardPhase (G : Capability) : Micro Unit := do
  let n ← collect 8 (feedForwardWord G)
  update fun s => s.setHS n
  update State.clearRounds

/-- The pseudocode of COMPRESS (R195): the check of every source element comes before any gate. -/
def compress (G : Capability) : Micro Unit := do
  let _ ← collect 8 readHS
  let _ ← collect 16 readBLK
  update fun s => s.setPhase .sched
  schedulePhase G
  update fun s => s.setPhase .round
  roundPhase G
  update fun s => s.setPhase .ff
  feedForwardPhase G
  update fun s => s.setPhase .none

/-- COMPRESS (R195), run as one step (R197). -/
def execCompress (s : State) : Host.Outcome State Fault Refusal := runCommand (compress Config.G) s

end Sys2Proof.Machine
end

