-- ==== Sys2Proof/Machine/Transfer.lean ====
section
/-!
DEFINITION. Transfers (45_transfer.md): LDW, STW, LDBLK, RDH. None calls the capability.
-/

namespace Sys2Proof.Machine

/-- The pseudocode of LDBLK (R242): all sixteen words of `BLK` at once. -/
def loadBlock : Micro Unit := do
  let f ← dinBlockFrame
  update fun s => s.setBLK f

/-- The pseudocode of RDH (R243): the check of all eight words, then eight frames, `HS[0]` first. -/
def emitDigest : Micro Unit := do
  let ws ← collect 8 readHS
  forRange 0 8 fun k => doutWordFrame (ws[Fin.ofNat 8 k])

/-- LDW rd (R240). -/
def execLdw (rd : Reg) (s : State) : Host.Outcome State Fault Refusal :=
  runCommand (do
    let w ← dinWordFrame
    writeR rd w) s

/-- STW rs1 (R241). -/
def execStw (rs1 : Reg) (s : State) : Host.Outcome State Fault Refusal :=
  runCommand (do
    let w ← readR rs1
    doutWordFrame w) s

/-- LDBLK (R242). -/
def execLdblk (s : State) : Host.Outcome State Fault Refusal := runCommand loadBlock s

/-- RDH (R243). -/
def execRdh (s : State) : Host.Outcome State Fault Refusal := runCommand emitDigest s

end Sys2Proof.Machine
end

