-- ==== Sys2Proof/Machine/HashDriver.lean ====
section
/-!
DEFINITION. HashDriver (44_hash_driver.md): HINIT and HASH.
-/

namespace Sys2Proof.Machine

/-- The pseudocode of HINIT (R222): eight trivially encrypted words, written at once. -/
def initHash (G : Capability) : Micro Unit := do
  let n ← collect 8 fun k => trivW G (IV k)
  update fun s => s.setHS n

/-- The loop of HASH (R223) with n blocks left: load a block, perhaps waiting for the host, and compress it.
In phase LOAD the fields T and CI, to which R31 gives no meaning there, keep what the last block left in them (assumption 21). -/
def hashBlocks (G : Capability) : Nat → Micro Unit
  | 0 => pure ()
  | n + 1 => do
    update fun s => s.setPhase .load
    loadBlock
    compress G
    update fun s => s.setBlkLeft (s.seq.blkLeft - 1)
    hashBlocks G n

/-- HASH from its loop on (R223): where a HASH that was held in phase LOAD goes on. -/
def hashRest (G : Capability) : Micro Unit := do
  let s ← get
  hashBlocks G s.seq.blkLeft.toNat
  update fun s => s.setPhase .out
  emitDigest
  update fun s => s.setPhase .none

/-- The whole of HASH (R223). -/
def hashAll (G : Capability) (imm : U32) : Micro Unit := do
  update fun s => s.setBlkLeft imm
  update fun s => s.setPhase .hinit
  initHash G
  hashRest G

/-- HINIT (R222). -/
def execHinit (s : State) : Host.Outcome State Fault Refusal := runCommand (initHash Config.G) s

/-- HASH imm (R223): from its start, or, where it was held in phase LOAD, from there on with the blocks still left. -/
def execHash (imm : U32) (s : State) : Host.Outcome State Fault Refusal :=
  if s.seq.phase = .load then runCommand (hashRest Config.G) s
  else runCommand (hashAll Config.G imm) s

end Sys2Proof.Machine
end

