-- ==== Sys2Proof/Machine/Dispatch.lean ====
section
/-!
DEFINITION. One arm per operation (R90): the meaning of each instruction.
-/

namespace Sys2Proof.Machine

def exec (i : Instr) (s : State) : Host.Outcome State Fault Refusal :=
  match i with
  | .xorw rd rs1 rs2 => Sys2Proof.Machine.execXorw rd rs1 rs2 s
  | .andw rd rs1 rs2 => Sys2Proof.Machine.execAndw rd rs1 rs2 s
  | .notw rd rs1 => Sys2Proof.Machine.execNotw rd rs1 s
  | .trivw rd imm => Sys2Proof.Machine.execTrivw rd imm s
  | .rotr rd rs1 n => Sys2Proof.Machine.execRotr rd rs1 n s
  | .shr rd rs1 n => Sys2Proof.Machine.execShr rd rs1 n s
  | .ssig0 rd rs1 => Sys2Proof.Machine.execSsig0 rd rs1 s
  | .ssig1 rd rs1 => Sys2Proof.Machine.execSsig1 rd rs1 s
  | .bsig0 rd rs1 => Sys2Proof.Machine.execBsig0 rd rs1 s
  | .bsig1 rd rs1 => Sys2Proof.Machine.execBsig1 rd rs1 s
  | .ch rd rs1 rs2 rs3 => Sys2Proof.Machine.execCh rd rs1 rs2 rs3 s
  | .maj rd rs1 rs2 rs3 => Sys2Proof.Machine.execMaj rd rs1 rs2 rs3 s
  | .add rd rs1 rs2 => Sys2Proof.Machine.execAdd rd rs1 rs2 s
  | .compress => Sys2Proof.Machine.execCompress s
  | .hinit => Sys2Proof.Machine.execHinit s
  | .hash imm => Sys2Proof.Machine.execHash imm s
  | .ldw rd => Sys2Proof.Machine.execLdw rd s
  | .stw rs1 => Sys2Proof.Machine.execStw rs1 s
  | .ldblk => Sys2Proof.Machine.execLdblk s
  | .rdh => Sys2Proof.Machine.execRdh s

end Sys2Proof.Machine
end

