-- ==== Sys2Proof/Machine/Sequencer.lean ====
section
/-!
DEFINITION. The sequencer between commands: accepting and decoding a command word (R59, R87), resuming a held
command (R61), and the acts of the host (R283), reset among them (R300, R301).
-/

namespace Sys2Proof.Machine

/-- The command word in execution (R87): decoded before anything else happens, `F_ILLEGAL` when it does not decode (R265). -/
def runWord (cw : CmdWord) (s : State) : Host.Outcome State Fault Refusal :=
  match decode cw with
  | some i => exec i s
  | none => .next (s.takeFault .fIllegal)

/-- What an act of the host does to a machine that is not working (R283): a frame joins `DINQ` (R60); either reset
event resets (R300); a command word is not accepted (R59, assumption 5). -/
def hostAct (e : HostEvent) (s : State) : State :=
  match e with
  | .command _ => s
  | .frame f => s.setDinq (s.dinq ++ [f])
  | .reset => s.resetEvent
  | .resetDuring _ => s.resetEvent

/-- The host's next act, if it has one, on a machine that takes no command. -/
def hostNext (s : State) : State :=
  match s.env.host with
  | [] => s
  | e :: es => hostAct e (s.setHost es)

/-- The draws still to come when a piece of work is cut off after n of its draws (R302: reset gives no draw back).
Every command makes its calls before it emits a frame (R223, R241, R243), so with a frame emitted all the work's draws are used. -/
def drawsLeft (frames : List Word) (n : Nat) (before after : List Bool) : List Bool :=
  if frames.isEmpty then before.drop (min n (before.length - after.length)) else after

/-- Reset in the middle of a piece of work (R301): what remains of the work is, with the host, the first frames it
emitted, and, with the environment, the calls it made and the workers that ended; the rest is as after reset
(assumption 6). -/
def abandon (before after : State) (m : Moment) (es : List HostEvent) : State :=
  let frames := (after.env.dout.drop before.env.dout.length).take m.emitted
  State.resetEvent { before with
    env :=
      { host := es
        dout := before.env.dout ++ frames
        ctxDraws := drawsLeft frames m.calls before.env.ctxDraws after.env.ctxDraws
        workerDraws := drawsLeft frames m.workers before.env.workerDraws after.env.workerDraws } }

/-- The sequencer works on the command word from this state; the host's next act may be a reset in the middle of it (R301). -/
def work (cw : CmdWord) (s : State) : Host.Outcome State Fault Refusal :=
  match s.env.host with
  | .resetDuring m :: es =>
    match runWord cw s with
    | .next s' => .next (abandon s s' m es)
    | .fault f => .fault f
    | .refused r => .refused r
  | _ => runWord cw s

/-- One step. IDLE: the host's next act, a command word being accepted and executed (R59).
BUSY: the held command goes on when a frame is there, else the host's next act (R61, R284).
FATAL: the host's next act; no command is accepted (R269). -/
def stepState (s : State) : Host.Outcome State Fault Refusal :=
  match s.status.state with
  | .idle =>
    match s.env.host with
    | .command cw :: es => work cw ((s.setHost es).accept cw)
    | _ => .next (hostNext s)
  | .busy => if s.dinq = [] then .next (hostNext s) else work s.seq.cmd s
  | .fatal => .next (hostNext s)

/-- Whether an act is a reset in the middle of work. -/
def HostEvent.strikes : HostEvent → Bool
  | .resetDuring _ => true
  | .command _ => false
  | .frame _ => false
  | .reset => false

/-- The machine idle, with the host about to hand over `cw` and no reset striking the command (assumption 7). -/
def State.offerCommand (s : State) (cw : CmdWord) : State :=
  { s with
    status := ⟨.idle, none⟩
    fcmd := 0
    env := { s.env with host := .command cw :: s.env.host.dropWhile HostEvent.strikes } }

end Sys2Proof.Machine
end

