-- ==== Sys2Proof/Machine/Step.lean ====
section
/-!
DEFINITION. The step of the machine, and how a command word comes to be the next one.
-/

namespace Sys2Proof.Machine

/-- One step of the machine (R59, R61, R269, R284). -/
def step (s : State) : Host.Outcome State Fault Refusal := stepState s

/-- The state in which the host hands over, next, the command word whose low `nbits` bits are those of `w` (R56, R59). -/
def State.withFetchWord (s : State) (nbits w : Nat) : State := s.offerCommand (tableWord nbits w)

end Sys2Proof.Machine
end

