-- ==== Sys2Proof/Machine/Flags.lean ====
section
/-!
DEFINITION. There are no flags and no condition codes (R40): no operation computes one.
What stands here are the words port STATUS shows (R33, R35, R36, R64).
-/

namespace Sys2Proof.Machine

/-- The value of `STATE` (R33). -/
def RunState.code : RunState → Nat
  | .idle => 0
  | .busy => 1
  | .fatal => 2

/-- The value of `FAULT` for a fault (R33, R261). -/
def FaultCode.code : FaultCode → Nat
  | .fCtx => 1
  | .fShape => 2
  | .fWorker => 3
  | .fIllegal => 4

/-- The `STATUS` register as port STATUS shows it (R33): STATE in bits [1:0], FAULT in bits [6:4], the rest 0. -/
def Status.word (x : Status) : U32 :=
  BitVec.ofNat 32 (x.state.code + 16 * (match x.fault with | none => 0 | some c => c.code))

/-- The `CFG` register (R36): NCHUNK in bits [5:0], CHUNKW in bits [13:8], LANES in bits [21:16], the rest 0. -/
def cfg : U32 := BitVec.ofNat 32 (Config.NCHUNK + 2 ^ 8 * Config.CHUNKW + 2 ^ 16 * Config.LANES)

/-- What port STATUS shows, in every state and without a side effect (R64): `STATUS`, `FCMD`, `CFG`. -/
def State.statusPort (s : State) : U32 × CmdWord × U32 := (s.status.word, s.fcmd, cfg)

end Sys2Proof.Machine
end

