-- ==== Sys2Proof/Machine/Ghost.lean ====
section
/-!
DEFINITION. The ghost value functions (R10, R13), in which guarantees are stated.
No operation of the CORE uses them (R276).
-/

namespace Sys2Proof.Machine

/-- `val(w) = sum over i of dec(w[i]) * 2^(31-i)`, a u32 (R10). -/
def val (dec : Ct → Bool) (w : Word) : U32 :=
  BitVec.ofNat 32 (List.ofFn fun i : Fin 32 => (dec w[i]).toNat * 2 ^ (31 - i.val)).sum

/-- The plain values of several words. -/
def vals {n : Nat} (dec : Ct → Bool) (ws : Vector Word n) : Vector U32 n := Vector.ofFn fun k => val dec ws[k]

/-- Digest bit j, in the order in which the client decrypts (R54): word `j div 32`, cell `j mod 32`. -/
def digestBit (dec : Ct → Bool) (ws : Vector Word 8) (j : Fin 256) : Bool :=
  dec ((ws[j.val / 32]'(Nat.div_lt_of_lt_mul j.isLt))[j.val % 32]'(Nat.mod_lt _ (by decide)))

end Sys2Proof.Machine
end

