-- ==== Sys2Proof/Machine/Plain.lean ====
section
/-!
DEFINITION. SHA-256 on plain values: the formulas of R140, R150, R191, R193, R196, R224,
and the client's padding (R57) and cutting into blocks (R53). Guarantees are stated with these; the CORE computes none of them.
-/

namespace Sys2Proof.Machine.Plain

/-- `rotr32(v, m)` for m below 32 (R140). -/
def rotr32 (v : U32) (m : Nat) : U32 := if m = 0 then v else (v >>> m) ||| (v <<< (32 - m))

/-- `ssig0(v)` (R150). -/
def ssig0 (v : U32) : U32 := rotr32 v 7 ^^^ rotr32 v 18 ^^^ (v >>> 3)

/-- `ssig1(v)` (R150). -/
def ssig1 (v : U32) : U32 := rotr32 v 17 ^^^ rotr32 v 19 ^^^ (v >>> 10)

/-- `bsig0(v)` (R150). -/
def bsig0 (v : U32) : U32 := rotr32 v 2 ^^^ rotr32 v 13 ^^^ rotr32 v 22

/-- `bsig1(v)` (R150). -/
def bsig1 (v : U32) : U32 := rotr32 v 6 ^^^ rotr32 v 11 ^^^ rotr32 v 25

/-- `ch(v, u, s)` (R150). -/
def ch (v u s : U32) : U32 := (v &&& u) ^^^ (~~~v &&& s)

/-- `maj(v, u, s)` (R150). -/
def maj (v u s : U32) : U32 := (v &&& u) ^^^ (v &&& s) ^^^ (u &&& s)

/-- The schedule words `w[0 .. 16+n-1]` (R191). -/
def schedule (m : Vector U32 16) : Nat → List U32
  | 0 => m.toList
  | n + 1 =>
    let w := schedule m n
    w ++ [ssig1 (w.getD (n + 14) 0) + w.getD (n + 9) 0 + ssig0 (w.getD (n + 1) 0) + w.getD n 0]

/-- One round (R193), from `v = (a, .., h)`, with the round's `K[t]` and `w[t]`. -/
def round (k w : U32) (v : Vector U32 8) : Vector U32 8 :=
  let t1 := v[7] + bsig1 v[4] + ch v[4] v[5] v[6] + k + w
  let t2 := bsig0 v[0] + maj v[0] v[1] v[2]
  #v[t1 + t2, v[0], v[1], v[2], v[3] + t1, v[4], v[5], v[6]]

/-- The working variables after the first n rounds (R193). -/
def rounds (w : List U32) (h : Vector U32 8) : Nat → Vector U32 8
  | 0 => h
  | n + 1 => round (K (Fin.ofNat 64 n)) (w.getD n 0) (rounds w h n)

/-- The compression function `C(h, m)` (R196): 64 rounds and the feed-forward. -/
def compress (h : Vector U32 8) (m : Vector U32 16) : Vector U32 8 :=
  let v := rounds (schedule m 48) h 64
  Vector.ofFn fun k => h[k] + v[k]

/-- The initial hash value as a vector (R221). -/
def iv : Vector U32 8 := Vector.ofFn IV

/-- `h_N` for the blocks in order (R224). -/
def hash (blocks : List (Vector U32 16)) : Vector U32 8 := blocks.foldl compress iv

/-- The number of zero bits of padding: the least z with `L + 1 + z = 448` modulo 512 (R57). -/
def padZeros (len : Nat) : Nat := (959 - len % 512) % 512

/-- The padded message (R57): one bit 1, z bits 0, the length as 64 bits, most significant first. -/
def pad (msg : List Bool) : List Bool :=
  msg ++ [true] ++ List.replicate (padZeros msg.length) false ++
    List.ofFn fun i : Fin 64 => (BitVec.ofNat 64 msg.length).getLsbD (63 - i)

/-- The plain 32-bit value of bits `32*k .. 32*k+31` of a bit sequence, first bit most significant (R52, R53). -/
def wordAt (bits : List Bool) (k : Nat) : U32 :=
  BitVec.ofNat 32 (List.ofFn fun i : Fin 32 => (bits.getD (32 * k + i) false).toNat * 2 ^ (31 - i.val)).sum

/-- Block b of a bit sequence (R53). -/
def blockAt (bits : List Bool) (b : Nat) : Vector U32 16 := Vector.ofFn fun k => wordAt bits (16 * b + k)

/-- The blocks of a padded message (R53). -/
def blocks (bits : List Bool) : List (Vector U32 16) := (List.range (bits.length / 512)).map (blockAt bits)

/-- SHA-256 of a message given as bits (R57, R53, R224). -/
def sha256 (msg : List Bool) : Vector U32 8 := hash (blocks (pad msg))

/-- The bits of message bytes, each byte most significant bit first (R57). -/
def bitsOfBytes (bytes : List (BitVec 8)) : List Bool :=
  bytes.flatMap fun b => List.ofFn fun i : Fin 8 => b.getLsbD (7 - i)

end Sys2Proof.Machine.Plain
end

