-- ==== Sys2Proof/Machine/Workers.lean ====
section
/-!
DEFINITION. A batch at the granularity of its workers (R115 to R117, R281): the other faithful choice of R117,
in which the lanes are evaluated in any order and any interleaving. The step of the machine takes a batch as one
atomic step; the two agree (R69, R117).
-/

namespace Sys2Proof.Machine

/-- The lanes of worker j when the 32 lanes are cut into n equal contiguous chunks (R7, R115). -/
def chunkLanes (n j : Nat) : List (Fin 32) := (List.finRange 32).filter fun i => i.val / (32 / n) = j

/-- The output slots of a batch in flight, each delivered or not (R32). -/
abbrev Slots := Vector (Option Ct) 32

/-- No lane evaluated yet. -/
def Slots.none : Slots := Vector.replicate 32 Option.none

/-- One lane's gate, whose result goes to the lane's own slot (R113, R116). -/
def laneStep (G : Capability) (q : BatchOp) (slots : Slots) (i : Fin 32) : Slots :=
  slots.set i.val (some (q.lane G i))

/-- The lanes evaluated in the given order. -/
def runLanes (G : Capability) (q : BatchOp) (order : List (Fin 32)) : Slots :=
  order.foldl (laneStep G q) Slots.none

/-- A schedule of n workers: an interleaving in which each worker evaluates each lane of its own chunk once,
in any order (R115, R117(b)). -/
def IsSchedule (n : Nat) (order : List (Fin 32)) : Prop :=
  ∀ j, j < n → (order.filter fun i => i.val / (32 / n) = j).Perm (chunkLanes n j)

/-- The join (R113): the word, once every slot has been delivered. -/
def join (slots : Slots) : Option Word :=
  if h : ∀ i : Fin 32, (slots[i]).isSome then some (Vector.ofFn fun i => (slots[i]).get (h i)) else Option.none

end Sys2Proof.Machine
end

