-- ==== Sys2Proof/Safety.lean ====
section
/-!
DEFINITION. What counts as a safe run and the terms claims are stated in: the premise that no failure is drawn (R15),
the state after a number of calls, storage that is present, and the invariant of the machine.
-/

namespace Sys2Proof.Machine

/-- No `ctx_error` among the next `calls` capability calls and no failed worker in the next `batches` batches:
the premise of every claim about a completed command (R15). -/
def State.NoFailure (s : State) (calls batches : Nat) : Prop :=
  (s.env.ctxDraws.take calls).any id = false ∧
    (s.env.workerDraws.take (Config.NCHUNK * batches)).any id = false

/-- The state once `calls` capability calls and `batches` batches have had their draws. -/
def State.afterCalls (s : State) (calls batches : Nat) : State :=
  (s.dropCtx calls).dropWorkers (Config.NCHUNK * batches)

/-- `t` is where a command completes whose work ends in `u`: STATE is IDLE, PHASE is NONE, and all else is as the work
left it. The sequencer's hidden counters, which no port shows, are not spoken of (R31, R34). -/
def State.Completes (u t : State) : Prop :=
  t = { u with status := { u.status with state := .idle }, seq := t.seq } ∧ t.seq.phase = .none

/-- `HS` holds these eight words. -/
def State.HoldsHS (s : State) (h : Vector Word 8) : Prop := s.hs = filled h

/-- `BLK` holds these sixteen words. -/
def State.HoldsBLK (s : State) (b : Vector Word 16) : Prop := s.blk = filled b

/-- Some word of `HS` is `empty`. -/
def State.LacksHS (s : State) : Prop := ∃ k : Fin 8, s.hs[k] = none

/-- Some word of `BLK` is `empty`. -/
def State.LacksBLK (s : State) : Prop := ∃ k : Fin 16, s.blk[k] = none

/-- A group of storage elements is all `empty` or all present (R27, R28). -/
def AllOrNone {n : Nat} (xs : Vector (Option Word) n) : Prop :=
  (∀ k : Fin n, xs[k] = none) ∨ (∀ k : Fin n, (xs[k]).isSome)

/-- What a held command is (R61, R284): LDW or LDBLK before its frame, or HASH in phase LOAD with blocks left. -/
def State.Held (s : State) : Prop :=
  (∃ rd, decode s.seq.cmd = some (.ldw rd) ∧ s.seq = { Seq.idle with cmd := s.seq.cmd }) ∨
  (decode s.seq.cmd = some .ldblk ∧ s.seq = { Seq.idle with cmd := s.seq.cmd }) ∨
  (∃ imm, decode s.seq.cmd = some (.hash imm) ∧ s.seq.phase = .load ∧ s.seq.blkLeft ≠ 0 ∧
    s.seq.blkLeft ≤ imm ∧ ∀ k : Fin 8, (s.hs[k]).isSome)

/-- t is where a HASH waits in phase LOAD that has taken these blocks since s (R61, R223): still BUSY on the same word, HS the
words n, BLK the last block taken, scratch `empty` once a block has run, no frame left. -/
structure HashWaiting (s t : State) (blocks : List (Vector Word 16)) (n : Vector Word 8) : Prop where
  status : t.status = s.status
  fcmd : t.fcmd = s.fcmd
  cmd : t.seq.cmd = s.seq.cmd
  phase : t.seq.phase = .load
  hs : t.HoldsHS n
  blk : ∀ b ∈ blocks.getLast?, t.HoldsBLK b
  noBlk : blocks = [] → t.blk = s.blk
  scratch : t.scratch = if blocks = [] then s.scratch else Scratch.empty
  r : t.r = s.r
  dinq : t.dinq = []

/-- The invariant of the machine (R27 to R29, R31, R33, R35, R39, R61), with what assumptions 4 and 8 make of SEQ and BUSY. -/
structure State.Inv (s : State) : Prop where
  /-- FAULT is non-zero exactly when STATE is FATAL (R33). -/
  fault_iff_fatal : s.status.fault.isSome = true ↔ s.status.state = .fatal
  /-- FCMD is 0 while FAULT is 0 (R35). -/
  fcmd_zero : s.status.fault = none → s.fcmd = 0
  /-- The scratch storage is `empty` between commands and in a wait (R29). -/
  scratch_empty : s.status.state ≠ .fatal → s.scratch = Scratch.empty
  /-- The sequencer is idle in IDLE: PHASE is NONE (R31), and the other fields are 0, which R39 says of reset and
  which is the model's choice after a command (assumption 8). -/
  seq_idle : s.status.state = .idle → s.seq = Seq.idle
  /-- In BUSY a command is held (R61): that BUSY is seen between steps in no other case, the model's choice of one step a
  command makes so (assumption 4), and so is that T, BLKLEFT and CI are 0 while LDW or LDBLK waits (assumption 8). -/
  busy_held : s.status.state = .busy → s.Held
  /-- `HS` is all `empty` or all present (R27). -/
  hs_group : AllOrNone s.hs
  /-- `BLK` is all `empty` or all present (R28). -/
  blk_group : AllOrNone s.blk

/-- A safe state: no fault has been raised (R266). -/
def State.Safe (s : State) : Prop := s.status.state ≠ .fatal

/-- The host's commands one after another, each handed over in IDLE and completed before the next (R59, R68);
none when one of them faults or waits. -/
def runCommands : List Instr → State → Option State
  | [], s => some s
  | i :: is, s =>
    match exec i (s.accept (encode i)) with
    | .next t => if t.status.state = .idle then runCommands is t else none
    | .fault _ => none
    | .refused _ => none

/-- `HINIT; (LDBLK; COMPRESS) repeated n times; RDH` (R223, R311). -/
def explicitHash (n : Nat) : List Instr :=
  [.hinit] ++ (List.replicate n [.ldblk, .compress]).flatten ++ [.rdh]

end Sys2Proof.Machine

namespace Sys2Proof

/-! What an instruction reads, writes and calls, as the tables of the spec give it. -/

/-- The destination register, for the 14 commands that have one (R26). -/
def Instr.dest : Instr → Option Reg
  | .xorw rd _ _ => some rd
  | .andw rd _ _ => some rd
  | .notw rd _ => some rd
  | .trivw rd _ => some rd
  | .rotr rd _ _ => some rd
  | .shr rd _ _ => some rd
  | .ssig0 rd _ => some rd
  | .ssig1 rd _ => some rd
  | .bsig0 rd _ => some rd
  | .bsig1 rd _ => some rd
  | .ch rd _ _ _ => some rd
  | .maj rd _ _ _ => some rd
  | .add rd _ _ => some rd
  | .compress => none
  | .hinit => none
  | .hash _ => none
  | .ldw rd => some rd
  | .stw _ => none
  | .ldblk => none
  | .rdh => none

/-- The same command with another destination register; a command without one is unchanged. -/
def Instr.withDest (rd : Reg) : Instr → Instr
  | .xorw _ rs1 rs2 => .xorw rd rs1 rs2
  | .andw _ rs1 rs2 => .andw rd rs1 rs2
  | .notw _ rs1 => .notw rd rs1
  | .trivw _ imm => .trivw rd imm
  | .rotr _ rs1 n => .rotr rd rs1 n
  | .shr _ rs1 n => .shr rd rs1 n
  | .ssig0 _ rs1 => .ssig0 rd rs1
  | .ssig1 _ rs1 => .ssig1 rd rs1
  | .bsig0 _ rs1 => .bsig0 rd rs1
  | .bsig1 _ rs1 => .bsig1 rd rs1
  | .ch _ rs1 rs2 rs3 => .ch rd rs1 rs2 rs3
  | .maj _ rs1 rs2 rs3 => .maj rd rs1 rs2 rs3
  | .add _ rs1 rs2 => .add rd rs1 rs2
  | .compress => .compress
  | .hinit => .hinit
  | .hash imm => .hash imm
  | .ldw _ => .ldw rd
  | .stw rs1 => .stw rs1
  | .ldblk => .ldblk
  | .rdh => .rdh

/-- The register operands a command reads (R26). -/
def Instr.sources : Instr → List Reg
  | .xorw _ rs1 rs2 => [rs1, rs2]
  | .andw _ rs1 rs2 => [rs1, rs2]
  | .notw _ rs1 => [rs1]
  | .trivw _ _ => []
  | .rotr _ rs1 _ => [rs1]
  | .shr _ rs1 _ => [rs1]
  | .ssig0 _ rs1 => [rs1]
  | .ssig1 _ rs1 => [rs1]
  | .bsig0 _ rs1 => [rs1]
  | .bsig1 _ rs1 => [rs1]
  | .ch _ rs1 rs2 rs3 => [rs1, rs2, rs3]
  | .maj _ rs1 rs2 rs3 => [rs1, rs2, rs3]
  | .add _ rs1 rs2 => [rs1, rs2]
  | .compress => []
  | .hinit => []
  | .hash _ => []
  | .ldw _ => []
  | .stw rs1 => [rs1]
  | .ldblk => []
  | .rdh => []

/-- Capability calls of a whole run of a command: gates of batches, single gates and trivial encryptions (R331). -/
def Instr.calls : Instr → Nat
  | .xorw _ _ _ => 32
  | .andw _ _ _ => 32
  | .notw _ _ => 32
  | .trivw _ _ => 32
  | .rotr _ _ _ => 0
  | .shr _ _ n => n.toNat
  | .ssig0 _ _ => 64 + 3
  | .ssig1 _ _ => 64 + 10
  | .bsig0 _ _ => 64
  | .bsig1 _ _ => 64
  | .ch _ _ _ _ => 128
  | .maj _ _ _ _ => 160
  | .add _ _ _ => 158 + 1
  | .compress => 127568 + 3272
  | .hinit => 256
  | .hash imm => 256 + (127568 + 3272) * imm.toNat
  | .ldw _ => 0
  | .stw _ => 0
  | .ldblk => 0
  | .rdh => 0

/-- Batches of a whole run of a command (R331). -/
def Instr.batches : Instr → Nat
  | .xorw _ _ _ => 1
  | .andw _ _ _ => 1
  | .notw _ _ => 1
  | .trivw _ _ => 0
  | .rotr _ _ _ => 0
  | .shr _ _ _ => 0
  | .ssig0 _ _ => 2
  | .ssig1 _ _ => 2
  | .bsig0 _ _ => 2
  | .bsig1 _ _ => 2
  | .ch _ _ _ _ => 4
  | .maj _ _ _ _ => 5
  | .add _ _ _ => 3
  | .compress => 2824
  | .hinit => 0
  | .hash imm => 2824 * imm.toNat
  | .ldw _ => 0
  | .stw _ => 0
  | .ldblk => 0
  | .rdh => 0

/-! The micro-steps that reach the capability, in the textual order of the pseudocode (R268, R333). -/

/-- A micro-step that reaches port CAP: one call of the sequencer's own, `Gate` or `Triv`, or a whole batch. -/
inductive CapStep where
  | call
  | batch
  deriving DecidableEq, Repr

/-- `ShR(x, n)` (R142): n trivial zeros. -/
abbrev CapStep.shR (n : Nat) : List CapStep := List.replicate n .call

/-- `TrivW` (R114). -/
abbrev CapStep.trivW : List CapStep := List.replicate 32 .call

/-- `SSig0` (R149): its shift by 3 comes between its batches. -/
abbrev CapStep.ssig0 : List CapStep := [.batch] ++ shR 3 ++ [.batch]

/-- `SSig1` (R149): its shift by 10 comes between its batches. -/
abbrev CapStep.ssig1 : List CapStep := [.batch] ++ shR 10 ++ [.batch]

/-- `BSig0` and `BSig1` (R149). -/
abbrev CapStep.bsig : List CapStep := [.batch, .batch]

/-- `Ch` (R149). -/
abbrev CapStep.ch : List CapStep := [.batch, .batch, .batch, .batch]

/-- `Maj` (R149). -/
abbrev CapStep.maj : List CapStep := [.batch, .batch, .batch, .batch, .batch]

/-- `Add` by the reference netlist (R172, assumption 17): two batches, the carry-in, 31 pairs of gates, the sum. -/
abbrev CapStep.add : List CapStep := [.batch, .batch, .call] ++ List.replicate 62 .call ++ [.batch]

/-- One iteration of phase SCHED (R191). -/
abbrev CapStep.scheduleStep : List CapStep := ssig1 ++ add ++ ssig0 ++ add ++ add

/-- One round (R193): the five terms of T1, then T2, then the two sums that make e and a. -/
abbrev CapStep.roundStep : List CapStep :=
  bsig ++ add ++ ch ++ add ++ trivW ++ add ++ add ++ bsig ++ maj ++ add ++ add ++ add

/-- COMPRESS (R195): its three phases. -/
def CapStep.compress : List CapStep :=
  (List.replicate 48 scheduleStep).flatten ++ (List.replicate 64 roundStep).flatten ++ (List.replicate 8 add).flatten

/-- HINIT (R222). -/
def CapStep.hinit : List CapStep := (List.replicate 8 trivW).flatten

/-- n blocks of HASH (R223). -/
def CapStep.blocks (n : Nat) : List CapStep := (List.replicate n compress).flatten

/-- The micro-steps of a whole run of a command that reach the capability. -/
def Instr.capSteps : Instr → List CapStep
  | .xorw _ _ _ => [.batch]
  | .andw _ _ _ => [.batch]
  | .notw _ _ => [.batch]
  | .trivw _ _ => CapStep.trivW
  | .rotr _ _ _ => []
  | .shr _ _ n => CapStep.shR n.toNat
  | .ssig0 _ _ => CapStep.ssig0
  | .ssig1 _ _ => CapStep.ssig1
  | .bsig0 _ _ => CapStep.bsig
  | .bsig1 _ _ => CapStep.bsig
  | .ch _ _ _ _ => CapStep.ch
  | .maj _ _ _ _ => CapStep.maj
  | .add _ _ _ => CapStep.add
  | .compress => CapStep.compress
  | .hinit => CapStep.hinit
  | .hash imm => CapStep.hinit ++ CapStep.blocks imm.toNat
  | .ldw _ => []
  | .stw _ => []
  | .ldblk => []
  | .rdh => []

/-- Which commands may raise each fault (R261); `F_ILLEGAL` is raised for a word, before there is a command. -/
def Instr.mayRaise (i : Instr) : Machine.FaultCode → Prop
  | .fCtx => i.calls ≠ 0
  | .fShape => (∀ rd imm, i ≠ .trivw rd imm) ∧ i ≠ .hinit
  | .fWorker => i.batches ≠ 0 ∨ (∃ imm, i = .hash imm)
  | .fIllegal => False

end Sys2Proof

namespace Sys2Proof.Machine

/-! Which fault is reported (R268, R333). -/

/-- The fault that the draws decide for a sequence of micro-steps: that of the first step, in order, with a failure;
for a batch `F_CTX` if one of its 32 calls failed, otherwise `F_WORKER` if one of its 8 workers did. -/
def firstFault : List CapStep → (ctx workers : List Bool) → Option FaultCode
  | [], _, _ => none
  | .call :: steps, ctx, workers =>
    if true ∈ ctx.take 1 then some .fCtx else firstFault steps (ctx.drop 1) workers
  | .batch :: steps, ctx, workers =>
    if true ∈ ctx.take 32 then some .fCtx
    else if true ∈ workers.take 8 then some .fWorker
    else firstFault steps (ctx.drop 32) (workers.drop 8)

/-- The fault the draws to come decide for these micro-steps, if any of them fails. -/
def State.firstFault (s : State) (steps : List CapStep) : Option FaultCode :=
  Machine.firstFault steps s.env.ctxDraws s.env.workerDraws

/-- The draws of capability calls used on the way from s to t. -/
def State.ctxUsed (s t : State) : List Bool := s.env.ctxDraws.take (s.env.ctxDraws.length - t.env.ctxDraws.length)

/-- The draws of workers used on the way from s to t. -/
def State.workersUsed (s t : State) : List Bool :=
  s.env.workerDraws.take (s.env.workerDraws.length - t.env.workerDraws.length)

/-! States that differ in ciphertexts only (R12). -/

/-- Two groups of storage elements are `empty` in the same places. -/
def SamePlaces {n : Nat} (xs ys : Vector (Option Word) n) : Prop := ∀ k : Fin n, (xs[k]).isSome = (ys[k]).isSome

/-- A frame without its ciphertexts: its kind and its lengths. -/
def Frame.outline : Frame → Bool × List Nat
  | .word cells => (false, [cells.length])
  | .block words => (true, words.map List.length)

/-- A host act without its ciphertexts. -/
inductive HostOutline where
  | command (cw : CmdWord)
  | frame (outline : Bool × List Nat)
  | reset
  | resetDuring (moment : Moment)
  deriving DecidableEq, Repr

/-- What a host act shows to someone who looks at no ciphertext. -/
def HostEvent.outline : HostEvent → HostOutline
  | .command cw => .command cw
  | .frame f => .frame f.outline
  | .reset => .reset
  | .resetDuring k => .resetDuring k

/-- Two states that are the same but for the ciphertexts they hold: everything a party without the key can tell
apart without looking at a ciphertext agrees. -/
structure State.Alike (s t : State) : Prop where
  r : SamePlaces s.r t.r
  hs : SamePlaces s.hs t.hs
  blk : SamePlaces s.blk t.blk
  w : SamePlaces s.scratch.w t.scratch.w
  v : SamePlaces s.scratch.v t.scratch.v
  t1 : s.scratch.t1.isSome = t.scratch.t1.isSome
  t2 : s.scratch.t2.isSome = t.scratch.t2.isSome
  ap : s.scratch.ap.isSome = t.scratch.ap.isSome
  ag : s.scratch.ag.isSome = t.scratch.ag.isSome
  ac : s.scratch.ac.isSome = t.scratch.ac.isSome
  status : s.status = t.status
  fcmd : s.fcmd = t.fcmd
  seq : s.seq = t.seq
  dinq : s.dinq.map Frame.outline = t.dinq.map Frame.outline
  host : s.env.host.map HostEvent.outline = t.env.host.map HostEvent.outline
  dout : s.env.dout.length = t.env.dout.length
  ctxDraws : s.env.ctxDraws = t.env.ctxDraws
  workerDraws : s.env.workerDraws = t.env.workerDraws

end Sys2Proof.Machine
end

