-- ==== Sys2Proof/Certificates/Slice0/Obligations.lean ====
section
/-!
DEFINITION. What is to be proved of the model, one statement each.
A value law speaks of every key `dec` that the capability fits (R14), and of no other.
-/

open Sys2Proof Sys2Proof.Machine

/-! Reset, acceptance, stepping. -/

/-- R39: what the machine holds after reset, with the fixed tables (R36, R192, R221; assumption 10). -/
def Obligations.ResetValues : Prop :=
  (∀ k : Fin 16, State.reset.r[k] = none) ∧ (∀ k : Fin 8, State.reset.hs[k] = none) ∧
  (∀ k : Fin 16, State.reset.blk[k] = none) ∧ (∀ t : Fin 64, State.reset.scratch.w[t] = none) ∧
  (∀ k : Fin 8, State.reset.scratch.v[k] = none) ∧
  State.reset.scratch.t1 = none ∧ State.reset.scratch.t2 = none ∧ State.reset.scratch.ap = none ∧
  State.reset.scratch.ag = none ∧ State.reset.scratch.ac = none ∧
  State.reset.status.state = .idle ∧ State.reset.status.fault = none ∧ State.reset.fcmd = 0 ∧
  State.reset.seq.cmd = 0 ∧ State.reset.seq.phase = .none ∧ State.reset.seq.t = 0 ∧
  State.reset.seq.blkLeft = 0 ∧ State.reset.seq.ci = 0 ∧ State.reset.dinq = [] ∧
  State.reset.statusPort = (0, 0, 0x00200408) ∧
  List.ofFn IV = [0x6a09e667, 0xbb67ae85, 0x3c6ef372, 0xa54ff53a, 0x510e527f, 0x9b05688c, 0x1f83d9ab, 0x5be0cd19] ∧
  (List.ofFn K).take 32 =
    [0x428a2f98, 0x71374491, 0xb5c0fbcf, 0xe9b5dba5, 0x3956c25b, 0x59f111f1, 0x923f82a4, 0xab1c5ed5] ++
    [0xd807aa98, 0x12835b01, 0x243185be, 0x550c7dc3, 0x72be5d74, 0x80deb1fe, 0x9bdc06a7, 0xc19bf174] ++
    [0xe49b69c1, 0xefbe4786, 0x0fc19dc6, 0x240ca1cc, 0x2de92c6f, 0x4a7484aa, 0x5cb0a9dc, 0x76f988da] ++
    [0x983e5152, 0xa831c66d, 0xb00327c8, 0xbf597fc7, 0xc6e00bf3, 0xd5a79147, 0x06ca6351, 0x14292967] ∧
  (List.ofFn K).drop 32 =
    [0x27b70a85, 0x2e1b2138, 0x4d2c6dfc, 0x53380d13, 0x650a7354, 0x766a0abb, 0x81c2c92e, 0x92722c85] ++
    [0xa2bfe8a1, 0xa81a664b, 0xc24b8b70, 0xc76c51a3, 0xd192e819, 0xd6990624, 0xf40e3585, 0x106aa070] ++
    [0x19a4c116, 0x1e376c08, 0x2748774c, 0x34b0bcb5, 0x391c0cb3, 0x4ed8aa4a, 0x5b9cca4f, 0x682e6ff3] ++
    [0x748f82ee, 0x78a5636f, 0x84c87814, 0x8cc70208, 0x90befffa, 0xa4506ceb, 0xbef9a3f7, 0xc67178f2]

/-- The invariant holds after reset (R27, R28, R29, R33, R35, R39), the clauses that assumptions 4 and 8 add to it included. -/
def Obligations.ResetMeetsInvariant : Prop := State.reset.Inv

/-- R300: the reset event is accepted in every state, also in the middle of a command's work, and has the same effect in each.
How a moment in the middle is named is the model's choice (assumption 6); the draws the work has used by then are not given
again (R302), so those to come are the last of those there were.
The form left out, a plain reset as the next act in BUSY with a frame in DINQ, is delivered after the work of that step,
since the work comes first in a step (assumption 5). -/
def Obligations.ResetEventEffect : Prop :=
  ∀ (s : State) (es : List HostEvent),
    (s.env.host = .reset :: es ∧ (s.status.state = .busy → s.dinq = []) ∨
      (∃ m, s.env.host = .resetDuring m :: es)) →
    ∃ t, step s = .next t ∧
      (∀ k : Fin 16, t.r[k] = none) ∧ (∀ k : Fin 8, t.hs[k] = none) ∧ (∀ k : Fin 16, t.blk[k] = none) ∧
      (∀ k : Fin 64, t.scratch.w[k] = none) ∧ (∀ k : Fin 8, t.scratch.v[k] = none) ∧
      t.scratch.t1 = none ∧ t.scratch.t2 = none ∧ t.scratch.ap = none ∧ t.scratch.ag = none ∧ t.scratch.ac = none ∧
      t.status.state = .idle ∧ t.status.fault = none ∧ t.fcmd = 0 ∧
      t.seq.cmd = 0 ∧ t.seq.phase = .none ∧ t.seq.t = 0 ∧ t.seq.blkLeft = 0 ∧ t.seq.ci = 0 ∧ t.dinq = [] ∧
      t.env.host = es ∧ s.env.dout <+: t.env.dout ∧
      t.env.ctxDraws <:+ s.env.ctxDraws ∧ t.env.workerDraws <:+ s.env.workerDraws ∧
      (s.env.host = .reset :: es → t.env = { s.env with host := es }) ∧ t.statusPort = (0, 0, 0x00200408)

/-- R301, R302: a reset in the middle of a command leaves of its work only the first frames it had emitted, at most
`m.emitted` of them, and the draws it had used stay used: all of them once a frame is out, and else at most `m.calls` and
`m.workers` of them (assumption 6 says how the moment m is named). The command is a new one or one that goes on after a
wait. A word that does not decode, struck by the reset before or after its fault, leaves the reset state, with no frame and
no draw used (as a held word it is reached by no run, assumption 18). -/
def Obligations.ResetAbandonsCommand : Prop :=
  (∀ (s s' u : State) (cw : CmdWord) (es : List HostEvent) (m : Moment) (i : Instr), decode cw = some i →
    (s.status.state = .idle ∧ s.env.host = .command cw :: .resetDuring m :: es ∧
        s' = (s.setHost (.resetDuring m :: es)).accept cw ∨
      s.status.state = .busy ∧ s.seq.cmd = cw ∧ s.dinq ≠ [] ∧ s.env.host = .resetDuring m :: es ∧ s' = s) →
    exec i s' = .next u →
    ∃ (frames : List Word) (ctx workers : List Bool),
      frames = (u.env.dout.drop s.env.dout.length).take m.emitted ∧
      (frames = [] → ctx = s.env.ctxDraws.drop (min m.calls (s.ctxUsed u).length) ∧
        workers = s.env.workerDraws.drop (min m.workers (s.workersUsed u).length)) ∧
      (frames ≠ [] → ctx = u.env.ctxDraws ∧ workers = u.env.workerDraws) ∧
      step s = .next { State.reset with env := ⟨es, s.env.dout ++ frames, ctx, workers⟩ }) ∧
  (∀ (s : State) (cw : CmdWord) (es : List HostEvent) (m : Moment), decode cw = none →
    (s.status.state = .idle ∧ s.env.host = .command cw :: .resetDuring m :: es ∨
      s.status.state = .busy ∧ s.seq.cmd = cw ∧ s.dinq ≠ [] ∧ s.env.host = .resetDuring m :: es) →
    step s = .next { State.reset with env := ⟨es, s.env.dout, s.env.ctxDraws, s.env.workerDraws⟩ })

/-- R59, R87: in IDLE a command word that decodes is accepted, BUSY is shown, and the step is the instruction's
effect: one command is one step (assumption 4), from the idle sequencer record (assumption 8). -/
def Obligations.StepRunsAcceptedCommand : Prop :=
  ∀ (s : State) (cw : CmdWord) (es : List HostEvent) (i : Instr), s.status.state = .idle →
    s.env.host = .command cw :: es → (∀ e ∈ es.head?, e.strikes = false) → decode cw = some i →
    step s = exec i ((s.setHost es).accept cw) ∧
    ((s.setHost es).accept cw).status = ⟨.busy, s.status.fault⟩ ∧
    ((s.setHost es).accept cw).seq = ⟨cw, .none, 0, 0, 0⟩ ∧
    ((s.setHost es).accept cw).env = { s.env with host := es } ∧
    ((s.setHost es).accept cw).r = s.r ∧ ((s.setHost es).accept cw).hs = s.hs ∧
    ((s.setHost es).accept cw).blk = s.blk ∧ ((s.setHost es).accept cw).scratch = s.scratch ∧
    ((s.setHost es).accept cw).dinq = s.dinq ∧ ((s.setHost es).accept cw).fcmd = s.fcmd

/-- The word `withFetchWord` places is the one the next step runs (assumption 7), for every well-formed instruction. -/
def Obligations.OfferedWordRuns : Prop :=
  ∀ (s : State) (i : Instr), i.wellFormed = true →
    step (s.withFetchWord 64 (encode i).toNat) =
      exec i (((s.offerCommand (encode i)).setHost (s.env.host.dropWhile HostEvent.strikes)).accept (encode i))

/-- R265: an illegal word ends in FATAL with F_ILLEGAL and with the word in FCMD; nothing is read, called or stored. -/
def Obligations.IllegalWordFaults : Prop :=
  ∀ (s : State) (cw : CmdWord) (es : List HostEvent), s.status.state = .idle →
    s.env.host = .command cw :: es → (∀ e ∈ es.head?, e.strikes = false) → decode cw = none →
    ∃ t, step s = .next t ∧ t.status = ⟨.fatal, some .fIllegal⟩ ∧ t.fcmd = cw ∧
      t.r = s.r ∧ t.hs = s.hs ∧ t.blk = s.blk ∧ t.scratch = s.scratch ∧ t.dinq = s.dinq ∧
      t.env = { s.env with host := es }

/-- R61, R284: a held command goes on as soon as a frame is there, and else waits in BUSY, unchanged (assumptions 4, 11). -/
def Obligations.HeldCommandResumes : Prop :=
  ∀ (s : State), s.status.state = .busy →
    (∀ i, decode s.seq.cmd = some i → s.dinq ≠ [] → (∀ e ∈ s.env.host.head?, e.strikes = false) → step s = exec i s) ∧
    (s.dinq = [] → s.env.host = [] → step s = .next s)

/-- R60: a frame the host offers joins the end of DINQ, in IDLE, in FATAL and in a wait. -/
def Obligations.FramesWaitInOrder : Prop :=
  ∀ (s : State) (f : Frame) (es : List HostEvent), s.env.host = .frame f :: es →
    (s.status.state = .busy → s.dinq = []) →
    step s = .next { s with dinq := s.dinq ++ [f], env := { s.env with host := es } }

/-- R59: in a wait and in FATAL a command word is not accepted; nothing but the host's list changes (assumption 5). -/
def Obligations.CommandNotAccepted : Prop :=
  ∀ (s : State) (cw : CmdWord) (es : List HostEvent), s.env.host = .command cw :: es →
    (s.status.state = .fatal ∨ s.status.state = .busy ∧ s.dinq = []) →
    step s = .next { s with env := { s.env with host := es } }

/-- No instruction and no step ends the machine: every end of the spec is a state. -/
def Obligations.EveryStepAnswersNext : Prop :=
  (∀ (i : Instr) (s : State), ∃ t, exec i s = .next t) ∧ ∀ s : State, ∃ t, step s = .next t

/-! STATUS, FCMD, CFG and the fatal state. -/

/-- R33: the STATUS word, field by field, in every state of the invariant. -/
def Obligations.StatusWordFields : Prop :=
  ∀ s : State, s.Inv →
    (s.statusPort.1.extractLsb' 0 2).toNat = (match s.status.state with | .idle => 0 | .busy => 1 | .fatal => 2) ∧
    s.statusPort.1.extractLsb' 2 2 = 0 ∧
    (s.statusPort.1.extractLsb' 4 3).toNat = (match s.status.fault with
      | none => 0 | some .fCtx => 1 | some .fShape => 2 | some .fWorker => 3 | some .fIllegal => 4) ∧
    s.statusPort.1.extractLsb' 7 25 = 0 ∧
    (s.statusPort.1.extractLsb' 4 3 ≠ 0 ↔ s.status.state = .fatal)

/-- R36: the CFG word, in every state. -/
def Obligations.CfgWord : Prop :=
  ∀ s : State, s.statusPort.2.2 = 0x00200408 ∧ (s.statusPort.2.2.extractLsb' 0 6).toNat = Config.NCHUNK ∧
    (s.statusPort.2.2.extractLsb' 8 6).toNat = Config.CHUNKW ∧ (s.statusPort.2.2.extractLsb' 16 6).toNat = Config.LANES

/-- R35: FCMD is 0 while FAULT is 0; a fault puts the word in execution there, and it stays until reset. -/
def Obligations.FcmdRecordsWord : Prop :=
  (∀ s : State, s.Inv → s.status.fault = none → s.statusPort.2.1 = 0) ∧
  (∀ s t : State, step s = .next t → s.status.state ≠ .fatal → t.status.state = .fatal →
    (s.status.state = .idle ∧ ∃ es, s.env.host = .command t.fcmd :: es) ∨
    (s.status.state = .busy ∧ t.fcmd = s.seq.cmd)) ∧
  (∀ s t : State, step s = .next t → s.status.state = .fatal →
    t.fcmd = s.fcmd ∧ t.status = s.status ∨
    (∃ e es, s.env.host = e :: es ∧ (e = .reset ∨ ∃ k, e = .resetDuring k)) ∧ t.status.state = .idle ∧ t.fcmd = 0)

/-- R269, R303: FATAL is left only by the reset event; until then no command runs and no storage changes. -/
def Obligations.FatalLeftOnlyByReset : Prop :=
  ∀ s t : State, s.status.state = .fatal → step s = .next t →
    (t.status = s.status ∧ t.fcmd = s.fcmd ∧ t.r = s.r ∧ t.hs = s.hs ∧ t.blk = s.blk ∧ t.scratch = s.scratch ∧
      t.seq = s.seq ∧ t.env.dout = s.env.dout ∧ t.env.ctxDraws = s.env.ctxDraws ∧
      t.env.workerDraws = s.env.workerDraws) ∨
    (∃ e es, s.env.host = e :: es ∧ (e = .reset ∨ ∃ k, e = .resetDuring k) ∧
      t = { State.reset with env := { s.env with host := es } })

/-- R34: the transitions of STATE a step shows; a command that ends within its step goes through BUSY inside it
(assumption 4). -/
def Obligations.StateTransitions : Prop :=
  ∀ s t : State, step s = .next t →
    (s.status.state = .idle → t.status.state ≠ .idle → ∃ cw es, s.env.host = .command cw :: es) ∧
    (s.status.state = .busy → t.status.state ≠ .busy →
      s.dinq ≠ [] ∨ ∃ e es, s.env.host = e :: es ∧ (e = .reset ∨ ∃ k, e = .resetDuring k) ∧ t.status.state = .idle) ∧
    (s.status.state = .fatal → t.status.state ≠ .fatal →
      (∃ e es, s.env.host = e :: es ∧ (e = .reset ∨ ∃ k, e = .resetDuring k)) ∧ t.status.state = .idle)

/-- R266: what a fault does, for every command: FAULT, FCMD and STATE are written, and no register, no frame. -/
def Obligations.FaultWritesNothing : Prop :=
  ∀ (i : Instr) (s t : State), s.status.state = .busy → exec i s = .next t → t.status.state = .fatal →
    (∃ c, t.status.fault = some c ∧ i.mayRaise c) ∧ t.fcmd = s.seq.cmd ∧ t.r = s.r ∧ t.env.dout = s.env.dout ∧
    t.env.host = s.env.host ∧
    ((∀ imm, i ≠ .hash imm) → t.hs = s.hs ∧ t.blk = s.blk)

/-- R262, R264: F_CTX is reported only where one of the calls the command has made was answered `ctx_error`, F_WORKER only
where one of the workers it has waited for failed: the failure is among the draws used on the way from s to t.
That a batch uses all its draws, also where one of them is a failure, is the model's choice (assumption 9). -/
def Obligations.FaultsHaveCauses : Prop :=
  ∀ (i : Instr) (s t : State), s.status.state = .busy → exec i s = .next t →
    (t.status = ⟨.fatal, some .fCtx⟩ → true ∈ s.ctxUsed t) ∧
    (t.status = ⟨.fatal, some .fWorker⟩ → true ∈ s.workersUsed t)

/-! The invariant. -/

/-- Every step keeps the invariant (R27, R28, R29, R33, R35). Two of its clauses are the model's choice and not the spec's:
that SEQ.CMD, T, BLKLEFT and CI are 0 in IDLE, where R31 fixes PHASE alone, and that the latter three are 0 while LDW or LDBLK
waits (assumption 8); and that BUSY is seen between steps only while a command is held (assumption 4). -/
def Obligations.StepKeepsInvariant : Prop := ∀ s t : State, s.Inv → step s = .next t → t.Inv

/-! Command words. -/

/-- R90: the worked encodings, and the all-zero word (R88). -/
def Obligations.WorkedEncodingsDecode : Prop :=
  decode 0x1031200000000000 = some (.xorw 3 1 2) ∧ decode 0x131000006A09E667 = some (.trivw 1 0x6a09e667) ∧
  decode 0x2021000700000000 = some (.rotr 2 1 7) ∧ decode 0x2641230000000000 = some (.ch 4 1 2 3) ∧
  decode 0x3031200000000000 = some (.add 3 1 2) ∧ decode 0x4000000000000000 = some .compress ∧
  decode 0x5100000000000001 = some (.hash 1) ∧ decode 0x6103000000000000 = some (.stw 3) ∧
  decode 0 = none ∧ decode 0x2121002100000000 = none

/-- R81, R82, R90: decoding an encoded instruction gives it back, with every operand. -/
def Obligations.DecodeOfEncode : Prop := ∀ i : Instr, i.wellFormed = true → decode (encode i) = some i

/-- R83, R87: a legal word is the encoding of what it decodes to. -/
def Obligations.EncodeOfDecode : Prop := ∀ (cw : CmdWord) (i : Instr), decode cw = some i → encode i = cw ∧ i.wellFormed = true

/-- R89: the illegal words are those with an unknown opcode (a), a non-zero dead field (b), or SHR by more than 32 (c). -/
def Obligations.IllegalWords : Prop :=
  ∀ cw : CmdWord,
    let f := fieldsOf cw
    let op := f.op.toNat
    decode cw = none ↔
      (op ≤ 0x0F ∨ 0x14 ≤ op ∧ op ≤ 0x1F ∨ 0x28 ≤ op ∧ op ≤ 0x2F ∨ 0x31 ≤ op ∧ op ≤ 0x3F ∨ 0x41 ≤ op ∧ op ≤ 0x4F ∨
        0x52 ≤ op ∧ op ≤ 0x5F ∨ 0x64 ≤ op) ∨
      ((op = 0x40 ∨ op = 0x50 ∨ op = 0x62 ∨ op = 0x63) ∧
        ¬ (f.rd = 0 ∧ f.rs1 = 0 ∧ f.rs2 = 0 ∧ f.rs3 = 0 ∧ f.n = 0 ∧ f.imm = 0)) ∨
      (op = 0x60 ∧ ¬ (f.rs1 = 0 ∧ f.rs2 = 0 ∧ f.rs3 = 0 ∧ f.n = 0 ∧ f.imm = 0)) ∨
      (op = 0x61 ∧ ¬ (f.rd = 0 ∧ f.rs2 = 0 ∧ f.rs3 = 0 ∧ f.n = 0 ∧ f.imm = 0)) ∨
      ((op = 0x12 ∨ op = 0x22 ∨ op = 0x23 ∨ op = 0x24 ∨ op = 0x25) ∧
        ¬ (f.rs2 = 0 ∧ f.rs3 = 0 ∧ f.n = 0 ∧ f.imm = 0)) ∨
      ((op = 0x10 ∨ op = 0x11 ∨ op = 0x30) ∧ ¬ (f.rs3 = 0 ∧ f.n = 0 ∧ f.imm = 0)) ∨
      ((op = 0x26 ∨ op = 0x27) ∧ ¬ (f.n = 0 ∧ f.imm = 0)) ∨
      ((op = 0x20 ∨ op = 0x21) ∧ ¬ (f.rs2 = 0 ∧ f.rs3 = 0 ∧ f.imm = 0)) ∨
      (op = 0x13 ∧ ¬ (f.rs1 = 0 ∧ f.rs2 = 0 ∧ f.rs3 = 0 ∧ f.n = 0)) ∨
      (op = 0x51 ∧ ¬ (f.rd = 0 ∧ f.rs1 = 0 ∧ f.rs2 = 0 ∧ f.rs3 = 0 ∧ f.n = 0)) ∨
      (op = 0x21 ∧ 32 < f.n.toNat)

/-- R56: a command word stored as eight bytes, most significant first, decodes to the same. -/
def Obligations.StoredBytesDecode : Prop :=
  (∀ cw : CmdWord, decodeBytes (bytesOfCmd cw) = decode cw) ∧
  bytesOfCmd 0x1031200000000000 = [0x10, 0x31, 0x20, 0x00, 0x00, 0x00, 0x00, 0x00] ∧
  ∀ bs : List Byte, bs.length ≠ 8 → decodeBytes bs = none

/-- R85: ROTR takes every amount and uses it modulo 32; SHR takes 0 to 32. -/
def Obligations.AmountField : Prop :=
  (∀ (rd rs1 : Reg) (n : BitVec 8), decode (encode (.rotr rd rs1 n)) = some (.rotr rd rs1 n)) ∧
  (∀ (rd rs1 : Reg) (n : BitVec 8) (s : State), exec (.rotr rd rs1 n) s = exec (.rotr rd rs1 (n + 32)) s) ∧
  (∀ (rd rs1 : Reg) (n : BitVec 8),
    decode (encode (.shr rd rs1 n)) = if n.toNat ≤ 32 then some (.shr rd rs1 n) else none)

/-! GateEngine. Each law: the exact next state for an `empty` source, for each failure, and for completion with its value. -/

/-- R120. -/
def Obligations.XorwLaw : Prop :=
  ∀ (rd rs1 rs2 : Reg) (s : State),
    (s.r[rs1] = none ∨ s.r[rs2] = none → exec (.xorw rd rs1 rs2) s = .next (s.takeFault .fShape)) ∧
    ∀ a b : Word, s.r[rs1] = some a → s.r[rs2] = some b →
      (s.NoFailure 32 1 → ∃ w t, exec (.xorw rd rs1 rs2) s = .next t ∧ ((s.afterCalls 32 1).setR rd w).Completes t ∧
        ∀ dec, Config.G.Fits dec → val dec w = val dec a ^^^ val dec b) ∧
      (true ∈ s.env.ctxDraws.take 32 → ∃ k b, k ≤ 32 ∧ b ≤ 1 ∧
        exec (.xorw rd rs1 rs2) s = .next ((s.afterCalls k b).takeFault .fCtx)) ∧
      (true ∉ s.env.ctxDraws.take 32 → true ∈ s.env.workerDraws.take 8 →
        ∃ k b, k ≤ 32 ∧ b ≤ 1 ∧ exec (.xorw rd rs1 rs2) s = .next ((s.afterCalls k b).takeFault .fWorker))

/-- R121. -/
def Obligations.AndwLaw : Prop :=
  ∀ (rd rs1 rs2 : Reg) (s : State),
    (s.r[rs1] = none ∨ s.r[rs2] = none → exec (.andw rd rs1 rs2) s = .next (s.takeFault .fShape)) ∧
    ∀ a b : Word, s.r[rs1] = some a → s.r[rs2] = some b →
      (s.NoFailure 32 1 → ∃ w t, exec (.andw rd rs1 rs2) s = .next t ∧ ((s.afterCalls 32 1).setR rd w).Completes t ∧
        ∀ dec, Config.G.Fits dec → val dec w = val dec a &&& val dec b) ∧
      (true ∈ s.env.ctxDraws.take 32 → ∃ k b, k ≤ 32 ∧ b ≤ 1 ∧
        exec (.andw rd rs1 rs2) s = .next ((s.afterCalls k b).takeFault .fCtx)) ∧
      (true ∉ s.env.ctxDraws.take 32 → true ∈ s.env.workerDraws.take 8 →
        ∃ k b, k ≤ 32 ∧ b ≤ 1 ∧ exec (.andw rd rs1 rs2) s = .next ((s.afterCalls k b).takeFault .fWorker))

/-- R122. -/
def Obligations.NotwLaw : Prop :=
  ∀ (rd rs1 : Reg) (s : State),
    (s.r[rs1] = none → exec (.notw rd rs1) s = .next (s.takeFault .fShape)) ∧
    ∀ a : Word, s.r[rs1] = some a →
      (s.NoFailure 32 1 → ∃ w t, exec (.notw rd rs1) s = .next t ∧ ((s.afterCalls 32 1).setR rd w).Completes t ∧
        ∀ dec, Config.G.Fits dec → val dec w = ~~~val dec a ∧ val dec w = 0xFFFFFFFF - val dec a) ∧
      (true ∈ s.env.ctxDraws.take 32 → ∃ k b, k ≤ 32 ∧ b ≤ 1 ∧
        exec (.notw rd rs1) s = .next ((s.afterCalls k b).takeFault .fCtx)) ∧
      (true ∉ s.env.ctxDraws.take 32 → true ∈ s.env.workerDraws.take 8 →
        ∃ k b, k ≤ 32 ∧ b ≤ 1 ∧ exec (.notw rd rs1) s = .next ((s.afterCalls k b).takeFault .fWorker))

/-- R123: 32 trivial encryptions, cell 0 the most significant digit; the only fault is F_CTX, at the call that failed. -/
def Obligations.TrivwLaw : Prop :=
  ∀ (rd : Reg) (imm : U32) (s : State),
    (s.NoFailure 32 0 → ∃ w t, exec (.trivw rd imm) s = .next t ∧ ((s.afterCalls 32 0).setR rd w).Completes t ∧
      (∀ i : Fin 32, w[i].tag = .trivial) ∧
      ∀ dec, Config.G.Fits dec → val dec w = imm ∧ ∀ i : Fin 32, dec w[i] = imm.getLsbD (31 - i)) ∧
    (true ∈ s.env.ctxDraws.take 32 → ∃ k, k ≤ 32 ∧
      exec (.trivw rd imm) s = .next ((s.afterCalls k 0).takeFault .fCtx))

/-- R69, R117: whatever the number of workers (a divisor of 32) and however their lanes interleave, a batch's word is the
one the model's step takes. One evaluation of each lane is spoken of, in another order: what a call answers is a function of
its operands (assumption 2), and R69 and R117 ask for the same word. -/
def Obligations.BatchScheduleIndependent : Prop :=
  ∀ (G : Capability) (q : BatchOp) (n : Nat) (order : List (Fin 32)), n ∣ 32 → IsSchedule n order →
    join (runLanes G q order) = some (joinSlots (workerSlots G q))

/-- R113, R118: the outcomes of a batch; with both kinds of failure F_CTX is reported. That a failed batch
has used all its draws is the model's choice (assumption 9). -/
def Obligations.BatchOutcomes : Prop :=
  ∀ (G : Capability) (q : BatchOp) (s : State),
    (true ∈ s.env.ctxDraws.take 32 → batch G q s = .error .faulted ((s.afterCalls 32 1).takeFault .fCtx)) ∧
    (true ∉ s.env.ctxDraws.take 32 → true ∈ s.env.workerDraws.take 8 →
      batch G q s = .error .faulted ((s.afterCalls 32 1).takeFault .fWorker)) ∧
    (s.NoFailure 32 1 → ∃ w, batch G q s = .ok w (s.afterCalls 32 1) ∧
      ∀ dec, G.Fits dec → ∀ i : Fin 32, dec w[i] = match q with
        | .and a b => dec a[i] && dec b[i]
        | .xor a b => dec a[i] ^^ dec b[i]
        | .not a => !dec a[i])

/-! WordOps. -/

/-- R140, R141: cell i moves to cell (i + n) mod 32; no call, no fault but F_SHAPE. -/
def Obligations.RotrLaw : Prop :=
  ∀ (rd rs1 : Reg) (n : BitVec 8) (s : State),
    (s.r[rs1] = none → exec (.rotr rd rs1 n) s = .next (s.takeFault .fShape)) ∧
    ∀ x : Word, s.r[rs1] = some x →
      ∃ w t, exec (.rotr rd rs1 n) s = .next t ∧ (s.setR rd w).Completes t ∧
        (∀ i : Fin 32, w[(i.val + n.toNat) % 32]'(Nat.mod_lt _ (by decide)) = x[i]) ∧
        ∀ dec, Config.G.Fits dec → val dec w = Plain.rotr32 (val dec x) (n.toNat % 32)

/-- R142, R143, for every amount an instruction word can hold: n new trivial zeros, then the kept cells. -/
def Obligations.ShrLaw : Prop :=
  ∀ (rd rs1 : Reg) (n : BitVec 8) (s : State), n.toNat ≤ 32 →
    (s.r[rs1] = none → exec (.shr rd rs1 n) s = .next (s.takeFault .fShape)) ∧
    ∀ x : Word, s.r[rs1] = some x →
      (s.NoFailure n.toNat 0 → ∃ w t, exec (.shr rd rs1 n) s = .next t ∧ ((s.afterCalls n.toNat 0).setR rd w).Completes t ∧
        (∀ i : Fin 32, i.val < n.toNat → w[i].tag = .trivial ∧ ∀ dec, Config.G.Fits dec → dec w[i] = false) ∧
        (∀ i : Fin 32, n.toNat ≤ i.val → w[i] = x[i.val - n.toNat]) ∧
        ∀ dec, Config.G.Fits dec → val dec w = val dec x >>> n.toNat) ∧
      (true ∈ s.env.ctxDraws.take n.toNat → ∃ k, k ≤ n.toNat ∧
        exec (.shr rd rs1 n) s = .next ((s.afterCalls k 0).takeFault .fCtx))

/-- R144: SSIG0; and, over its batches and calls in textual order, the fault of the first failure (R268, R333). -/
def Obligations.Ssig0Law : Prop :=
  ∀ (rd rs1 : Reg) (s : State),
    (s.r[rs1] = none → exec (.ssig0 rd rs1) s = .next (s.takeFault .fShape)) ∧
    ∀ x : Word, s.r[rs1] = some x →
      (s.NoFailure 67 2 →
        ∃ w t, exec (.ssig0 rd rs1) s = .next t ∧ ((s.afterCalls 67 2).setR rd w).Completes t ∧
          ∀ dec, Config.G.Fits dec →
            val dec w = Plain.rotr32 (val dec x) 7 ^^^ Plain.rotr32 (val dec x) 18 ^^^ (val dec x >>> 3)) ∧
      ∀ c, s.firstFault (Instr.ssig0 rd rs1).capSteps = some c → ∃ k b, k ≤ 67 ∧ b ≤ 2 ∧
        exec (.ssig0 rd rs1) s = .next ((s.afterCalls k b).takeFault c)

/-- R145: SSIG1; and, over its batches and calls in textual order, the fault of the first failure (R268, R333). -/
def Obligations.Ssig1Law : Prop :=
  ∀ (rd rs1 : Reg) (s : State),
    (s.r[rs1] = none → exec (.ssig1 rd rs1) s = .next (s.takeFault .fShape)) ∧
    ∀ x : Word, s.r[rs1] = some x →
      (s.NoFailure 74 2 →
        ∃ w t, exec (.ssig1 rd rs1) s = .next t ∧ ((s.afterCalls 74 2).setR rd w).Completes t ∧
          ∀ dec, Config.G.Fits dec →
            val dec w = Plain.rotr32 (val dec x) 17 ^^^ Plain.rotr32 (val dec x) 19 ^^^ (val dec x >>> 10)) ∧
      ∀ c, s.firstFault (Instr.ssig1 rd rs1).capSteps = some c → ∃ k b, k ≤ 74 ∧ b ≤ 2 ∧
        exec (.ssig1 rd rs1) s = .next ((s.afterCalls k b).takeFault c)

/-- R146: BSIG0; and, over its batches and calls in textual order, the fault of the first failure (R268, R333). -/
def Obligations.Bsig0Law : Prop :=
  ∀ (rd rs1 : Reg) (s : State),
    (s.r[rs1] = none → exec (.bsig0 rd rs1) s = .next (s.takeFault .fShape)) ∧
    ∀ x : Word, s.r[rs1] = some x →
      (s.NoFailure 64 2 →
        ∃ w t, exec (.bsig0 rd rs1) s = .next t ∧ ((s.afterCalls 64 2).setR rd w).Completes t ∧
          ∀ dec, Config.G.Fits dec →
            val dec w = Plain.rotr32 (val dec x) 2 ^^^ Plain.rotr32 (val dec x) 13 ^^^ Plain.rotr32 (val dec x) 22) ∧
      ∀ c, s.firstFault (Instr.bsig0 rd rs1).capSteps = some c → ∃ k b, k ≤ 64 ∧ b ≤ 2 ∧
        exec (.bsig0 rd rs1) s = .next ((s.afterCalls k b).takeFault c)

/-- R147: BSIG1; and, over its batches and calls in textual order, the fault of the first failure (R268, R333). -/
def Obligations.Bsig1Law : Prop :=
  ∀ (rd rs1 : Reg) (s : State),
    (s.r[rs1] = none → exec (.bsig1 rd rs1) s = .next (s.takeFault .fShape)) ∧
    ∀ x : Word, s.r[rs1] = some x →
      (s.NoFailure 64 2 →
        ∃ w t, exec (.bsig1 rd rs1) s = .next t ∧ ((s.afterCalls 64 2).setR rd w).Completes t ∧
          ∀ dec, Config.G.Fits dec →
            val dec w = Plain.rotr32 (val dec x) 6 ^^^ Plain.rotr32 (val dec x) 11 ^^^ Plain.rotr32 (val dec x) 25) ∧
      ∀ c, s.firstFault (Instr.bsig1 rd rs1).capSteps = some c → ∃ k b, k ≤ 64 ∧ b ≤ 2 ∧
        exec (.bsig1 rd rs1) s = .next ((s.afterCalls k b).takeFault c)

/-- R148: CH; and, over its batches and calls in textual order, the fault of the first failure (R268, R333). -/
def Obligations.ChLaw : Prop :=
  ∀ (rd rs1 rs2 rs3 : Reg) (s : State),
    (s.r[rs1] = none ∨ s.r[rs2] = none ∨ s.r[rs3] = none → exec (.ch rd rs1 rs2 rs3) s = .next (s.takeFault .fShape)) ∧
    ∀ x y z : Word, s.r[rs1] = some x → s.r[rs2] = some y → s.r[rs3] = some z →
      (s.NoFailure 128 4 →
        ∃ w t, exec (.ch rd rs1 rs2 rs3) s = .next t ∧ ((s.afterCalls 128 4).setR rd w).Completes t ∧
          ∀ dec, Config.G.Fits dec → val dec w = (val dec x &&& val dec y) ^^^ (~~~val dec x &&& val dec z)) ∧
      ∀ c, s.firstFault (Instr.ch rd rs1 rs2 rs3).capSteps = some c → ∃ k b, k ≤ 128 ∧ b ≤ 4 ∧
        exec (.ch rd rs1 rs2 rs3) s = .next ((s.afterCalls k b).takeFault c)

/-- R152: MAJ; and, over its batches and calls in textual order, the fault of the first failure (R268, R333). -/
def Obligations.MajLaw : Prop :=
  ∀ (rd rs1 rs2 rs3 : Reg) (s : State),
    (s.r[rs1] = none ∨ s.r[rs2] = none ∨ s.r[rs3] = none → exec (.maj rd rs1 rs2 rs3) s = .next (s.takeFault .fShape)) ∧
    ∀ x y z : Word, s.r[rs1] = some x → s.r[rs2] = some y → s.r[rs3] = some z →
      (s.NoFailure 160 5 →
        ∃ w t, exec (.maj rd rs1 rs2 rs3) s = .next t ∧ ((s.afterCalls 160 5).setR rd w).Completes t ∧
          ∀ dec, Config.G.Fits dec →
            val dec w = (val dec x &&& val dec y) ^^^ (val dec x &&& val dec z) ^^^ (val dec y &&& val dec z)) ∧
      ∀ c, s.firstFault (Instr.maj rd rs1 rs2 rs3).capSteps = some c → ∃ k b, k ≤ 160 ∧ b ≤ 5 ∧
        exec (.maj rd rs1 rs2 rs3) s = .next ((s.afterCalls k b).takeFault c)

/-- R92: the pseudo-instructions. -/
def Obligations.PseudoInstructions : Prop :=
  (∀ (rd rs : Reg) (s : State) (x : Word), s.r[rs] = some x → ∃ t, exec (.mov rd rs) s = .next t ∧ (s.setR rd x).Completes t) ∧
  (∀ (rd : Reg) (s : State), s.NoFailure 32 0 → ∃ w t, exec (.zerow rd) s = .next t ∧ ((s.afterCalls 32 0).setR rd w).Completes t ∧
    ∀ i : Fin 32, w[i].tag = .trivial ∧ ∀ dec, Config.G.Fits dec → dec w[i] = false) ∧
  (∀ (rd : Reg) (s : State), s.NoFailure 32 0 → ∃ w t, exec (.onesw rd) s = .next t ∧ ((s.afterCalls 32 0).setR rd w).Completes t ∧
    ∀ i : Fin 32, w[i].tag = .trivial ∧ ∀ dec, Config.G.Fits dec → dec w[i] = true)

/-! Adder. -/

/-- R170, R171: addition modulo 2^32; the adder's words are `empty` at the end. The 159 calls and 3 batches, and the order
in which a failure among them is met, are those of the reference netlist of R172, which is the model's choice of a carry
network (assumption 17); under it R268 and R333 fix the fault that is reported. -/
def Obligations.AddLaw : Prop :=
  ∀ (rd rs1 rs2 : Reg) (s : State),
    (s.r[rs1] = none ∨ s.r[rs2] = none → exec (.add rd rs1 rs2) s = .next (s.takeFault .fShape)) ∧
    ∀ a b : Word, s.r[rs1] = some a → s.r[rs2] = some b →
      (s.NoFailure 159 3 →
        ∃ w t, exec (.add rd rs1 rs2) s = .next t ∧ (((s.afterCalls 159 3).setR rd w).clearAdder).Completes t ∧
          ∀ dec, Config.G.Fits dec → (val dec w).toNat = ((val dec a).toNat + (val dec b).toNat) % 2 ^ 32) ∧
      ∀ c, s.firstFault (Instr.add rd rs1 rs2).capSteps = some c →
        ∃ t, exec (.add rd rs1 rs2) s = .next t ∧ t.status = ⟨.fatal, some c⟩ ∧ t.fcmd = s.seq.cmd ∧ t.r = s.r

/-- R173: the carries. Cell i of the carry word is the carry into the digit of weight 2^(31-i).
The carry word and its 62 calls belong to the reference netlist of R172, the model's choice (assumption 17). -/
def Obligations.CarryWord : Prop :=
  ∀ (G : Capability) (dec : Ct → Bool) (a b p g : Word) (c31 : Ct) (s : State), G.Fits dec →
    val dec p = val dec a ^^^ val dec b → val dec g = val dec a &&& val dec b → dec c31 = false →
    s.NoFailure 62 0 →
    ∃ (cs : Vector Ct 31) (t : State), carryFrom G p g 31 (by decide) c31 s = .ok cs t ∧
      (∀ i : Fin 31, (dec cs[i]).toNat =
        ((val dec a).toNat % 2 ^ (31 - i.val) + (val dec b).toNat % 2 ^ (31 - i.val)) / 2 ^ (31 - i.val)) ∧
      val dec (cs.push c31) = (val dec a + val dec b) ^^^ val dec a ^^^ val dec b

/-! Compressor and HashDriver. -/

/-- R195, R196: COMPRESS. The hash state becomes the plain compression of the old one with the block, in value.
R198 counts its calls and batches for the reference netlist, the model's choice of a carry network (assumption 17); under it
the first failure among them, in textual order, is the fault (R268, R333). -/
def Obligations.CompressLaw : Prop :=
  ∀ s : State,
    (s.LacksHS ∨ s.LacksBLK → exec .compress s = .next (s.takeFault .fShape)) ∧
    ∀ (h : Vector Word 8) (b : Vector Word 16), s.HoldsHS h → s.HoldsBLK b →
      (s.NoFailure 130840 2824 → ∃ (n : Vector Word 8) (t : State),
        exec .compress s = .next t ∧ ((((s.afterCalls 130840 2824).setHS n).clearAdder).clearRounds).Completes t ∧
        ∀ dec, Config.G.Fits dec → ∀ k : Fin 8, val dec n[k] =
          val dec h[k] + (Plain.rounds (Plain.schedule (Vector.ofFn fun j => val dec b[j]) 48)
            (Vector.ofFn fun j => val dec h[j]) 64)[k]) ∧
      ∀ c, s.firstFault Instr.compress.capSteps = some c →
        ∃ t, exec .compress s = .next t ∧ t.status = ⟨.fatal, some c⟩ ∧ t.fcmd = s.seq.cmd ∧ t.r = s.r ∧ t.hs = s.hs ∧ t.blk = s.blk

/-- R222: HINIT. -/
def Obligations.HinitLaw : Prop :=
  ∀ s : State,
    (s.NoFailure 256 0 → ∃ (n : Vector Word 8) (t : State), exec .hinit s = .next t ∧ ((s.afterCalls 256 0).setHS n).Completes t ∧
      (∀ (k : Fin 8) (i : Fin 32), n[k][i].tag = .trivial) ∧
      ∀ dec, Config.G.Fits dec → ∀ k : Fin 8, val dec n[k] = IV k) ∧
    (true ∈ s.env.ctxDraws.take 256 → ∃ k, k ≤ 256 ∧ exec .hinit s = .next ((s.afterCalls k 0).takeFault .fCtx))

/-- R223, R224: HASH over blocks that are there, zero blocks among the cases: the digest is emitted and kept in HS; where a
call or a worker fails, the first failure in textual order is the fault (R268, R333) and no frame is emitted. The counts of
calls are those of R198 and R331 for the reference netlist, the model's choice (assumption 17). -/
def Obligations.HashLaw : Prop :=
  ∀ (imm : U32) (s : State) (blocks : List (Vector Word 16)) (rest : List Frame),
    s.seq.phase = .none → s.dinq = (blocks.map fun b => Frame.block (b.toList.map Vector.toList)) ++ rest →
    blocks.length = imm.toNat →
    (s.NoFailure (256 + 130840 * imm.toNat) (2824 * imm.toNat) →
      ∃ (t : State) (n : Vector Word 8), exec (.hash imm) s = .next t ∧
        t.status = ⟨.idle, s.status.fault⟩ ∧ t.seq.phase = .none ∧ t.fcmd = s.fcmd ∧ t.r = s.r ∧ t.dinq = rest ∧ t.HoldsHS n ∧
        (∀ b ∈ blocks.getLast?, t.HoldsBLK b) ∧ (blocks = [] → t.blk = s.blk) ∧
        t.scratch = (if blocks = [] then s.scratch else Scratch.empty) ∧
        t.env = ⟨s.env.host, s.env.dout ++ n.toList, s.env.ctxDraws.drop (256 + 130840 * imm.toNat),
          s.env.workerDraws.drop (8 * (2824 * imm.toNat))⟩ ∧
        ∀ dec, Config.G.Fits dec → vals dec n = (blocks.map (vals dec)).foldl Plain.compress Plain.iv) ∧
    ∀ c, s.firstFault (Instr.hash imm).capSteps = some c →
      ∃ t, exec (.hash imm) s = .next t ∧ t.status = ⟨.fatal, some c⟩ ∧ t.fcmd = s.seq.cmd ∧ t.r = s.r ∧ t.env.dout = s.env.dout

/-- R223, R61: with fewer frames than blocks, HASH waits in phase LOAD, BUSY, with the blocks so far compressed, the last of them
in BLK, and no frame emitted, unless a call or a worker of that work failed (R268, R333). The same from its start and where it
goes on after a wait, so that waits chain with one another and with its end. The counts of calls are those of R198 and R331
for the reference netlist, the model's choice (assumption 17). -/
def Obligations.HashWaitsForFrames : Prop :=
  ∀ (imm : U32) (s : State) (blocks : List (Vector Word 16)),
    s.status.state = .busy → s.dinq = (blocks.map fun b => Frame.block (b.toList.map Vector.toList)) →
    (s.seq.phase = .none → blocks.length < imm.toNat →
      (s.NoFailure (256 + 130840 * blocks.length) (2824 * blocks.length) →
        ∃ (t : State) (n : Vector Word 8), exec (.hash imm) s = .next t ∧ HashWaiting s t blocks n ∧
          t.seq.blkLeft.toNat = imm.toNat - blocks.length ∧
          t.env = ⟨s.env.host, s.env.dout, s.env.ctxDraws.drop (256 + 130840 * blocks.length),
            s.env.workerDraws.drop (8 * (2824 * blocks.length))⟩ ∧
          ∀ dec, Config.G.Fits dec → vals dec n = (blocks.map (vals dec)).foldl Plain.compress Plain.iv) ∧
      ∀ c, s.firstFault (CapStep.hinit ++ CapStep.blocks blocks.length) = some c →
        ∃ t, exec (.hash imm) s = .next t ∧ t.status = ⟨.fatal, some c⟩ ∧ t.fcmd = s.seq.cmd ∧ t.r = s.r ∧ t.env.dout = s.env.dout) ∧
    ∀ h : Vector Word 8, s.seq.phase = .load → s.HoldsHS h → blocks.length < s.seq.blkLeft.toNat →
      (s.NoFailure (130840 * blocks.length) (2824 * blocks.length) →
        ∃ (t : State) (n : Vector Word 8), exec (.hash imm) s = .next t ∧ HashWaiting s t blocks n ∧
          t.seq.blkLeft.toNat = s.seq.blkLeft.toNat - blocks.length ∧
          t.env = ⟨s.env.host, s.env.dout, s.env.ctxDraws.drop (130840 * blocks.length),
            s.env.workerDraws.drop (8 * (2824 * blocks.length))⟩ ∧
          ∀ dec, Config.G.Fits dec → vals dec n = (blocks.map (vals dec)).foldl Plain.compress (vals dec h)) ∧
      ∀ c, s.firstFault (CapStep.blocks blocks.length) = some c →
        ∃ t, exec (.hash imm) s = .next t ∧ t.status = ⟨.fatal, some c⟩ ∧ t.fcmd = s.seq.cmd ∧ t.r = s.r ∧ t.env.dout = s.env.dout

/-- R223, R61: a HASH that waited goes on with the blocks still left, from the hash state it had, and completes, with the last
block in BLK; or faults, at the first failure in textual order (R268, R333). The counts of calls are those of R198 and R331
for the reference netlist, the model's choice (assumption 17). -/
def Obligations.HashGoesOn : Prop :=
  ∀ (imm : U32) (s : State) (h : Vector Word 8) (blocks : List (Vector Word 16)) (rest : List Frame),
    s.seq.phase = .load → s.HoldsHS h → blocks.length = s.seq.blkLeft.toNat →
    s.dinq = (blocks.map fun b => Frame.block (b.toList.map Vector.toList)) ++ rest →
    (s.NoFailure (130840 * blocks.length) (2824 * blocks.length) →
      ∃ (t : State) (n : Vector Word 8), exec (.hash imm) s = .next t ∧
        t.status = ⟨.idle, s.status.fault⟩ ∧ t.seq.phase = .none ∧ t.fcmd = s.fcmd ∧ t.r = s.r ∧ t.dinq = rest ∧ t.HoldsHS n ∧
        (∀ b ∈ blocks.getLast?, t.HoldsBLK b) ∧ (blocks = [] → t.blk = s.blk) ∧
        t.scratch = (if blocks = [] then s.scratch else Scratch.empty) ∧
        t.env = ⟨s.env.host, s.env.dout ++ n.toList, s.env.ctxDraws.drop (130840 * blocks.length),
          s.env.workerDraws.drop (8 * (2824 * blocks.length))⟩ ∧
        ∀ dec, Config.G.Fits dec → vals dec n = (blocks.map (vals dec)).foldl Plain.compress (vals dec h)) ∧
    ∀ c, s.firstFault (CapStep.blocks blocks.length) = some c →
      ∃ t, exec (.hash imm) s = .next t ∧ t.status = ⟨.fatal, some c⟩ ∧ t.fcmd = s.seq.cmd ∧ t.r = s.r ∧ t.env.dout = s.env.dout

/-- R223, R263: a frame that is no block ends HASH with F_SHAPE, after the blocks before it; no frame is emitted. The same from
its start and where it goes on after a wait. The counts of calls made by then are those of R198 and R331 for the reference
netlist, the model's choice (assumption 17). -/
def Obligations.HashBadFrame : Prop :=
  ∀ (imm : U32) (s : State) (blocks : List (Vector Word 16)) (f : Frame) (rest : List Frame),
    s.dinq = (blocks.map fun b => Frame.block (b.toList.map Vector.toList)) ++ f :: rest →
    (∀ b : Vector Word 16, f ≠ .block (b.toList.map Vector.toList)) →
    (s.seq.phase = .none → blocks.length < imm.toNat →
      (s.NoFailure (256 + 130840 * blocks.length) (2824 * blocks.length) →
        ∃ t : State, exec (.hash imm) s = .next t ∧ t.status = ⟨.fatal, some .fShape⟩ ∧ t.fcmd = s.seq.cmd ∧
          t.dinq = rest ∧ t.r = s.r ∧
          t.env = ⟨s.env.host, s.env.dout, s.env.ctxDraws.drop (256 + 130840 * blocks.length),
            s.env.workerDraws.drop (8 * (2824 * blocks.length))⟩) ∧
      ∀ c, s.firstFault (CapStep.hinit ++ CapStep.blocks blocks.length) = some c →
        ∃ t, exec (.hash imm) s = .next t ∧ t.status = ⟨.fatal, some c⟩ ∧ t.fcmd = s.seq.cmd ∧ t.r = s.r ∧ t.env.dout = s.env.dout) ∧
    ∀ h : Vector Word 8, s.seq.phase = .load → s.HoldsHS h → blocks.length < s.seq.blkLeft.toNat →
      (s.NoFailure (130840 * blocks.length) (2824 * blocks.length) →
        ∃ t : State, exec (.hash imm) s = .next t ∧ t.status = ⟨.fatal, some .fShape⟩ ∧ t.fcmd = s.seq.cmd ∧
          t.dinq = rest ∧ t.r = s.r ∧
          t.env = ⟨s.env.host, s.env.dout, s.env.ctxDraws.drop (130840 * blocks.length),
            s.env.workerDraws.drop (8 * (2824 * blocks.length))⟩) ∧
      ∀ c, s.firstFault (CapStep.blocks blocks.length) = some c →
        ∃ t, exec (.hash imm) s = .next t ∧ t.status = ⟨.fatal, some c⟩ ∧ t.fcmd = s.seq.cmd ∧ t.r = s.r ∧ t.env.dout = s.env.dout

/-- R223, R311: HASH N and HINIT; (LDBLK; COMPRESS) N times; RDH leave the same values, frames and storage shape.
The calls that must not fail are counted as in R198 and R331, for the reference netlist, the model's choice (assumption 17). -/
def Obligations.HashIsExplicitSequence : Prop :=
  ∀ (imm : U32) (s : State) (blocks : List (Vector Word 16)) (rest : List Frame),
    s.status.state = .idle → s.dinq = (blocks.map fun b => Frame.block (b.toList.map Vector.toList)) ++ rest →
    blocks.length = imm.toNat → s.NoFailure (256 + 130840 * imm.toNat) (2824 * imm.toNat) →
    ∃ (t u : State) (n m : Vector Word 8), exec (.hash imm) (s.accept (encode (.hash imm))) = .next t ∧
      runCommands (explicitHash imm.toNat) s = some u ∧
      t.HoldsHS n ∧ u.HoldsHS m ∧ t.env.dout = s.env.dout ++ n.toList ∧ u.env.dout = s.env.dout ++ m.toList ∧
      t.blk = u.blk ∧ t.dinq = u.dinq ∧ t.r = u.r ∧ t.status = u.status ∧ t.scratch = u.scratch ∧
      t.env.ctxDraws = u.env.ctxDraws ∧ t.env.workerDraws = u.env.workerDraws ∧
      ∀ dec, Config.G.Fits dec → vals dec n = vals dec m

/-- R224, R57, R53, R54: the frames HASH emits for a padded and encrypted message decrypt to SHA-256 of the message.
The calls that must not fail are counted as in R198 and R331, for the reference netlist, the model's choice (assumption 17). -/
def Obligations.DigestOfMessage : Prop :=
  ∀ (dec : Ct → Bool) (msg : List Bool) (imm : U32) (s : State) (blocks : List (Vector Word 16)) (rest : List Frame),
    Config.G.Fits dec → s.seq.phase = .none →
    512 * blocks.length = (Plain.pad msg).length → blocks.length = imm.toNat →
    (∀ (b : Fin blocks.length) (k : Fin 16) (i : Fin 32),
      (Plain.pad msg)[512 * b.val + 32 * k.val + i.val]? = some (dec (blocks[b])[k][i])) →
    s.dinq = (blocks.map fun b => Frame.block (b.toList.map Vector.toList)) ++ rest →
    s.NoFailure (256 + 130840 * imm.toNat) (2824 * imm.toNat) →
    ∃ (t : State) (n : Vector Word 8), exec (.hash imm) s = .next t ∧ t.status.state = .idle ∧
      t.env.dout = s.env.dout ++ n.toList ∧ t.HoldsHS n ∧ vals dec n = Plain.sha256 msg ∧
      ∀ j : Fin 256, digestBit dec n j = ((Plain.sha256 msg)[j.val / 32]'(by omega)).getLsbD (31 - j.val % 32)

/-! Transfers. -/

/-- R240, R61: LDW with no frame waits; with a word frame of 32 cells it loads it; any other frame is consumed and is F_SHAPE. -/
def Obligations.LdwLaw : Prop :=
  ∀ (rd : Reg) (s : State),
    (s.dinq = [] → exec (.ldw rd) s = .next s) ∧
    (∀ (w : Word) (q : List Frame), s.dinq = .word w.toList :: q →
      ∃ t, exec (.ldw rd) s = .next t ∧ ((s.setDinq q).setR rd w).Completes t) ∧
    (∀ (f : Frame) (q : List Frame), s.dinq = f :: q → (∀ w : Word, f ≠ .word w.toList) →
      exec (.ldw rd) s = .next ((s.setDinq q).takeFault .fShape))

/-- R241, R62: STW emits one whole frame, or faults and emits none. -/
def Obligations.StwLaw : Prop :=
  ∀ (rs1 : Reg) (s : State),
    (s.r[rs1] = none → exec (.stw rs1) s = .next (s.takeFault .fShape)) ∧
    (∀ w : Word, s.r[rs1] = some w →
      ∃ t, exec (.stw rs1) s = .next t ∧ t.env = { s.env with dout := s.env.dout ++ [w] } ∧ t.r = s.r ∧ t.hs = s.hs ∧
        t.blk = s.blk ∧ t.scratch = s.scratch ∧ t.status = ⟨.idle, s.status.fault⟩ ∧ t.fcmd = s.fcmd ∧ t.dinq = s.dinq ∧
        t.seq.phase = .none)

/-- R242, R61: LDBLK, as LDW, with a block frame of 16 word frames of 32 cells. -/
def Obligations.LdblkLaw : Prop :=
  ∀ s : State,
    (s.dinq = [] → exec .ldblk s = .next s) ∧
    (∀ (b : Vector Word 16) (q : List Frame), s.dinq = .block (b.toList.map Vector.toList) :: q →
      ∃ t, exec .ldblk s = .next t ∧ ((s.setDinq q).setBLK b).Completes t) ∧
    (∀ (f : Frame) (q : List Frame), s.dinq = f :: q → (∀ b : Vector Word 16, f ≠ .block (b.toList.map Vector.toList)) →
      exec .ldblk s = .next ((s.setDinq q).takeFault .fShape))

/-- R243, R54: RDH emits the eight words in index order, or faults and emits none. -/
def Obligations.RdhLaw : Prop :=
  ∀ s : State,
    (s.LacksHS → exec .rdh s = .next (s.takeFault .fShape)) ∧
    (∀ h : Vector Word 8, s.HoldsHS h →
      ∃ t, exec .rdh s = .next t ∧ t.env = { s.env with dout := s.env.dout ++ [h[0], h[1], h[2], h[3], h[4], h[5], h[6], h[7]] } ∧
        t.r = s.r ∧ t.hs = s.hs ∧ t.blk = s.blk ∧ t.scratch = s.scratch ∧ t.status = ⟨.idle, s.status.fault⟩ ∧
        t.fcmd = s.fcmd ∧ t.dinq = s.dinq ∧ t.seq.phase = .none)

/-! What every instruction leaves alone, and the whole-machine rules. -/

/-- R24, R26: whatever the outcome, an instruction changes no register but its destination. -/
def Obligations.RegistersFrame : Prop :=
  ∀ (i : Instr) (s t : State) (k : Reg), exec i s = .next t → i.dest ≠ some k → t.r[k] = s.r[k]

/-- R20, R27, R28, R62: the rest of the state, whatever the outcome, for every instruction not named. -/
def Obligations.StorageFrame : Prop :=
  ∀ (i : Instr) (s t : State), exec i s = .next t →
    (i ≠ .hinit → i ≠ .compress → (∀ imm, i ≠ .hash imm) → t.hs = s.hs) ∧
    (i ≠ .ldblk → (∀ imm, i ≠ .hash imm) → t.blk = s.blk) ∧
    ((∀ rs1, i ≠ .stw rs1) → i ≠ .rdh → (∀ imm, i ≠ .hash imm) → t.env.dout = s.env.dout) ∧
    ((∀ rd, i ≠ .ldw rd) → i ≠ .ldblk → (∀ imm, i ≠ .hash imm) → t.dinq = s.dinq) ∧
    ((∀ rd rs1 rs2, i ≠ .add rd rs1 rs2) → i ≠ .compress → (∀ imm, i ≠ .hash imm) → t.scratch = s.scratch) ∧
    (t.status.state ≠ .fatal → t.status.fault = s.status.fault ∧ t.fcmd = s.fcmd) ∧ t.env.host = s.env.host

/-- R23, R322: what is written does not depend on the destination, so a destination that is also a source is safe.
Two runs are compared, so in presence and in value only, under every key that fits (R13, assumption 2). -/
def Obligations.DestinationMayBeSource : Prop :=
  ∀ (i : Instr) (rd : Reg) (s t : State), s.status.state = .busy → exec i s = .next t → i.dest.isSome →
    ∃ u, exec (i.withDest rd) s = .next u ∧ u.status = t.status ∧
      ∀ rd', i.dest = some rd' → t.status.state = .idle → (u.r[rd]).isSome = (t.r[rd']).isSome ∧
        ∀ dec, Config.G.Fits dec → (u.r[rd]).map (val dec) = (t.r[rd']).map (val dec)

/-- R22, R263: a command with an `empty` source register faults at once, with F_SHAPE and before any call. -/
def Obligations.EmptySourceFaults : Prop :=
  ∀ (i : Instr) (s : State) (k : Reg), k ∈ i.sources → s.r[k] = none → exec i s = .next (s.takeFault .fShape)

/-- R331, R15: a command that completes has made exactly its calls and batches, and none of them failed. The counts of ADD,
COMPRESS and HASH are those of the reference netlist, the model's choice of a carry network (assumption 17). -/
def Obligations.CompletionHadNoFailure : Prop :=
  ∀ (i : Instr) (s t : State), s.status.state = .busy → s.seq.phase = .none → exec i s = .next t → t.status.state = .idle →
    s.NoFailure i.calls i.batches ∧ t.env.ctxDraws = s.env.ctxDraws.drop i.calls ∧
      t.env.workerDraws = s.env.workerDraws.drop (8 * i.batches)

/-- R12: no instruction and no step looks at a ciphertext. Two states that differ in ciphertexts only stay so. -/
def Obligations.CiphertextsUnobserved : Prop :=
  (∀ (i : Instr) (s t : State), s.Alike t →
    ∃ s' t', exec i s = .next s' ∧ exec i t = .next t' ∧ s'.Alike t') ∧
  ∀ s t : State, s.Alike t → ∃ s' t', step s = .next s' ∧ step t = .next t' ∧ s'.Alike t'
end

