-- ==== Sys2Proof/Laws/State.lean ====
section
/-!
SUPPORT. One lemma per field per update of the state: what the update puts there, or that it leaves it (R24).
-/

namespace Sys2Proof.Machine

variable (s : State)

@[simp] theorem getElem_filled {n : Nat} (ws : Vector Word n) (k : Nat) (hk : k < n) :
    (filled ws)[k] = some ws[k] := by
  simp [filled, Vector.getElem_mk]

@[simp] theorem State.setR_r (k : Reg) (w : Word) : (s.setR k w).r = s.r.set k.val (some w) := rfl
@[simp] theorem State.setR_hs (k : Reg) (w : Word) : (s.setR k w).hs = s.hs := rfl
@[simp] theorem State.setR_blk (k : Reg) (w : Word) : (s.setR k w).blk = s.blk := rfl
@[simp] theorem State.setR_scratch (k : Reg) (w : Word) : (s.setR k w).scratch = s.scratch := rfl
@[simp] theorem State.setR_status (k : Reg) (w : Word) : (s.setR k w).status = s.status := rfl
@[simp] theorem State.setR_fcmd (k : Reg) (w : Word) : (s.setR k w).fcmd = s.fcmd := rfl
@[simp] theorem State.setR_seq (k : Reg) (w : Word) : (s.setR k w).seq = s.seq := rfl
@[simp] theorem State.setR_dinq (k : Reg) (w : Word) : (s.setR k w).dinq = s.dinq := rfl
@[simp] theorem State.setR_env (k : Reg) (w : Word) : (s.setR k w).env = s.env := rfl

@[simp] theorem State.setHS_r (ws : Vector Word 8) : (s.setHS ws).r = s.r := rfl
@[simp] theorem State.setHS_hs (ws : Vector Word 8) : (s.setHS ws).hs = filled ws := rfl
@[simp] theorem State.setHS_blk (ws : Vector Word 8) : (s.setHS ws).blk = s.blk := rfl
@[simp] theorem State.setHS_scratch (ws : Vector Word 8) : (s.setHS ws).scratch = s.scratch := rfl
@[simp] theorem State.setHS_status (ws : Vector Word 8) : (s.setHS ws).status = s.status := rfl
@[simp] theorem State.setHS_fcmd (ws : Vector Word 8) : (s.setHS ws).fcmd = s.fcmd := rfl
@[simp] theorem State.setHS_seq (ws : Vector Word 8) : (s.setHS ws).seq = s.seq := rfl
@[simp] theorem State.setHS_dinq (ws : Vector Word 8) : (s.setHS ws).dinq = s.dinq := rfl
@[simp] theorem State.setHS_env (ws : Vector Word 8) : (s.setHS ws).env = s.env := rfl

@[simp] theorem State.setBLK_r (ws : Vector Word 16) : (s.setBLK ws).r = s.r := rfl
@[simp] theorem State.setBLK_hs (ws : Vector Word 16) : (s.setBLK ws).hs = s.hs := rfl
@[simp] theorem State.setBLK_blk (ws : Vector Word 16) : (s.setBLK ws).blk = filled ws := rfl
@[simp] theorem State.setBLK_scratch (ws : Vector Word 16) : (s.setBLK ws).scratch = s.scratch := rfl
@[simp] theorem State.setBLK_status (ws : Vector Word 16) : (s.setBLK ws).status = s.status := rfl
@[simp] theorem State.setBLK_fcmd (ws : Vector Word 16) : (s.setBLK ws).fcmd = s.fcmd := rfl
@[simp] theorem State.setBLK_seq (ws : Vector Word 16) : (s.setBLK ws).seq = s.seq := rfl
@[simp] theorem State.setBLK_dinq (ws : Vector Word 16) : (s.setBLK ws).dinq = s.dinq := rfl
@[simp] theorem State.setBLK_env (ws : Vector Word 16) : (s.setBLK ws).env = s.env := rfl

@[simp] theorem State.setW_r (t : Fin 64) (w : Word) : (s.setW t w).r = s.r := rfl
@[simp] theorem State.setW_hs (t : Fin 64) (w : Word) : (s.setW t w).hs = s.hs := rfl
@[simp] theorem State.setW_blk (t : Fin 64) (w : Word) : (s.setW t w).blk = s.blk := rfl
@[simp] theorem State.setW_scratch_w (t : Fin 64) (w : Word) : (s.setW t w).scratch.w = s.scratch.w.set t.val (some w) := rfl
@[simp] theorem State.setW_scratch_v (t : Fin 64) (w : Word) : (s.setW t w).scratch.v = s.scratch.v := rfl
@[simp] theorem State.setW_scratch_t1 (t : Fin 64) (w : Word) : (s.setW t w).scratch.t1 = s.scratch.t1 := rfl
@[simp] theorem State.setW_scratch_t2 (t : Fin 64) (w : Word) : (s.setW t w).scratch.t2 = s.scratch.t2 := rfl
@[simp] theorem State.setW_scratch_ap (t : Fin 64) (w : Word) : (s.setW t w).scratch.ap = s.scratch.ap := rfl
@[simp] theorem State.setW_scratch_ag (t : Fin 64) (w : Word) : (s.setW t w).scratch.ag = s.scratch.ag := rfl
@[simp] theorem State.setW_scratch_ac (t : Fin 64) (w : Word) : (s.setW t w).scratch.ac = s.scratch.ac := rfl
@[simp] theorem State.setW_status (t : Fin 64) (w : Word) : (s.setW t w).status = s.status := rfl
@[simp] theorem State.setW_fcmd (t : Fin 64) (w : Word) : (s.setW t w).fcmd = s.fcmd := rfl
@[simp] theorem State.setW_seq (t : Fin 64) (w : Word) : (s.setW t w).seq = s.seq := rfl
@[simp] theorem State.setW_dinq (t : Fin 64) (w : Word) : (s.setW t w).dinq = s.dinq := rfl
@[simp] theorem State.setW_env (t : Fin 64) (w : Word) : (s.setW t w).env = s.env := rfl

@[simp] theorem State.setV_r (k : Fin 8) (w : Word) : (s.setV k w).r = s.r := rfl
@[simp] theorem State.setV_hs (k : Fin 8) (w : Word) : (s.setV k w).hs = s.hs := rfl
@[simp] theorem State.setV_blk (k : Fin 8) (w : Word) : (s.setV k w).blk = s.blk := rfl
@[simp] theorem State.setV_scratch_w (k : Fin 8) (w : Word) : (s.setV k w).scratch.w = s.scratch.w := rfl
@[simp] theorem State.setV_scratch_v (k : Fin 8) (w : Word) : (s.setV k w).scratch.v = s.scratch.v.set k.val (some w) := rfl
@[simp] theorem State.setV_scratch_t1 (k : Fin 8) (w : Word) : (s.setV k w).scratch.t1 = s.scratch.t1 := rfl
@[simp] theorem State.setV_scratch_t2 (k : Fin 8) (w : Word) : (s.setV k w).scratch.t2 = s.scratch.t2 := rfl
@[simp] theorem State.setV_scratch_ap (k : Fin 8) (w : Word) : (s.setV k w).scratch.ap = s.scratch.ap := rfl
@[simp] theorem State.setV_scratch_ag (k : Fin 8) (w : Word) : (s.setV k w).scratch.ag = s.scratch.ag := rfl
@[simp] theorem State.setV_scratch_ac (k : Fin 8) (w : Word) : (s.setV k w).scratch.ac = s.scratch.ac := rfl
@[simp] theorem State.setV_status (k : Fin 8) (w : Word) : (s.setV k w).status = s.status := rfl
@[simp] theorem State.setV_fcmd (k : Fin 8) (w : Word) : (s.setV k w).fcmd = s.fcmd := rfl
@[simp] theorem State.setV_seq (k : Fin 8) (w : Word) : (s.setV k w).seq = s.seq := rfl
@[simp] theorem State.setV_dinq (k : Fin 8) (w : Word) : (s.setV k w).dinq = s.dinq := rfl
@[simp] theorem State.setV_env (k : Fin 8) (w : Word) : (s.setV k w).env = s.env := rfl

@[simp] theorem State.setAllV_r (ws : Vector Word 8) : (s.setAllV ws).r = s.r := rfl
@[simp] theorem State.setAllV_hs (ws : Vector Word 8) : (s.setAllV ws).hs = s.hs := rfl
@[simp] theorem State.setAllV_blk (ws : Vector Word 8) : (s.setAllV ws).blk = s.blk := rfl
@[simp] theorem State.setAllV_scratch_w (ws : Vector Word 8) : (s.setAllV ws).scratch.w = s.scratch.w := rfl
@[simp] theorem State.setAllV_scratch_v (ws : Vector Word 8) : (s.setAllV ws).scratch.v = filled ws := rfl
@[simp] theorem State.setAllV_scratch_t1 (ws : Vector Word 8) : (s.setAllV ws).scratch.t1 = s.scratch.t1 := rfl
@[simp] theorem State.setAllV_scratch_t2 (ws : Vector Word 8) : (s.setAllV ws).scratch.t2 = s.scratch.t2 := rfl
@[simp] theorem State.setAllV_scratch_ap (ws : Vector Word 8) : (s.setAllV ws).scratch.ap = s.scratch.ap := rfl
@[simp] theorem State.setAllV_scratch_ag (ws : Vector Word 8) : (s.setAllV ws).scratch.ag = s.scratch.ag := rfl
@[simp] theorem State.setAllV_scratch_ac (ws : Vector Word 8) : (s.setAllV ws).scratch.ac = s.scratch.ac := rfl
@[simp] theorem State.setAllV_status (ws : Vector Word 8) : (s.setAllV ws).status = s.status := rfl
@[simp] theorem State.setAllV_fcmd (ws : Vector Word 8) : (s.setAllV ws).fcmd = s.fcmd := rfl
@[simp] theorem State.setAllV_seq (ws : Vector Word 8) : (s.setAllV ws).seq = s.seq := rfl
@[simp] theorem State.setAllV_dinq (ws : Vector Word 8) : (s.setAllV ws).dinq = s.dinq := rfl
@[simp] theorem State.setAllV_env (ws : Vector Word 8) : (s.setAllV ws).env = s.env := rfl

@[simp] theorem State.setT1_r (w : Word) : (s.setT1 w).r = s.r := rfl
@[simp] theorem State.setT1_hs (w : Word) : (s.setT1 w).hs = s.hs := rfl
@[simp] theorem State.setT1_blk (w : Word) : (s.setT1 w).blk = s.blk := rfl
@[simp] theorem State.setT1_scratch_w (w : Word) : (s.setT1 w).scratch.w = s.scratch.w := rfl
@[simp] theorem State.setT1_scratch_v (w : Word) : (s.setT1 w).scratch.v = s.scratch.v := rfl
@[simp] theorem State.setT1_scratch_t1 (w : Word) : (s.setT1 w).scratch.t1 = some w := rfl
@[simp] theorem State.setT1_scratch_t2 (w : Word) : (s.setT1 w).scratch.t2 = s.scratch.t2 := rfl
@[simp] theorem State.setT1_scratch_ap (w : Word) : (s.setT1 w).scratch.ap = s.scratch.ap := rfl
@[simp] theorem State.setT1_scratch_ag (w : Word) : (s.setT1 w).scratch.ag = s.scratch.ag := rfl
@[simp] theorem State.setT1_scratch_ac (w : Word) : (s.setT1 w).scratch.ac = s.scratch.ac := rfl
@[simp] theorem State.setT1_status (w : Word) : (s.setT1 w).status = s.status := rfl
@[simp] theorem State.setT1_fcmd (w : Word) : (s.setT1 w).fcmd = s.fcmd := rfl
@[simp] theorem State.setT1_seq (w : Word) : (s.setT1 w).seq = s.seq := rfl
@[simp] theorem State.setT1_dinq (w : Word) : (s.setT1 w).dinq = s.dinq := rfl
@[simp] theorem State.setT1_env (w : Word) : (s.setT1 w).env = s.env := rfl

@[simp] theorem State.setT2_r (w : Word) : (s.setT2 w).r = s.r := rfl
@[simp] theorem State.setT2_hs (w : Word) : (s.setT2 w).hs = s.hs := rfl
@[simp] theorem State.setT2_blk (w : Word) : (s.setT2 w).blk = s.blk := rfl
@[simp] theorem State.setT2_scratch_w (w : Word) : (s.setT2 w).scratch.w = s.scratch.w := rfl
@[simp] theorem State.setT2_scratch_v (w : Word) : (s.setT2 w).scratch.v = s.scratch.v := rfl
@[simp] theorem State.setT2_scratch_t1 (w : Word) : (s.setT2 w).scratch.t1 = s.scratch.t1 := rfl
@[simp] theorem State.setT2_scratch_t2 (w : Word) : (s.setT2 w).scratch.t2 = some w := rfl
@[simp] theorem State.setT2_scratch_ap (w : Word) : (s.setT2 w).scratch.ap = s.scratch.ap := rfl
@[simp] theorem State.setT2_scratch_ag (w : Word) : (s.setT2 w).scratch.ag = s.scratch.ag := rfl
@[simp] theorem State.setT2_scratch_ac (w : Word) : (s.setT2 w).scratch.ac = s.scratch.ac := rfl
@[simp] theorem State.setT2_status (w : Word) : (s.setT2 w).status = s.status := rfl
@[simp] theorem State.setT2_fcmd (w : Word) : (s.setT2 w).fcmd = s.fcmd := rfl
@[simp] theorem State.setT2_seq (w : Word) : (s.setT2 w).seq = s.seq := rfl
@[simp] theorem State.setT2_dinq (w : Word) : (s.setT2 w).dinq = s.dinq := rfl
@[simp] theorem State.setT2_env (w : Word) : (s.setT2 w).env = s.env := rfl

@[simp] theorem State.setAP_r (w : Word) : (s.setAP w).r = s.r := rfl
@[simp] theorem State.setAP_hs (w : Word) : (s.setAP w).hs = s.hs := rfl
@[simp] theorem State.setAP_blk (w : Word) : (s.setAP w).blk = s.blk := rfl
@[simp] theorem State.setAP_scratch_w (w : Word) : (s.setAP w).scratch.w = s.scratch.w := rfl
@[simp] theorem State.setAP_scratch_v (w : Word) : (s.setAP w).scratch.v = s.scratch.v := rfl
@[simp] theorem State.setAP_scratch_t1 (w : Word) : (s.setAP w).scratch.t1 = s.scratch.t1 := rfl
@[simp] theorem State.setAP_scratch_t2 (w : Word) : (s.setAP w).scratch.t2 = s.scratch.t2 := rfl
@[simp] theorem State.setAP_scratch_ap (w : Word) : (s.setAP w).scratch.ap = some w := rfl
@[simp] theorem State.setAP_scratch_ag (w : Word) : (s.setAP w).scratch.ag = s.scratch.ag := rfl
@[simp] theorem State.setAP_scratch_ac (w : Word) : (s.setAP w).scratch.ac = s.scratch.ac := rfl
@[simp] theorem State.setAP_status (w : Word) : (s.setAP w).status = s.status := rfl
@[simp] theorem State.setAP_fcmd (w : Word) : (s.setAP w).fcmd = s.fcmd := rfl
@[simp] theorem State.setAP_seq (w : Word) : (s.setAP w).seq = s.seq := rfl
@[simp] theorem State.setAP_dinq (w : Word) : (s.setAP w).dinq = s.dinq := rfl
@[simp] theorem State.setAP_env (w : Word) : (s.setAP w).env = s.env := rfl

@[simp] theorem State.setAG_r (w : Word) : (s.setAG w).r = s.r := rfl
@[simp] theorem State.setAG_hs (w : Word) : (s.setAG w).hs = s.hs := rfl
@[simp] theorem State.setAG_blk (w : Word) : (s.setAG w).blk = s.blk := rfl
@[simp] theorem State.setAG_scratch_w (w : Word) : (s.setAG w).scratch.w = s.scratch.w := rfl
@[simp] theorem State.setAG_scratch_v (w : Word) : (s.setAG w).scratch.v = s.scratch.v := rfl
@[simp] theorem State.setAG_scratch_t1 (w : Word) : (s.setAG w).scratch.t1 = s.scratch.t1 := rfl
@[simp] theorem State.setAG_scratch_t2 (w : Word) : (s.setAG w).scratch.t2 = s.scratch.t2 := rfl
@[simp] theorem State.setAG_scratch_ap (w : Word) : (s.setAG w).scratch.ap = s.scratch.ap := rfl
@[simp] theorem State.setAG_scratch_ag (w : Word) : (s.setAG w).scratch.ag = some w := rfl
@[simp] theorem State.setAG_scratch_ac (w : Word) : (s.setAG w).scratch.ac = s.scratch.ac := rfl
@[simp] theorem State.setAG_status (w : Word) : (s.setAG w).status = s.status := rfl
@[simp] theorem State.setAG_fcmd (w : Word) : (s.setAG w).fcmd = s.fcmd := rfl
@[simp] theorem State.setAG_seq (w : Word) : (s.setAG w).seq = s.seq := rfl
@[simp] theorem State.setAG_dinq (w : Word) : (s.setAG w).dinq = s.dinq := rfl
@[simp] theorem State.setAG_env (w : Word) : (s.setAG w).env = s.env := rfl

@[simp] theorem State.setAC_r (w : Word) : (s.setAC w).r = s.r := rfl
@[simp] theorem State.setAC_hs (w : Word) : (s.setAC w).hs = s.hs := rfl
@[simp] theorem State.setAC_blk (w : Word) : (s.setAC w).blk = s.blk := rfl
@[simp] theorem State.setAC_scratch_w (w : Word) : (s.setAC w).scratch.w = s.scratch.w := rfl
@[simp] theorem State.setAC_scratch_v (w : Word) : (s.setAC w).scratch.v = s.scratch.v := rfl
@[simp] theorem State.setAC_scratch_t1 (w : Word) : (s.setAC w).scratch.t1 = s.scratch.t1 := rfl
@[simp] theorem State.setAC_scratch_t2 (w : Word) : (s.setAC w).scratch.t2 = s.scratch.t2 := rfl
@[simp] theorem State.setAC_scratch_ap (w : Word) : (s.setAC w).scratch.ap = s.scratch.ap := rfl
@[simp] theorem State.setAC_scratch_ag (w : Word) : (s.setAC w).scratch.ag = s.scratch.ag := rfl
@[simp] theorem State.setAC_scratch_ac (w : Word) : (s.setAC w).scratch.ac = some w := rfl
@[simp] theorem State.setAC_status (w : Word) : (s.setAC w).status = s.status := rfl
@[simp] theorem State.setAC_fcmd (w : Word) : (s.setAC w).fcmd = s.fcmd := rfl
@[simp] theorem State.setAC_seq (w : Word) : (s.setAC w).seq = s.seq := rfl
@[simp] theorem State.setAC_dinq (w : Word) : (s.setAC w).dinq = s.dinq := rfl
@[simp] theorem State.setAC_env (w : Word) : (s.setAC w).env = s.env := rfl

@[simp] theorem State.clearAdder_r : s.clearAdder.r = s.r := rfl
@[simp] theorem State.clearAdder_hs : s.clearAdder.hs = s.hs := rfl
@[simp] theorem State.clearAdder_blk : s.clearAdder.blk = s.blk := rfl
@[simp] theorem State.clearAdder_scratch_w : s.clearAdder.scratch.w = s.scratch.w := rfl
@[simp] theorem State.clearAdder_scratch_v : s.clearAdder.scratch.v = s.scratch.v := rfl
@[simp] theorem State.clearAdder_scratch_t1 : s.clearAdder.scratch.t1 = s.scratch.t1 := rfl
@[simp] theorem State.clearAdder_scratch_t2 : s.clearAdder.scratch.t2 = s.scratch.t2 := rfl
@[simp] theorem State.clearAdder_scratch_ap : s.clearAdder.scratch.ap = none := rfl
@[simp] theorem State.clearAdder_scratch_ag : s.clearAdder.scratch.ag = none := rfl
@[simp] theorem State.clearAdder_scratch_ac : s.clearAdder.scratch.ac = none := rfl
@[simp] theorem State.clearAdder_status : s.clearAdder.status = s.status := rfl
@[simp] theorem State.clearAdder_fcmd : s.clearAdder.fcmd = s.fcmd := rfl
@[simp] theorem State.clearAdder_seq : s.clearAdder.seq = s.seq := rfl
@[simp] theorem State.clearAdder_dinq : s.clearAdder.dinq = s.dinq := rfl
@[simp] theorem State.clearAdder_env : s.clearAdder.env = s.env := rfl

@[simp] theorem State.clearRounds_r : s.clearRounds.r = s.r := rfl
@[simp] theorem State.clearRounds_hs : s.clearRounds.hs = s.hs := rfl
@[simp] theorem State.clearRounds_blk : s.clearRounds.blk = s.blk := rfl
@[simp] theorem State.clearRounds_scratch_w : s.clearRounds.scratch.w = Vector.replicate 64 none := rfl
@[simp] theorem State.clearRounds_scratch_v : s.clearRounds.scratch.v = Vector.replicate 8 none := rfl
@[simp] theorem State.clearRounds_scratch_t1 : s.clearRounds.scratch.t1 = none := rfl
@[simp] theorem State.clearRounds_scratch_t2 : s.clearRounds.scratch.t2 = none := rfl
@[simp] theorem State.clearRounds_scratch_ap : s.clearRounds.scratch.ap = s.scratch.ap := rfl
@[simp] theorem State.clearRounds_scratch_ag : s.clearRounds.scratch.ag = s.scratch.ag := rfl
@[simp] theorem State.clearRounds_scratch_ac : s.clearRounds.scratch.ac = s.scratch.ac := rfl
@[simp] theorem State.clearRounds_status : s.clearRounds.status = s.status := rfl
@[simp] theorem State.clearRounds_fcmd : s.clearRounds.fcmd = s.fcmd := rfl
@[simp] theorem State.clearRounds_seq : s.clearRounds.seq = s.seq := rfl
@[simp] theorem State.clearRounds_dinq : s.clearRounds.dinq = s.dinq := rfl
@[simp] theorem State.clearRounds_env : s.clearRounds.env = s.env := rfl

@[simp] theorem State.setPhase_r (p : Phase) : (s.setPhase p).r = s.r := rfl
@[simp] theorem State.setPhase_hs (p : Phase) : (s.setPhase p).hs = s.hs := rfl
@[simp] theorem State.setPhase_blk (p : Phase) : (s.setPhase p).blk = s.blk := rfl
@[simp] theorem State.setPhase_scratch (p : Phase) : (s.setPhase p).scratch = s.scratch := rfl
@[simp] theorem State.setPhase_status (p : Phase) : (s.setPhase p).status = s.status := rfl
@[simp] theorem State.setPhase_fcmd (p : Phase) : (s.setPhase p).fcmd = s.fcmd := rfl
@[simp] theorem State.setPhase_seq_cmd (p : Phase) : (s.setPhase p).seq.cmd = s.seq.cmd := rfl
@[simp] theorem State.setPhase_seq_phase (p : Phase) : (s.setPhase p).seq.phase = p := rfl
@[simp] theorem State.setPhase_seq_t (p : Phase) : (s.setPhase p).seq.t = s.seq.t := rfl
@[simp] theorem State.setPhase_seq_blkLeft (p : Phase) : (s.setPhase p).seq.blkLeft = s.seq.blkLeft := rfl
@[simp] theorem State.setPhase_seq_ci (p : Phase) : (s.setPhase p).seq.ci = s.seq.ci := rfl
@[simp] theorem State.setPhase_dinq (p : Phase) : (s.setPhase p).dinq = s.dinq := rfl
@[simp] theorem State.setPhase_env (p : Phase) : (s.setPhase p).env = s.env := rfl

@[simp] theorem State.setT_r (t : Fin 64) : (s.setT t).r = s.r := rfl
@[simp] theorem State.setT_hs (t : Fin 64) : (s.setT t).hs = s.hs := rfl
@[simp] theorem State.setT_blk (t : Fin 64) : (s.setT t).blk = s.blk := rfl
@[simp] theorem State.setT_scratch (t : Fin 64) : (s.setT t).scratch = s.scratch := rfl
@[simp] theorem State.setT_status (t : Fin 64) : (s.setT t).status = s.status := rfl
@[simp] theorem State.setT_fcmd (t : Fin 64) : (s.setT t).fcmd = s.fcmd := rfl
@[simp] theorem State.setT_seq_cmd (t : Fin 64) : (s.setT t).seq.cmd = s.seq.cmd := rfl
@[simp] theorem State.setT_seq_phase (t : Fin 64) : (s.setT t).seq.phase = s.seq.phase := rfl
@[simp] theorem State.setT_seq_t (t : Fin 64) : (s.setT t).seq.t = t := rfl
@[simp] theorem State.setT_seq_blkLeft (t : Fin 64) : (s.setT t).seq.blkLeft = s.seq.blkLeft := rfl
@[simp] theorem State.setT_seq_ci (t : Fin 64) : (s.setT t).seq.ci = s.seq.ci := rfl
@[simp] theorem State.setT_dinq (t : Fin 64) : (s.setT t).dinq = s.dinq := rfl
@[simp] theorem State.setT_env (t : Fin 64) : (s.setT t).env = s.env := rfl

@[simp] theorem State.setBlkLeft_r (n : U32) : (s.setBlkLeft n).r = s.r := rfl
@[simp] theorem State.setBlkLeft_hs (n : U32) : (s.setBlkLeft n).hs = s.hs := rfl
@[simp] theorem State.setBlkLeft_blk (n : U32) : (s.setBlkLeft n).blk = s.blk := rfl
@[simp] theorem State.setBlkLeft_scratch (n : U32) : (s.setBlkLeft n).scratch = s.scratch := rfl
@[simp] theorem State.setBlkLeft_status (n : U32) : (s.setBlkLeft n).status = s.status := rfl
@[simp] theorem State.setBlkLeft_fcmd (n : U32) : (s.setBlkLeft n).fcmd = s.fcmd := rfl
@[simp] theorem State.setBlkLeft_seq_cmd (n : U32) : (s.setBlkLeft n).seq.cmd = s.seq.cmd := rfl
@[simp] theorem State.setBlkLeft_seq_phase (n : U32) : (s.setBlkLeft n).seq.phase = s.seq.phase := rfl
@[simp] theorem State.setBlkLeft_seq_t (n : U32) : (s.setBlkLeft n).seq.t = s.seq.t := rfl
@[simp] theorem State.setBlkLeft_seq_blkLeft (n : U32) : (s.setBlkLeft n).seq.blkLeft = n := rfl
@[simp] theorem State.setBlkLeft_seq_ci (n : U32) : (s.setBlkLeft n).seq.ci = s.seq.ci := rfl
@[simp] theorem State.setBlkLeft_dinq (n : U32) : (s.setBlkLeft n).dinq = s.dinq := rfl
@[simp] theorem State.setBlkLeft_env (n : U32) : (s.setBlkLeft n).env = s.env := rfl

@[simp] theorem State.setCI_r (i : Fin 32) : (s.setCI i).r = s.r := rfl
@[simp] theorem State.setCI_hs (i : Fin 32) : (s.setCI i).hs = s.hs := rfl
@[simp] theorem State.setCI_blk (i : Fin 32) : (s.setCI i).blk = s.blk := rfl
@[simp] theorem State.setCI_scratch (i : Fin 32) : (s.setCI i).scratch = s.scratch := rfl
@[simp] theorem State.setCI_status (i : Fin 32) : (s.setCI i).status = s.status := rfl
@[simp] theorem State.setCI_fcmd (i : Fin 32) : (s.setCI i).fcmd = s.fcmd := rfl
@[simp] theorem State.setCI_seq_cmd (i : Fin 32) : (s.setCI i).seq.cmd = s.seq.cmd := rfl
@[simp] theorem State.setCI_seq_phase (i : Fin 32) : (s.setCI i).seq.phase = s.seq.phase := rfl
@[simp] theorem State.setCI_seq_t (i : Fin 32) : (s.setCI i).seq.t = s.seq.t := rfl
@[simp] theorem State.setCI_seq_blkLeft (i : Fin 32) : (s.setCI i).seq.blkLeft = s.seq.blkLeft := rfl
@[simp] theorem State.setCI_seq_ci (i : Fin 32) : (s.setCI i).seq.ci = i := rfl
@[simp] theorem State.setCI_dinq (i : Fin 32) : (s.setCI i).dinq = s.dinq := rfl
@[simp] theorem State.setCI_env (i : Fin 32) : (s.setCI i).env = s.env := rfl

@[simp] theorem State.setDinq_r (q : List Frame) : (s.setDinq q).r = s.r := rfl
@[simp] theorem State.setDinq_hs (q : List Frame) : (s.setDinq q).hs = s.hs := rfl
@[simp] theorem State.setDinq_blk (q : List Frame) : (s.setDinq q).blk = s.blk := rfl
@[simp] theorem State.setDinq_scratch (q : List Frame) : (s.setDinq q).scratch = s.scratch := rfl
@[simp] theorem State.setDinq_status (q : List Frame) : (s.setDinq q).status = s.status := rfl
@[simp] theorem State.setDinq_fcmd (q : List Frame) : (s.setDinq q).fcmd = s.fcmd := rfl
@[simp] theorem State.setDinq_seq (q : List Frame) : (s.setDinq q).seq = s.seq := rfl
@[simp] theorem State.setDinq_dinq (q : List Frame) : (s.setDinq q).dinq = q := rfl
@[simp] theorem State.setDinq_env (q : List Frame) : (s.setDinq q).env = s.env := rfl

@[simp] theorem State.setHost_r (es : List HostEvent) : (s.setHost es).r = s.r := rfl
@[simp] theorem State.setHost_hs (es : List HostEvent) : (s.setHost es).hs = s.hs := rfl
@[simp] theorem State.setHost_blk (es : List HostEvent) : (s.setHost es).blk = s.blk := rfl
@[simp] theorem State.setHost_scratch (es : List HostEvent) : (s.setHost es).scratch = s.scratch := rfl
@[simp] theorem State.setHost_status (es : List HostEvent) : (s.setHost es).status = s.status := rfl
@[simp] theorem State.setHost_fcmd (es : List HostEvent) : (s.setHost es).fcmd = s.fcmd := rfl
@[simp] theorem State.setHost_seq (es : List HostEvent) : (s.setHost es).seq = s.seq := rfl
@[simp] theorem State.setHost_dinq (es : List HostEvent) : (s.setHost es).dinq = s.dinq := rfl
@[simp] theorem State.setHost_env_host (es : List HostEvent) : (s.setHost es).env.host = es := rfl
@[simp] theorem State.setHost_env_dout (es : List HostEvent) : (s.setHost es).env.dout = s.env.dout := rfl
@[simp] theorem State.setHost_env_ctxDraws (es : List HostEvent) : (s.setHost es).env.ctxDraws = s.env.ctxDraws := rfl
@[simp] theorem State.setHost_env_workerDraws (es : List HostEvent) : (s.setHost es).env.workerDraws = s.env.workerDraws := rfl

@[simp] theorem State.emit_r (w : Word) : (s.emit w).r = s.r := rfl
@[simp] theorem State.emit_hs (w : Word) : (s.emit w).hs = s.hs := rfl
@[simp] theorem State.emit_blk (w : Word) : (s.emit w).blk = s.blk := rfl
@[simp] theorem State.emit_scratch (w : Word) : (s.emit w).scratch = s.scratch := rfl
@[simp] theorem State.emit_status (w : Word) : (s.emit w).status = s.status := rfl
@[simp] theorem State.emit_fcmd (w : Word) : (s.emit w).fcmd = s.fcmd := rfl
@[simp] theorem State.emit_seq (w : Word) : (s.emit w).seq = s.seq := rfl
@[simp] theorem State.emit_dinq (w : Word) : (s.emit w).dinq = s.dinq := rfl
@[simp] theorem State.emit_env_host (w : Word) : (s.emit w).env.host = s.env.host := rfl
@[simp] theorem State.emit_env_dout (w : Word) : (s.emit w).env.dout = s.env.dout ++ [w] := rfl
@[simp] theorem State.emit_env_ctxDraws (w : Word) : (s.emit w).env.ctxDraws = s.env.ctxDraws := rfl
@[simp] theorem State.emit_env_workerDraws (w : Word) : (s.emit w).env.workerDraws = s.env.workerDraws := rfl

@[simp] theorem State.dropCtx_r (n : Nat) : (s.dropCtx n).r = s.r := rfl
@[simp] theorem State.dropCtx_hs (n : Nat) : (s.dropCtx n).hs = s.hs := rfl
@[simp] theorem State.dropCtx_blk (n : Nat) : (s.dropCtx n).blk = s.blk := rfl
@[simp] theorem State.dropCtx_scratch (n : Nat) : (s.dropCtx n).scratch = s.scratch := rfl
@[simp] theorem State.dropCtx_status (n : Nat) : (s.dropCtx n).status = s.status := rfl
@[simp] theorem State.dropCtx_fcmd (n : Nat) : (s.dropCtx n).fcmd = s.fcmd := rfl
@[simp] theorem State.dropCtx_seq (n : Nat) : (s.dropCtx n).seq = s.seq := rfl
@[simp] theorem State.dropCtx_dinq (n : Nat) : (s.dropCtx n).dinq = s.dinq := rfl
@[simp] theorem State.dropCtx_env_host (n : Nat) : (s.dropCtx n).env.host = s.env.host := rfl
@[simp] theorem State.dropCtx_env_dout (n : Nat) : (s.dropCtx n).env.dout = s.env.dout := rfl
@[simp] theorem State.dropCtx_env_ctxDraws (n : Nat) : (s.dropCtx n).env.ctxDraws = s.env.ctxDraws.drop n := rfl
@[simp] theorem State.dropCtx_env_workerDraws (n : Nat) : (s.dropCtx n).env.workerDraws = s.env.workerDraws := rfl

@[simp] theorem State.dropWorkers_r (n : Nat) : (s.dropWorkers n).r = s.r := rfl
@[simp] theorem State.dropWorkers_hs (n : Nat) : (s.dropWorkers n).hs = s.hs := rfl
@[simp] theorem State.dropWorkers_blk (n : Nat) : (s.dropWorkers n).blk = s.blk := rfl
@[simp] theorem State.dropWorkers_scratch (n : Nat) : (s.dropWorkers n).scratch = s.scratch := rfl
@[simp] theorem State.dropWorkers_status (n : Nat) : (s.dropWorkers n).status = s.status := rfl
@[simp] theorem State.dropWorkers_fcmd (n : Nat) : (s.dropWorkers n).fcmd = s.fcmd := rfl
@[simp] theorem State.dropWorkers_seq (n : Nat) : (s.dropWorkers n).seq = s.seq := rfl
@[simp] theorem State.dropWorkers_dinq (n : Nat) : (s.dropWorkers n).dinq = s.dinq := rfl
@[simp] theorem State.dropWorkers_env_host (n : Nat) : (s.dropWorkers n).env.host = s.env.host := rfl
@[simp] theorem State.dropWorkers_env_dout (n : Nat) : (s.dropWorkers n).env.dout = s.env.dout := rfl
@[simp] theorem State.dropWorkers_env_ctxDraws (n : Nat) : (s.dropWorkers n).env.ctxDraws = s.env.ctxDraws := rfl
@[simp] theorem State.dropWorkers_env_workerDraws (n : Nat) : (s.dropWorkers n).env.workerDraws = s.env.workerDraws.drop n := rfl

@[simp] theorem State.accept_r (cw : CmdWord) : (s.accept cw).r = s.r := rfl
@[simp] theorem State.accept_hs (cw : CmdWord) : (s.accept cw).hs = s.hs := rfl
@[simp] theorem State.accept_blk (cw : CmdWord) : (s.accept cw).blk = s.blk := rfl
@[simp] theorem State.accept_scratch (cw : CmdWord) : (s.accept cw).scratch = s.scratch := rfl
@[simp] theorem State.accept_status_state (cw : CmdWord) : (s.accept cw).status.state = .busy := rfl
@[simp] theorem State.accept_status_fault (cw : CmdWord) : (s.accept cw).status.fault = s.status.fault := rfl
@[simp] theorem State.accept_fcmd (cw : CmdWord) : (s.accept cw).fcmd = s.fcmd := rfl
@[simp] theorem State.accept_seq (cw : CmdWord) : (s.accept cw).seq = { Seq.idle with cmd := cw } := rfl
@[simp] theorem State.accept_dinq (cw : CmdWord) : (s.accept cw).dinq = s.dinq := rfl
@[simp] theorem State.accept_env (cw : CmdWord) : (s.accept cw).env = s.env := rfl

@[simp] theorem State.complete_r : s.complete.r = s.r := rfl
@[simp] theorem State.complete_hs : s.complete.hs = s.hs := rfl
@[simp] theorem State.complete_blk : s.complete.blk = s.blk := rfl
@[simp] theorem State.complete_scratch : s.complete.scratch = s.scratch := rfl
@[simp] theorem State.complete_status_state : s.complete.status.state = .idle := rfl
@[simp] theorem State.complete_status_fault : s.complete.status.fault = s.status.fault := rfl
@[simp] theorem State.complete_fcmd : s.complete.fcmd = s.fcmd := rfl
@[simp] theorem State.complete_seq : s.complete.seq = Seq.idle := rfl
@[simp] theorem State.complete_dinq : s.complete.dinq = s.dinq := rfl
@[simp] theorem State.complete_env : s.complete.env = s.env := rfl

@[simp] theorem State.takeFault_r (c : FaultCode) : (s.takeFault c).r = s.r := rfl
@[simp] theorem State.takeFault_hs (c : FaultCode) : (s.takeFault c).hs = s.hs := rfl
@[simp] theorem State.takeFault_blk (c : FaultCode) : (s.takeFault c).blk = s.blk := rfl
@[simp] theorem State.takeFault_scratch (c : FaultCode) : (s.takeFault c).scratch = s.scratch := rfl
@[simp] theorem State.takeFault_status (c : FaultCode) : (s.takeFault c).status = ⟨.fatal, some c⟩ := rfl
@[simp] theorem State.takeFault_fcmd (c : FaultCode) : (s.takeFault c).fcmd = s.seq.cmd := rfl
@[simp] theorem State.takeFault_seq (c : FaultCode) : (s.takeFault c).seq = s.seq := rfl
@[simp] theorem State.takeFault_dinq (c : FaultCode) : (s.takeFault c).dinq = s.dinq := rfl
@[simp] theorem State.takeFault_env (c : FaultCode) : (s.takeFault c).env = s.env := rfl

@[simp] theorem State.resetEvent_r : s.resetEvent.r = Vector.replicate 16 none := rfl
@[simp] theorem State.resetEvent_hs : s.resetEvent.hs = Vector.replicate 8 none := rfl
@[simp] theorem State.resetEvent_blk : s.resetEvent.blk = Vector.replicate 16 none := rfl
@[simp] theorem State.resetEvent_scratch : s.resetEvent.scratch = Scratch.empty := rfl
@[simp] theorem State.resetEvent_status : s.resetEvent.status = ⟨.idle, none⟩ := rfl
@[simp] theorem State.resetEvent_fcmd : s.resetEvent.fcmd = 0 := rfl
@[simp] theorem State.resetEvent_seq : s.resetEvent.seq = Seq.idle := rfl
@[simp] theorem State.resetEvent_dinq : s.resetEvent.dinq = [] := rfl
@[simp] theorem State.resetEvent_env : s.resetEvent.env = s.env := rfl

end Sys2Proof.Machine
end

