-- ==== Sys2Proof/Laws/Micro.lean ====
section
/-!
SUPPORT. How a stretch of the sequencer's work runs: sequencing, the draws, and what each primitive can do.
-/

namespace Sys2Proof.Machine

/-! Sequencing. -/

theorem bind_ok {α β : Type} {m : Micro α} {f : α → Micro β} {s t : State} {a : α} (h : m s = .ok a t) :
    (m >>= f) s = f a t := by
  simp only [bind, EStateM.bind, h]

theorem bind_error {α β : Type} {m : Micro α} {f : α → Micro β} {s t : State} {e : Stop}
    (h : m s = .error e t) : (m >>= f) s = .error e t := by
  simp only [bind, EStateM.bind, h]

@[simp] theorem pure_run {α : Type} (a : α) (s : State) : (pure a : Micro α) s = .ok a s := rfl

@[simp] theorem update_run (f : State → State) (s : State) : update f s = .ok () (f s) := rfl

@[simp] theorem raise_run {α : Type} (c : FaultCode) (s : State) :
    (raise c : Micro α) s = .error .faulted (s.takeFault c) := rfl

@[simp] theorem bind_update {β : Type} (f : State → State) (k : Unit → Micro β) (s : State) :
    (update f >>= k) s = k () (f s) := rfl

theorem readElement_some {x : State → Option Word} {s : State} {w : Word} (h : x s = some w) :
    readElement x s = .ok w s := by
  simp only [readElement, h]

theorem readElement_none {x : State → Option Word} {s : State} (h : x s = none) :
    readElement x s = .error .faulted (s.takeFault .fShape) := by
  simp only [readElement, h]

theorem runCommand_ok {m : Micro Unit} {s t : State} {u : Unit} (h : m s = .ok u t) :
    runCommand m s = .next t.complete := by
  simp only [runCommand, h]

theorem runCommand_error {m : Micro Unit} {s t : State} {e : Stop} (h : m s = .error e t) :
    runCommand m s = .next t := by
  simp only [runCommand, h]

/-- A command always answers a next state. -/
theorem runCommand_next (m : Micro Unit) (s : State) : ∃ t, runCommand m s = .next t := by
  unfold runCommand
  split <;> exact ⟨_, rfl⟩

/-! The loops. -/

/-- What a loop that starts at index 0 of `collect` yields when each body does: `T i` is the state before body i. -/
theorem collect_ok {α : Type} {P : (i : Nat) → α → Prop} {T : Nat → State} :
    ∀ {n : Nat} {f : Fin n → Micro α},
      (∀ i : Fin n, ∃ a, P i a ∧ f i (T i) = .ok a (T (i + 1))) →
      ∃ xs : Vector α n, (∀ i : Fin n, P i xs[i]) ∧ collect n f (T 0) = .ok xs (T n) := by
  intro n
  induction n with
  | zero => exact fun _ => ⟨#v[], fun i => i.elim0, rfl⟩
  | succ n ih =>
    intro f h
    obtain ⟨xs, hxs, hrun⟩ := ih (f := fun i => f i.castSucc) fun i => h i.castSucc
    obtain ⟨a, ha, hlast⟩ := h (Fin.last n)
    refine ⟨xs.push a, ?_, ?_⟩
    · intro i
      rcases Nat.lt_or_ge i.val n with hi | hi
      · have := hxs ⟨i.val, hi⟩
        simpa [Vector.getElem_push, hi] using this
      · have : i.val = n := by omega
        have hn : ¬ i.val < n := by omega
        simpa [Vector.getElem_push, hn, this] using ha
    · rw [collect, bind_ok hrun]
      exact bind_ok hlast

/-- What `forRange` does when each body does: `T i` is the state before the body of index `lo + i`. -/
theorem forRange_ok {lo : Nat} {body : Nat → Micro Unit} {T : Nat → State} :
    ∀ {n : Nat}, (∀ i, i < n → body (lo + i) (T i) = .ok () (T (i + 1))) →
      forRange lo n body (T 0) = .ok () (T n) := by
  intro n
  induction n with
  | zero => exact fun _ => rfl
  | succ n ih =>
    intro h
    rw [forRange, bind_ok (ih fun i hi => h i (by omega))]
    exact h n (by omega)

/-- An invariant of `forRange`: if each body keeps the chain of assertions, the last one holds at the end. -/
theorem forRange_inv {lo : Nat} {body : Nat → Micro Unit} {Q : Nat → State → Prop} {s : State} (h0 : Q 0 s) :
    ∀ {n : Nat}, (∀ i t, i < n → Q i t → ∃ t', body (lo + i) t = .ok () t' ∧ Q (i + 1) t') →
      ∃ t, forRange lo n body s = .ok () t ∧ Q n t := by
  intro n
  induction n with
  | zero => exact fun _ => ⟨s, rfl, h0⟩
  | succ n ih =>
    intro h
    obtain ⟨t, hrun, ht⟩ := ih fun i t hi => h i t (by omega)
    obtain ⟨t', hbody, ht'⟩ := h n t (by omega) ht
    exact ⟨t', by rw [forRange, bind_ok hrun]; exact hbody, ht'⟩

/-! The draws. -/

theorem State.NoFailure.split {s : State} {c b c' b' : Nat} (h : s.NoFailure (c + c') (b + b')) :
    s.NoFailure c b ∧ (s.afterCalls c b).NoFailure c' b' := by
  simp only [State.NoFailure, State.afterCalls, State.dropCtx, State.dropWorkers, Nat.mul_add,
    List.take_add, List.any_append, Bool.or_eq_false_iff] at *
  exact ⟨⟨h.1.1, h.2.1⟩, h.1.2, h.2.2⟩

theorem State.NoFailure.join {s : State} {c b c' b' : Nat} (h : s.NoFailure c b)
    (h' : (s.afterCalls c b).NoFailure c' b') : s.NoFailure (c + c') (b + b') := by
  simp only [State.NoFailure, State.afterCalls, State.dropCtx, State.dropWorkers, Nat.mul_add,
    List.take_add, List.any_append, Bool.or_eq_false_iff] at *
  exact ⟨⟨h.1, h'.1⟩, h.2, h'.2⟩

/-- The draws in the middle of a longer stretch without failure. -/
theorem State.NoFailure.within {s : State} {c b : Nat} (h : s.NoFailure c b) (c1 b1 c2 b2 : Nat)
    (hc : c1 + c2 ≤ c) (hb : b1 + b2 ≤ b) : (s.afterCalls c1 b1).NoFailure c2 b2 := by
  obtain ⟨x, rfl⟩ := Nat.exists_eq_add_of_le hc
  obtain ⟨y, rfl⟩ := Nat.exists_eq_add_of_le hb
  exact h.split.1.split.2

/-- The premise concerns only the draws. -/
theorem State.NoFailure.of_draws {s t : State} {c b : Nat} (h : s.NoFailure c b)
    (hc : t.env.ctxDraws = s.env.ctxDraws) (hw : t.env.workerDraws = s.env.workerDraws) : t.NoFailure c b := by
  simpa only [State.NoFailure, hc, hw] using h

@[simp] theorem afterCalls_zero (s : State) : s.afterCalls 0 0 = s := rfl

@[simp] theorem afterCalls_afterCalls (s : State) (c b c' b' : Nat) :
    (s.afterCalls c b).afterCalls c' b' = s.afterCalls (c + c') (b + b') := by
  simp only [State.afterCalls, State.dropCtx, State.dropWorkers, List.drop_drop, Nat.mul_add]

/-! An update that leaves the draws alone neither changes the premise nor meets them. -/

@[simp] theorem noFailure_setR (s : State) (k : Reg) (w : Word) (c b : Nat) : (s.setR k w).NoFailure c b ↔ s.NoFailure c b := Iff.rfl

theorem setR_afterCalls (s : State) (k : Reg) (w : Word) (c b : Nat) : (s.setR k w).afterCalls c b = (s.afterCalls c b).setR k w := rfl

@[simp] theorem noFailure_setHS (s : State) (ws : Vector Word 8) (c b : Nat) : (s.setHS ws).NoFailure c b ↔ s.NoFailure c b := Iff.rfl

theorem setHS_afterCalls (s : State) (ws : Vector Word 8) (c b : Nat) : (s.setHS ws).afterCalls c b = (s.afterCalls c b).setHS ws := rfl

@[simp] theorem noFailure_setBLK (s : State) (ws : Vector Word 16) (c b : Nat) : (s.setBLK ws).NoFailure c b ↔ s.NoFailure c b := Iff.rfl

theorem setBLK_afterCalls (s : State) (ws : Vector Word 16) (c b : Nat) : (s.setBLK ws).afterCalls c b = (s.afterCalls c b).setBLK ws := rfl

@[simp] theorem noFailure_setW (s : State) (t : Fin 64) (w : Word) (c b : Nat) : (s.setW t w).NoFailure c b ↔ s.NoFailure c b := Iff.rfl

theorem setW_afterCalls (s : State) (t : Fin 64) (w : Word) (c b : Nat) : (s.setW t w).afterCalls c b = (s.afterCalls c b).setW t w := rfl

@[simp] theorem noFailure_setV (s : State) (k : Fin 8) (w : Word) (c b : Nat) : (s.setV k w).NoFailure c b ↔ s.NoFailure c b := Iff.rfl

theorem setV_afterCalls (s : State) (k : Fin 8) (w : Word) (c b : Nat) : (s.setV k w).afterCalls c b = (s.afterCalls c b).setV k w := rfl

@[simp] theorem noFailure_setAllV (s : State) (ws : Vector Word 8) (c b : Nat) : (s.setAllV ws).NoFailure c b ↔ s.NoFailure c b := Iff.rfl

theorem setAllV_afterCalls (s : State) (ws : Vector Word 8) (c b : Nat) : (s.setAllV ws).afterCalls c b = (s.afterCalls c b).setAllV ws := rfl

@[simp] theorem noFailure_setT1 (s : State) (w : Word) (c b : Nat) : (s.setT1 w).NoFailure c b ↔ s.NoFailure c b := Iff.rfl

theorem setT1_afterCalls (s : State) (w : Word) (c b : Nat) : (s.setT1 w).afterCalls c b = (s.afterCalls c b).setT1 w := rfl

@[simp] theorem noFailure_setT2 (s : State) (w : Word) (c b : Nat) : (s.setT2 w).NoFailure c b ↔ s.NoFailure c b := Iff.rfl

theorem setT2_afterCalls (s : State) (w : Word) (c b : Nat) : (s.setT2 w).afterCalls c b = (s.afterCalls c b).setT2 w := rfl

@[simp] theorem noFailure_setAP (s : State) (w : Word) (c b : Nat) : (s.setAP w).NoFailure c b ↔ s.NoFailure c b := Iff.rfl

theorem setAP_afterCalls (s : State) (w : Word) (c b : Nat) : (s.setAP w).afterCalls c b = (s.afterCalls c b).setAP w := rfl

@[simp] theorem noFailure_setAG (s : State) (w : Word) (c b : Nat) : (s.setAG w).NoFailure c b ↔ s.NoFailure c b := Iff.rfl

theorem setAG_afterCalls (s : State) (w : Word) (c b : Nat) : (s.setAG w).afterCalls c b = (s.afterCalls c b).setAG w := rfl

@[simp] theorem noFailure_setAC (s : State) (w : Word) (c b : Nat) : (s.setAC w).NoFailure c b ↔ s.NoFailure c b := Iff.rfl

theorem setAC_afterCalls (s : State) (w : Word) (c b : Nat) : (s.setAC w).afterCalls c b = (s.afterCalls c b).setAC w := rfl

@[simp] theorem noFailure_clearAdder (s : State) (c b : Nat) : s.clearAdder.NoFailure c b ↔ s.NoFailure c b := Iff.rfl

theorem clearAdder_afterCalls (s : State) (c b : Nat) : s.clearAdder.afterCalls c b = (s.afterCalls c b).clearAdder := rfl

@[simp] theorem noFailure_clearRounds (s : State) (c b : Nat) : s.clearRounds.NoFailure c b ↔ s.NoFailure c b := Iff.rfl

theorem clearRounds_afterCalls (s : State) (c b : Nat) : s.clearRounds.afterCalls c b = (s.afterCalls c b).clearRounds := rfl

@[simp] theorem noFailure_setPhase (s : State) (p : Phase) (c b : Nat) : (s.setPhase p).NoFailure c b ↔ s.NoFailure c b := Iff.rfl

theorem setPhase_afterCalls (s : State) (p : Phase) (c b : Nat) : (s.setPhase p).afterCalls c b = (s.afterCalls c b).setPhase p := rfl

@[simp] theorem noFailure_setT (s : State) (t : Fin 64) (c b : Nat) : (s.setT t).NoFailure c b ↔ s.NoFailure c b := Iff.rfl

theorem setT_afterCalls (s : State) (t : Fin 64) (c b : Nat) : (s.setT t).afterCalls c b = (s.afterCalls c b).setT t := rfl

@[simp] theorem noFailure_setBlkLeft (s : State) (n : U32) (c b : Nat) : (s.setBlkLeft n).NoFailure c b ↔ s.NoFailure c b := Iff.rfl

theorem setBlkLeft_afterCalls (s : State) (n : U32) (c b : Nat) : (s.setBlkLeft n).afterCalls c b = (s.afterCalls c b).setBlkLeft n := rfl

@[simp] theorem noFailure_setCI (s : State) (i : Fin 32) (c b : Nat) : (s.setCI i).NoFailure c b ↔ s.NoFailure c b := Iff.rfl

theorem setCI_afterCalls (s : State) (i : Fin 32) (c b : Nat) : (s.setCI i).afterCalls c b = (s.afterCalls c b).setCI i := rfl

@[simp] theorem noFailure_setDinq (s : State) (q : List Frame) (c b : Nat) : (s.setDinq q).NoFailure c b ↔ s.NoFailure c b := Iff.rfl

theorem setDinq_afterCalls (s : State) (q : List Frame) (c b : Nat) : (s.setDinq q).afterCalls c b = (s.afterCalls c b).setDinq q := rfl

@[simp] theorem noFailure_setHost (s : State) (es : List HostEvent) (c b : Nat) : (s.setHost es).NoFailure c b ↔ s.NoFailure c b := Iff.rfl

theorem setHost_afterCalls (s : State) (es : List HostEvent) (c b : Nat) : (s.setHost es).afterCalls c b = (s.afterCalls c b).setHost es := rfl

@[simp] theorem noFailure_emit (s : State) (w : Word) (c b : Nat) : (s.emit w).NoFailure c b ↔ s.NoFailure c b := Iff.rfl

theorem emit_afterCalls (s : State) (w : Word) (c b : Nat) : (s.emit w).afterCalls c b = (s.afterCalls c b).emit w := rfl

@[simp] theorem noFailure_accept (s : State) (cw : CmdWord) (c b : Nat) : (s.accept cw).NoFailure c b ↔ s.NoFailure c b := Iff.rfl

theorem accept_afterCalls (s : State) (cw : CmdWord) (c b : Nat) : (s.accept cw).afterCalls c b = (s.afterCalls c b).accept cw := rfl

@[simp] theorem noFailure_complete (s : State) (c b : Nat) : s.complete.NoFailure c b ↔ s.NoFailure c b := Iff.rfl

theorem complete_afterCalls (s : State) (c b : Nat) : s.complete.afterCalls c b = (s.afterCalls c b).complete := rfl

/-! The primitives, when no failure is drawn. -/

theorem triv_ok {G : Capability} {b : Bool} {s : State} (h : s.NoFailure 1 0) :
    triv G b s = .ok (G.triv b) (s.afterCalls 1 0) := by
  simp only [triv, drawCtx, bind, EStateM.bind, h.1]
  rfl

theorem gate_ok {G : Capability} {k : GateKind} {a b : Ct} {s : State} (h : s.NoFailure 1 0) :
    gate G k a b s =
      .ok (match k with | .and => G.and a b | .xor => G.xor a b) (s.afterCalls 1 0) := by
  simp only [gate, drawCtx, bind, EStateM.bind, h.1]
  rfl

/-- The workers and the join put the gate of lane i at cell i (R113, R115). -/
theorem joinSlots_workerSlots (G : Capability) (q : BatchOp) :
    joinSlots (workerSlots G q) = Vector.ofFn fun i => q.lane G i := by
  ext i hi
  simp only [joinSlots, workerSlots, Vector.getElem_ofFn]
  congr 2
  exact Nat.div_add_mod i 4

theorem batch_ok {G : Capability} {q : BatchOp} {s : State} (h : s.NoFailure 32 1) :
    batch G q s = .ok (Vector.ofFn fun i => q.lane G i) (s.afterCalls 32 1) := by
  have h1 : (s.env.ctxDraws.take 32).any id = false := h.1
  have h2 : ((s.dropCtx 32).env.workerDraws.take 8).any id = false := h.2
  simp only [batch, drawCtx, drawWorkers, bind, EStateM.bind, Config.LANES, Config.NCHUNK, h1, h2,
    joinSlots_workerSlots]
  rfl

end Sys2Proof.Machine
end

