-- ==== Sys2Proof/Laws/Values.lean ====
section
/-!
SUPPORT. Plain values and cells (R9, R10): a value is known by its bits, and what relabelling and the gates of a batch do to it.
-/

namespace Sys2Proof.Machine

theorem digits_sum (n : Nat) (f : Fin n → Bool) :
    (List.ofFn fun i : Fin n => (f i).toNat * 2 ^ (n - 1 - i.val)).sum < 2 ^ n ∧
    ∀ j (h : j < n), (List.ofFn fun i : Fin n => (f i).toNat * 2 ^ (n - 1 - i.val)).sum.testBit j =
      f ⟨n - 1 - j, by omega⟩ := by
  induction n with
  | zero => simp
  | succ n ih =>
    obtain ⟨hlt, hbit⟩ := ih fun i => f i.succ
    have hrest : (List.ofFn fun i : Fin n => (f i.succ).toNat * 2 ^ (n + 1 - 1 - i.succ.val)) =
        List.ofFn fun i : Fin n => (f i.succ).toNat * 2 ^ (n - 1 - i.val) := by
      congr 1
      funext i
      congr 2
      simp
      omega
    rw [List.ofFn_succ, List.sum_cons, hrest]
    have hf : (f 0).toNat * 2 ^ (n + 1 - 1 - (0 : Fin (n + 1)).val) = 2 ^ n * (f 0).toNat := by
      simp [Nat.mul_comm]
    rw [hf]
    constructor
    · have : (f 0).toNat ≤ 1 := Bool.toNat_le _
      have : 2 ^ n * (f 0).toNat ≤ 2 ^ n * 1 := Nat.mul_le_mul_left _ this
      rw [Nat.pow_succ]
      omega
    · intro j hj
      rw [Nat.testBit_two_pow_mul_add _ hlt]
      split
      · rename_i h
        rw [hbit j h]
        congr 1
        ext
        simp
        omega
      · have : j = n := by omega
        subst this
        cases hb : f 0 <;> simp [hb]

/-- Digit `31 - i` of `val w` is the plain bit of cell i (R9, R10). -/
theorem bitOf_val (dec : Ct → Bool) (w : Word) (i : Fin 32) : bitOf (val dec w) i = dec w[i] := by
  have h := (digits_sum 32 fun i => dec w[i]).2 (31 - i.val) (by omega)
  simp only [bitOf, val]
  rw [BitVec.getLsbD_ofNat]
  have hlt : 31 - i.val < 32 := by omega
  simp only [hlt, decide_true, Bool.true_and]
  rw [show (31 : Nat) = 32 - 1 from rfl, h]
  have : (⟨32 - 1 - (31 - i.val), by omega⟩ : Fin 32) = i := by
    ext
    simp
    omega
  exact congrArg (fun i : Fin 32 => dec w[i]) this

/-- Two plain values with the same digits are the same. -/
theorem eq_of_bitOf {v u : U32} (h : ∀ i, bitOf v i = bitOf u i) : v = u := by
  apply BitVec.eq_of_getLsbD_eq
  intro j hj
  have := h ⟨31 - j, by omega⟩
  simp only [bitOf] at this
  rwa [show 31 - (31 - j) = j by omega] at this

/-- A word has the value v when its cells decrypt to the digits of v. -/
theorem val_eq {dec : Ct → Bool} {w : Word} {v : U32} (h : ∀ i, dec w[i] = bitOf v i) : val dec w = v :=
  eq_of_bitOf fun i => by rw [bitOf_val, h]

@[simp] theorem bitOf_and (v u : U32) (i : Fin 32) : bitOf (v &&& u) i = (bitOf v i && bitOf u i) := by
  simp [bitOf]

@[simp] theorem bitOf_xor (v u : U32) (i : Fin 32) : bitOf (v ^^^ u) i = (bitOf v i ^^ bitOf u i) := by
  simp [bitOf]

@[simp] theorem bitOf_not (v : U32) (i : Fin 32) : bitOf (~~~v) i = !bitOf v i := by
  simp only [bitOf, BitVec.getLsbD_not, Bool.and_eq_right_iff_imp]
  intro
  simp only [decide_eq_true_eq]
  omega

theorem bitOf_ushiftRight (v : U32) (n : Nat) (i : Fin 32) :
    bitOf (v >>> n) i = if h : n ≤ i.val then bitOf v ⟨i.val - n, by omega⟩ else false := by
  simp only [bitOf, BitVec.getLsbD_ushiftRight]
  split
  · congr 1
    omega
  · exact BitVec.getLsbD_of_ge _ _ (by omega)

theorem bitOf_rotr32 (v : U32) (n : Nat) (i : Fin 32) :
    bitOf (Plain.rotr32 v (n % 32)) i = bitOf v ⟨(i.val + (32 - n % 32)) % 32, Nat.mod_lt _ (by decide)⟩ := by
  have hn : n % 32 < 32 := Nat.mod_lt _ (by decide)
  generalize n % 32 = m at *
  simp only [Plain.rotr32]
  split
  · rename_i h
    subst h
    congr 1
    ext
    simp [Nat.mod_eq_of_lt i.isLt]
  · simp only [bitOf, BitVec.getLsbD_or, BitVec.getLsbD_ushiftRight, BitVec.getLsbD_shiftLeft]
    rcases Nat.lt_or_ge i.val m with h | h
    · have h1 : (i.val + (32 - m)) % 32 = i.val + 32 - m := by
        rw [Nat.mod_eq_of_lt (by omega)]
        omega
      rw [BitVec.getLsbD_of_ge _ (m + (31 - i.val)) (by omega)]
      have h2 : ¬ 31 - i.val < 32 - m := by omega
      have h3 : 31 - i.val < 32 := by omega
      simp only [h1, h2, h3, decide_true, decide_false, Bool.not_false, Bool.true_and, Bool.false_or]
      congr 1
      omega
    · have h1 : (i.val + (32 - m)) % 32 = i.val - m := by
        rw [show i.val + (32 - m) = (i.val - m) + 32 by omega, Nat.add_mod_right]
        exact Nat.mod_eq_of_lt (by omega)
      have h2 : 31 - i.val < 32 - m := by omega
      simp only [h1, h2, decide_true, Bool.not_true, Bool.and_false, Bool.false_and, Bool.or_false]
      congr 1
      omega

/-- `val(RotR(x, n)) = rotr32(val(x), n mod 32)` (R140). -/
theorem val_rotR (dec : Ct → Bool) (x : Word) (n : Nat) :
    val dec (rotR x n) = Plain.rotr32 (val dec x) (n % 32) := by
  apply val_eq
  intro i
  rw [bitOf_rotr32, bitOf_val]
  simp [rotR]

variable {G : Capability} {dec : Ct → Bool}

/-- The value law of a batch of XOR gates (R113). -/
theorem val_xor (hG : G.Fits dec) (a b : Word) :
    val dec (Vector.ofFn fun i => (BatchOp.xor a b).lane G i) = val dec a ^^^ val dec b :=
  val_eq fun i => by simp [BatchOp.lane, hG.dec_xor, bitOf_val]

/-- The value law of a batch of AND gates (R113). -/
theorem val_and (hG : G.Fits dec) (a b : Word) :
    val dec (Vector.ofFn fun i => (BatchOp.and a b).lane G i) = val dec a &&& val dec b :=
  val_eq fun i => by simp [BatchOp.lane, hG.dec_and, bitOf_val]

/-- The value law of a batch of NOT gates (R113). -/
theorem val_not (hG : G.Fits dec) (a : Word) :
    val dec (Vector.ofFn fun i => (BatchOp.not a).lane G i) = ~~~val dec a :=
  val_eq fun i => by simp [BatchOp.lane, hG.dec_not, bitOf_val]

/-- Word batches: the word has the value of the gate's result, and only draws are used (R113). -/
theorem batch_xor_ok (hG : G.Fits dec) {s : State} (h : s.NoFailure 32 1) (a b : Word) :
    ∃ w, val dec w = val dec a ^^^ val dec b ∧ batch G (.xor a b) s = .ok w (s.afterCalls 32 1) :=
  ⟨_, val_xor hG a b, batch_ok h⟩

theorem batch_and_ok (hG : G.Fits dec) {s : State} (h : s.NoFailure 32 1) (a b : Word) :
    ∃ w, val dec w = val dec a &&& val dec b ∧ batch G (.and a b) s = .ok w (s.afterCalls 32 1) :=
  ⟨_, val_and hG a b, batch_ok h⟩

theorem batch_not_ok (hG : G.Fits dec) {s : State} (h : s.NoFailure 32 1) (a : Word) :
    ∃ w, val dec w = ~~~val dec a ∧ batch G (.not a) s = .ok w (s.afterCalls 32 1) :=
  ⟨_, val_not hG a, batch_ok h⟩

end Sys2Proof.Machine
end

