-- ==== Sys2Proof/Laws/WordOps.lean ====
section
/-!
SUPPORT. What trivial encryption of a word (R114) and the word functions of WordOps (R149, R150) can do when no failure is drawn.
-/

namespace Sys2Proof.Machine

variable {G : Capability} {dec : Ct → Bool}

/-- A run of `n` trivial encryptions. -/
theorem collect_triv_ok {n : Nat} {s : State} (h : s.NoFailure n 0) (b : Fin n → Bool) :
    ∃ xs : Vector Ct n, (∀ i : Fin n, xs[i] = G.triv (b i)) ∧
      collect n (fun i => triv G (b i)) s = .ok xs (s.afterCalls n 0) := by
  obtain ⟨xs, hxs, hrun⟩ := collect_ok (P := fun i c => ∀ hi : i < n, c = G.triv (b ⟨i, hi⟩))
    (T := fun i => s.afterCalls i 0) (f := fun i => triv G (b i)) fun i =>
      ⟨_, fun _ => rfl, by
        rw [triv_ok (h.within i 0 1 0 (by omega) (by omega)), afterCalls_afterCalls]⟩
  exact ⟨xs, fun i => hxs i i.isLt, hrun⟩

/-- `TrivW(v)`: every cell a trivial encryption, the value v (R114). -/
theorem trivW_ok {s : State} (h : s.NoFailure 32 0) (v : U32) :
    ∃ w : Word, (∀ i : Fin 32, w[i] = G.triv (bitOf v i)) ∧ trivW G v s = .ok w (s.afterCalls 32 0) :=
  collect_triv_ok h (bitOf v)

theorem val_triv (hG : G.Fits dec) {w : Word} {v : U32} (h : ∀ i : Fin 32, w[i] = G.triv (bitOf v i)) :
    val dec w = v :=
  val_eq fun i => by rw [h i, hG.dec_triv]

/-- `ShR(x, n)`: the logical right shift (R142). -/
theorem shR_ok (hG : G.Fits dec) {n : Nat} (hn : n ≤ 32) {s : State} (h : s.NoFailure n 0) (x : Word) :
    ∃ w : Word, val dec w = val dec x >>> n ∧
      (∀ (i : Nat) (hi : i < 32) (_ : n ≤ i), w[i] = x[i - n]) ∧ shR G x n s = .ok w (s.afterCalls n 0) := by
  obtain ⟨zs, hzs, hrun⟩ := collect_triv_ok (G := G) h fun _ => false
  refine ⟨_, ?_, ?_, bind_ok hrun⟩
  · apply val_eq
    intro i
    rw [bitOf_ushiftRight]
    by_cases hi : i.val < n
    · have hz : zs[i.val] = G.triv false := hzs ⟨i.val, hi⟩
      have hni : ¬ n ≤ i.val := by omega
      simp [hi, hni, hz, hG.dec_triv]
    · have hni : n ≤ i.val := by omega
      simp [hi, hni, bitOf_val]
  · intro i hi hni
    have : ¬ i < n := by omega
    simp [this]

/-- `SSig0(x)` (R150). -/
theorem ssig0_ok (hG : G.Fits dec) {s : State} (h : s.NoFailure 67 2) (x : Word) :
    ∃ w, val dec w = Plain.ssig0 (val dec x) ∧ ssig0 G x s = .ok w (s.afterCalls 67 2) := by
  obtain ⟨t, ht, r1⟩ := batch_xor_ok hG (h.within 0 0 32 1 (by omega) (by omega)) (rotR x 7) (rotR x 18)
  obtain ⟨c, hc, -, r2⟩ := shR_ok hG (n := 3) (by omega) (h.within 32 1 3 0 (by omega) (by omega)) x
  obtain ⟨w, hw, r3⟩ := batch_xor_ok hG (h.within 35 1 32 1 (by omega) (by omega)) t c
  refine ⟨w, by rw [hw, ht, hc, val_rotR, val_rotR]; rfl, ?_⟩
  simp only [afterCalls_afterCalls, afterCalls_zero] at *
  rw [ssig0, bind_ok r1, bind_ok r2, r3]

/-- `SSig1(x)` (R150). -/
theorem ssig1_ok (hG : G.Fits dec) {s : State} (h : s.NoFailure 74 2) (x : Word) :
    ∃ w, val dec w = Plain.ssig1 (val dec x) ∧ ssig1 G x s = .ok w (s.afterCalls 74 2) := by
  obtain ⟨t, ht, r1⟩ := batch_xor_ok hG (h.within 0 0 32 1 (by omega) (by omega)) (rotR x 17) (rotR x 19)
  obtain ⟨c, hc, -, r2⟩ := shR_ok hG (n := 10) (by omega) (h.within 32 1 10 0 (by omega) (by omega)) x
  obtain ⟨w, hw, r3⟩ := batch_xor_ok hG (h.within 42 1 32 1 (by omega) (by omega)) t c
  refine ⟨w, by rw [hw, ht, hc, val_rotR, val_rotR]; rfl, ?_⟩
  simp only [afterCalls_afterCalls, afterCalls_zero] at *
  rw [ssig1, bind_ok r1, bind_ok r2, r3]

/-- `BSig0(x)` (R150). -/
theorem bsig0_ok (hG : G.Fits dec) {s : State} (h : s.NoFailure 64 2) (x : Word) :
    ∃ w, val dec w = Plain.bsig0 (val dec x) ∧ bsig0 G x s = .ok w (s.afterCalls 64 2) := by
  obtain ⟨t, ht, r1⟩ := batch_xor_ok hG (h.within 0 0 32 1 (by omega) (by omega)) (rotR x 2) (rotR x 13)
  obtain ⟨w, hw, r2⟩ := batch_xor_ok hG (h.within 32 1 32 1 (by omega) (by omega)) t (rotR x 22)
  refine ⟨w, by rw [hw, ht, val_rotR, val_rotR, val_rotR]; rfl, ?_⟩
  simp only [afterCalls_afterCalls, afterCalls_zero] at *
  rw [bsig0, bind_ok r1, r2]

/-- `BSig1(x)` (R150). -/
theorem bsig1_ok (hG : G.Fits dec) {s : State} (h : s.NoFailure 64 2) (x : Word) :
    ∃ w, val dec w = Plain.bsig1 (val dec x) ∧ bsig1 G x s = .ok w (s.afterCalls 64 2) := by
  obtain ⟨t, ht, r1⟩ := batch_xor_ok hG (h.within 0 0 32 1 (by omega) (by omega)) (rotR x 6) (rotR x 11)
  obtain ⟨w, hw, r2⟩ := batch_xor_ok hG (h.within 32 1 32 1 (by omega) (by omega)) t (rotR x 25)
  refine ⟨w, by rw [hw, ht, val_rotR, val_rotR, val_rotR]; rfl, ?_⟩
  simp only [afterCalls_afterCalls, afterCalls_zero] at *
  rw [bsig1, bind_ok r1, r2]

/-- `Ch(x, y, z)` (R150). -/
theorem ch_ok (hG : G.Fits dec) {s : State} (h : s.NoFailure 128 4) (x y z : Word) :
    ∃ w, val dec w = Plain.ch (val dec x) (val dec y) (val dec z) ∧ ch G x y z s = .ok w (s.afterCalls 128 4) := by
  obtain ⟨t1, h1, r1⟩ := batch_and_ok hG (h.within 0 0 32 1 (by omega) (by omega)) x y
  obtain ⟨nx, h2, r2⟩ := batch_not_ok hG (h.within 32 1 32 1 (by omega) (by omega)) x
  obtain ⟨t2, h3, r3⟩ := batch_and_ok hG (h.within 64 2 32 1 (by omega) (by omega)) nx z
  obtain ⟨w, h4, r4⟩ := batch_xor_ok hG (h.within 96 3 32 1 (by omega) (by omega)) t1 t2
  refine ⟨w, by rw [h4, h3, h2, h1]; rfl, ?_⟩
  simp only [afterCalls_afterCalls, afterCalls_zero] at *
  rw [ch, bind_ok r1, bind_ok r2, bind_ok r3, r4]

/-- `Maj(x, y, z)` (R150). -/
theorem maj_ok (hG : G.Fits dec) {s : State} (h : s.NoFailure 160 5) (x y z : Word) :
    ∃ w, val dec w = Plain.maj (val dec x) (val dec y) (val dec z) ∧
      maj G x y z s = .ok w (s.afterCalls 160 5) := by
  obtain ⟨t1, h1, r1⟩ := batch_and_ok hG (h.within 0 0 32 1 (by omega) (by omega)) x y
  obtain ⟨t2, h2, r2⟩ := batch_and_ok hG (h.within 32 1 32 1 (by omega) (by omega)) x z
  obtain ⟨t3, h3, r3⟩ := batch_xor_ok hG (h.within 64 2 32 1 (by omega) (by omega)) t1 t2
  obtain ⟨t4, h4, r4⟩ := batch_and_ok hG (h.within 96 3 32 1 (by omega) (by omega)) y z
  obtain ⟨w, h5, r5⟩ := batch_xor_ok hG (h.within 128 4 32 1 (by omega) (by omega)) t3 t4
  refine ⟨w, by rw [h5, h4, h3, h2, h1]; rfl, ?_⟩
  simp only [afterCalls_afterCalls, afterCalls_zero] at *
  rw [maj, bind_ok r1, bind_ok r2, bind_ok r3, bind_ok r4, r5]

end Sys2Proof.Machine
end

