-- ==== Sys2Proof/Laws/Adder.lean ====
section
/-!
SUPPORT. What the adder can do when no failure is drawn: the carry word (R173), the exclusivity that lets XOR stand for
OR (R174), and the sum (R170).
-/

namespace Sys2Proof.Machine

variable {G : Capability} {dec : Ct → Bool}

/-- A cell cannot both generate and propagate, so XOR and OR agree in the recurrence (R174). -/
theorem carry_xor_or (p q c : Bool) : ((p && q) ^^ ((p ^^ q) && c)) = ((p && q) || ((p ^^ q) && c)) := by
  cases p <;> cases q <;> cases c <;> rfl

/-- The carry into cell i when v and u are added with carry-in 0 (R173). -/
def carryBit (v u : U32) (i : Nat) : Bool := BitVec.carry (31 - i) v u false

/-- The carry into the least significant cell is 0 (R172). -/
theorem carryBit_last (v u : U32) : carryBit v u 31 = false := by
  simp [carryBit, BitVec.carry_zero]

/-- The recurrence of R172 on plain bits. -/
theorem carryBit_step (v u : U32) (m : Nat) (h : m + 1 < 32) :
    carryBit v u m = ((bitOf v ⟨m + 1, h⟩ && bitOf u ⟨m + 1, h⟩) ^^
      ((bitOf v ⟨m + 1, h⟩ ^^ bitOf u ⟨m + 1, h⟩) && carryBit v u (m + 1))) := by
  simp only [carryBit, bitOf]
  rw [show 31 - m = (31 - (m + 1)) + 1 by omega, BitVec.carry_succ]
  generalize BitVec.carry (31 - (m + 1)) v u false = c
  generalize v.getLsbD (31 - (m + 1)) = p
  generalize u.getLsbD (31 - (m + 1)) = q
  cases p <;> cases q <;> cases c <;> rfl

/-- The digit of a sum (R173). -/
theorem bitOf_add (v u : U32) (i : Fin 32) :
    bitOf (v + u) i = ((bitOf v i ^^ bitOf u i) ^^ carryBit v u i) := by
  simp only [bitOf, carryBit]
  have hi : 31 - i.val < 32 := by omega
  rw [BitVec.getLsbD_add hi, Bool.xor_assoc]

theorem setCI_setCI (s : State) (i j : Fin 32) : (s.setCI i).setCI j = s.setCI j := rfl

/-- The sequential phase (R172, R175): from the carry into cell m, the carries into cells 0 .. m-1. -/
theorem carryFrom_ok (hG : G.Fits dec) {a b p g : Word}
    (hp : val dec p = val dec a ^^^ val dec b) (hg : val dec g = val dec a &&& val dec b) :
    ∀ (m : Nat) (hm : m < 32) (c : Ct) (s : State), s.NoFailure (2 * m) 0 →
      dec c = carryBit (val dec a) (val dec b) m →
      ∃ xs : Vector Ct m, (∀ (i : Nat) (hi : i < m), dec xs[i] = carryBit (val dec a) (val dec b) i) ∧
        carryFrom G p g m hm c s =
          .ok xs (if m = 0 then s else (s.afterCalls (2 * m) 0).setCI 0) := by
  intro m
  induction m with
  | zero => exact fun _ _ s _ _ => ⟨#v[], fun i hi => absurd hi (by omega), rfl⟩
  | succ m ih =>
    intro hm c s h hc
    have hpb : dec p[m + 1] = (bitOf (val dec a) ⟨m + 1, hm⟩ ^^ bitOf (val dec b) ⟨m + 1, hm⟩) := by
      rw [← bitOf_xor, ← hp]
      exact (bitOf_val dec p ⟨m + 1, hm⟩).symm
    have hgb : dec g[m + 1] = (bitOf (val dec a) ⟨m + 1, hm⟩ && bitOf (val dec b) ⟨m + 1, hm⟩) := by
      rw [← bitOf_and, ← hg]
      exact (bitOf_val dec g ⟨m + 1, hm⟩).symm
    have r1 := gate_ok (G := G) (k := .and) (a := p[m + 1]) (b := c)
      (s := s.setCI ⟨m, by omega⟩) (by simpa using h.within 0 0 1 0 (by omega) (by omega))
    have r2 := gate_ok (G := G) (k := .xor) (a := g[m + 1]) (b := G.and p[m + 1] c)
      (s := (s.setCI ⟨m, by omega⟩).afterCalls 1 0)
      (by simpa [setCI_afterCalls] using h.within 1 0 1 0 (by omega) (by omega))
    have hci : dec (G.xor g[m + 1] (G.and p[m + 1] c)) = carryBit (val dec a) (val dec b) m := by
      rw [hG.dec_xor, hG.dec_and, hpb, hgb, hc, ← carryBit_step]
    obtain ⟨xs, hxs, r3⟩ := ih (by omega) _ ((s.setCI ⟨m, by omega⟩).afterCalls 2 0)
      (by simpa [setCI_afterCalls] using h.within 2 0 (2 * m) 0 (by omega) (by omega)) hci
    refine ⟨xs.push (G.xor g[m + 1] (G.and p[m + 1] c)), ?_, ?_⟩
    · intro i hi
      rw [Vector.getElem_push]
      split
      · rename_i h'
        exact hxs i h'
      · rename_i h'
        rw [hci, show i = m by omega]
    · rw [carryFrom, bind_update, bind_ok r1, bind_ok r2, afterCalls_afterCalls]
      rw [bind_ok r3]
      simp only [pure_run, setCI_afterCalls, setCI_setCI, afterCalls_afterCalls, Nat.add_eq_zero_iff]
      split
      · rename_i h'
        subst h'
        simp
      · simp only [Nat.one_ne_zero, and_false, if_false]
        congr 3
        omega

theorem clearAdder_adder (s : State) (p g c : Word) (i : Fin 32) :
    ((((s.setAP p).setAG g).setCI i).setAC c).clearAdder = s.clearAdder.setCI i := rfl

/-- `Add(a, b)`: the sum modulo 2^32 (R170), with the adder's scratch words `empty` again (R29). -/
theorem add_ok (hG : G.Fits dec) {s : State} (h : s.NoFailure 159 3) (a b : Word) :
    ∃ w, val dec w = val dec a + val dec b ∧
      add G a b s = .ok w ((s.afterCalls 159 3).clearAdder.setCI 0) := by
  obtain ⟨p, hp, r1⟩ := batch_xor_ok hG (h.within 0 0 32 1 (by omega) (by omega)) a b
  obtain ⟨g, hg, r2⟩ := batch_and_ok hG (s := (s.afterCalls 32 1).setAP p)
    (by simpa using h.within 32 1 32 1 (by omega) (by omega)) a b
  have r3 := triv_ok (G := G) (b := false) (s := ((s.afterCalls 64 2).setAP p).setAG g)
    (by simpa using h.within 64 2 1 0 (by omega) (by omega))
  obtain ⟨c, hc, r4⟩ := carryFrom_ok hG hp hg 31 (by decide) (G.triv false)
    (((s.afterCalls 65 2).setAP p).setAG g)
    (by simpa using h.within 65 2 62 0 (by omega) (by omega)) (by rw [hG.dec_triv, carryBit_last])
  have hac : val dec (c.push (G.triv false)) = val dec p ^^^ (val dec a + val dec b) := by
    apply val_eq
    intro i
    rw [bitOf_xor, bitOf_add, hp, bitOf_xor]
    have : dec (c.push (G.triv false))[i] = carryBit (val dec a) (val dec b) i := by
      simp only [Fin.getElem_fin, Vector.getElem_push]
      split
      · rename_i hi
        exact hc i hi
      · rw [hG.dec_triv, show i.val = 31 by omega, carryBit_last]
    rw [this]
    generalize bitOf (val dec a) i = x
    generalize bitOf (val dec b) i = y
    generalize carryBit (val dec a) (val dec b) i = z
    cases x <;> cases y <;> cases z <;> rfl
  obtain ⟨w, hw, r5⟩ := batch_xor_ok hG
    (s := ((((s.afterCalls 127 2).setAP p).setAG g).setCI 0).setAC (c.push (G.triv false)))
    (by simpa using h.within 127 2 32 1 (by omega) (by omega)) p (c.push (G.triv false))
  refine ⟨w, ?_, ?_⟩
  · rw [hw, hac]
    apply eq_of_bitOf
    intro i
    simp only [bitOf_xor]
    generalize bitOf (val dec p) i = x
    cases x <;> simp
  · rw [afterCalls_zero] at r1
    rw [setAP_afterCalls, afterCalls_afterCalls] at r2
    rw [setAG_afterCalls, setAP_afterCalls, afterCalls_afterCalls] at r3
    rw [setAG_afterCalls, setAP_afterCalls, afterCalls_afterCalls] at r4
    rw [setAC_afterCalls, setCI_afterCalls, setAG_afterCalls, setAP_afterCalls, afterCalls_afterCalls] at r5
    rw [add, bind_ok r1, bind_update, bind_ok r2, bind_update, bind_ok r3, bind_ok r4]
    simp only [bind_update]
    rw [if_neg (by decide)]
    rw [bind_ok r5]
    rfl

end Sys2Proof.Machine
end

