-- ==== Sys2Proof/Laws/Plain.lean ====
section
/-!
SUPPORT. The plain message schedule as a recurrence (R191).
-/

namespace Sys2Proof.Machine.Plain

theorem schedule_length (m : Vector U32 16) : ∀ n, (schedule m n).length = 16 + n
  | 0 => by simp [schedule]
  | n + 1 => by simp [schedule, schedule_length m n]; omega

/-- A schedule word never changes once it is made. -/
theorem schedule_prefix (m : Vector U32 16) (n k j : Nat) (h : j < 16 + n) :
    (schedule m (n + k)).getD j 0 = (schedule m n).getD j 0 := by
  induction k with
  | zero => rfl
  | succ k ih =>
    rw [← ih, ← Nat.add_assoc, schedule]
    have : j < (schedule m (n + k)).length := by
      rw [schedule_length]
      omega
    simp only [List.getD_eq_getElem?_getD]
    rw [List.getElem?_append_left this]

/-- The first 16 schedule words are the block (R191). -/
theorem schedule_block (m : Vector U32 16) (j : Fin 16) : (schedule m 48).getD j 0 = m[j] := by
  rw [show 48 = 0 + 48 from rfl, schedule_prefix m 0 48 j (by omega)]
  simp [schedule]

/-- The recurrence of R191. -/
theorem schedule_step (m : Vector U32 16) (i : Nat) (h : i < 48) :
    (schedule m 48).getD (16 + i) 0 =
      ssig1 ((schedule m 48).getD (14 + i) 0) + (schedule m 48).getD (9 + i) 0 +
        ssig0 ((schedule m 48).getD (1 + i) 0) + (schedule m 48).getD i 0 := by
  obtain ⟨k, hk⟩ : ∃ k, 48 = (i + 1) + k := ⟨47 - i, by omega⟩
  rw [hk]
  have hpre : ∀ j, j < 16 + i → (schedule m (i + 1 + k)).getD j 0 = (schedule m i).getD j 0 := by
    intro j hj
    rw [Nat.add_assoc, schedule_prefix m i (1 + k) j hj]
  rw [schedule_prefix m (i + 1) k _ (by omega), hpre _ (by omega), hpre _ (by omega), hpre _ (by omega),
    hpre _ (by omega), schedule]
  simp only [List.getD_eq_getElem?_getD]
  rw [List.getElem?_append_right (by rw [schedule_length])]
  simp only [schedule_length, Nat.sub_self, List.getElem?_cons_zero, Option.getD_some, Nat.add_comm]

/-- Word k of the compression function (R196). -/
theorem compress_getElem (h : Vector U32 8) (m : Vector U32 16) {k : Nat} (hk : k < 8) :
    (compress h m)[k] = h[k] + (rounds (schedule m 48) h 64)[k] := by
  rw [compress, Vector.getElem_ofFn]
  rfl

end Sys2Proof.Machine.Plain
end

