-- ==== Sys2Proof/Laws/Compressor.lean ====
section
/-!
SUPPORT. What the three phases of COMPRESS can do when no failure is drawn, and the whole of it (R191, R193, R194, R196).
-/

namespace Sys2Proof.Machine

variable {G : Capability} {dec : Ct → Bool}

/-- The state in the middle of a command: other scratch storage and other counters, the rest as it was. -/
def State.during (s : State) (sc : Scratch) (t : Fin 64) (ci : Fin 32) : State :=
  { s with scratch := sc, seq := { s.seq with t := t, ci := ci } }

/-- The scratch storage with the adder's words `empty`. -/
def Scratch.noAdder (sc : Scratch) : Scratch := { sc with ap := none, ag := none, ac := none }

@[simp] theorem noAdder_noAdder (sc : Scratch) : sc.noAdder.noAdder = sc.noAdder := rfl

@[simp] theorem noFailure_during (s : State) (sc : Scratch) (t : Fin 64) (ci : Fin 32) (c b : Nat) :
    (s.during sc t ci).NoFailure c b ↔ s.NoFailure c b := Iff.rfl

theorem during_afterCalls (s : State) (sc : Scratch) (t : Fin 64) (ci : Fin 32) (c b : Nat) :
    (s.during sc t ci).afterCalls c b = (s.afterCalls c b).during sc t ci := rfl

@[simp] theorem during_during (s : State) (sc sc' : Scratch) (t t' : Fin 64) (ci ci' : Fin 32) :
    (s.during sc t ci).during sc' t' ci' = s.during sc' t' ci' := rfl

theorem during_self (s : State) : s = s.during s.scratch s.seq.t s.seq.ci := rfl

theorem during_add (s : State) (sc : Scratch) (t : Fin 64) (ci : Fin 32) (c b : Nat) :
    (((s.during sc t ci).afterCalls c b).clearAdder.setCI 0) = (s.afterCalls c b).during sc.noAdder t 0 := rfl

/-- `Add` in the middle of a command, after c calls and b batches of it. -/
theorem add_during_ok (hG : G.Fits dec) {s : State} (c b : Nat) {sc : Scratch} {t : Fin 64} {ci : Fin 32}
    (h : (s.afterCalls c b).NoFailure 159 3) (x y : Word) :
    ∃ w, val dec w = val dec x + val dec y ∧
      add G x y ((s.afterCalls c b).during sc t ci) =
        .ok w ((s.afterCalls (c + 159) (b + 3)).during sc.noAdder t 0) := by
  obtain ⟨w, hw, hr⟩ := add_ok hG (s := (s.afterCalls c b).during sc t ci) (by simpa using h) x y
  exact ⟨w, hw, by rw [hr, during_add, afterCalls_afterCalls]⟩

/-- Reading several elements changes nothing. -/
theorem collect_read {n : Nat} {f : Fin n → Micro Word} {xs : Vector Word n} {s : State}
    (h : ∀ k : Fin n, f k s = .ok xs[k] s) : collect n f s = .ok xs s := by
  obtain ⟨ys, hys, hrun⟩ := collect_ok (P := fun i a => ∀ hi : i < n, a = xs[i]) (T := fun _ => s) (f := f)
    fun k => ⟨xs[k], fun _ => rfl, h k⟩
  have : ys = xs := by
    apply Vector.ext
    intro i hi
    exact hys ⟨i, hi⟩ hi
  rw [hrun, this]

theorem tIdx_val {t : Nat} (h : t < 64) : (tIdx t).val = t := Nat.mod_eq_of_lt h

/-- The schedule storage holds the words of the plain schedule below index n. -/
def Scheduled (dec : Ct → Bool) (w : List U32) (n : Nat) (sc : Scratch) : Prop :=
  ∀ j (hj : j < 64), j < n → ∃ x, sc.w[j] = some x ∧ val dec x = w.getD j 0

theorem Scheduled.read {dec : Ct → Bool} {w : List U32} {n j : Nat} {sc : Scratch} (h : Scheduled dec w n sc)
    (hj : j < n) (hj' : j < 64) :
    ∃ x, val dec x = w.getD j 0 ∧
      ∀ s : State, ∀ sc' : Scratch, sc'.w = sc.w → ∀ t ci, readW (tIdx j) (s.during sc' t ci) = .ok x (s.during sc' t ci) := by
  obtain ⟨x, hx, hv⟩ := h j hj' hj
  refine ⟨x, hv, fun s sc' hsc t ci => readElement_some ?_⟩
  have : ∀ k : Fin 64, k.val = j → sc'.w[k] = some x := by
    rintro k rfl
    rw [hsc]
    exact hx
  exact this _ (tIdx_val hj')

theorem Scheduled.set {dec : Ct → Bool} {w : List U32} {n : Nat} {sc : Scratch} (h : Scheduled dec w n sc)
    (hn : n < 64) {x : Word} (hx : val dec x = w.getD n 0) :
    Scheduled dec w (n + 1) { sc with w := sc.w.set (tIdx n).val (some x) (tIdx n).isLt } := by
  intro j hj hjn
  by_cases hjn' : j = n
  · subst hjn'
    exact ⟨x, by simp [tIdx_val hj], hx⟩
  · obtain ⟨y, hy, hv⟩ := h j hj (by omega)
    refine ⟨y, ?_, hv⟩
    have : ¬ (tIdx n).val = j := by
      rw [tIdx_val hn]
      omega
    simpa [Vector.getElem_set, this] using hy

/-- One step of the schedule (R191). -/
theorem scheduleStep_ok (hG : G.Fits dec) {s : State} (m : Vector U32 16) {i : Nat} (hi : i < 48) (c b : Nat)
    (h : (s.afterCalls c b).NoFailure 618 13) {sc : Scratch} {t : Fin 64} {ci : Fin 32}
    (hsc : Scheduled dec (Plain.schedule m 48) (16 + i) sc) :
    ∃ sc', Scheduled dec (Plain.schedule m 48) (16 + i + 1) sc' ∧ sc'.ap = none ∧ sc'.ag = none ∧ sc'.ac = none ∧
      sc'.v = sc.v ∧ sc'.t1 = sc.t1 ∧ sc'.t2 = sc.t2 ∧
      scheduleStep G (16 + i) ((s.afterCalls c b).during sc t ci) =
        .ok () ((s.afterCalls (c + 618) (b + 13)).during sc' (tIdx (16 + i)) 0) := by
  have hw : ∀ c1 b1 c2 b2, c1 + c2 ≤ 618 → b1 + b2 ≤ 13 → (s.afterCalls (c + c1) (b + b1)).NoFailure c2 b2 := by
    intro c1 b1 c2 b2 hc hb
    have := h.within c1 b1 c2 b2 hc hb
    rwa [afterCalls_afterCalls] at this
  obtain ⟨a1, v1, q1⟩ := hsc.read (j := 16 + i - 2) (by omega) (by omega)
  obtain ⟨a2, v2, q2⟩ := hsc.read (j := 16 + i - 7) (by omega) (by omega)
  obtain ⟨a3, v3, q3⟩ := hsc.read (j := 16 + i - 15) (by omega) (by omega)
  obtain ⟨a4, v4, q4⟩ := hsc.read (j := 16 + i - 16) (by omega) (by omega)
  obtain ⟨x1, e1, r1⟩ := ssig1_ok hG (s := (s.afterCalls c b).during sc (tIdx (16 + i)) ci)
    (by simpa using hw 0 0 74 2 (by omega) (by omega)) a1
  obtain ⟨x2, e2, r2⟩ := add_during_ok hG (c + 74) (b + 2) (sc := sc) (t := tIdx (16 + i)) (ci := ci)
    (hw 74 2 159 3 (by omega) (by omega)) x1 a2
  obtain ⟨x3, e3, r3⟩ := ssig0_ok hG (s := (s.afterCalls (c + 233) (b + 5)).during sc.noAdder (tIdx (16 + i)) 0)
    (by simpa using hw 233 5 67 2 (by omega) (by omega)) a3
  obtain ⟨x4, e4, r4⟩ := add_during_ok hG (c + 300) (b + 7) (sc := sc.noAdder) (t := tIdx (16 + i)) (ci := 0)
    (hw 300 7 159 3 (by omega) (by omega)) x2 x3
  obtain ⟨x5, e5, r5⟩ := add_during_ok hG (c + 459) (b + 10) (sc := sc.noAdder) (t := tIdx (16 + i)) (ci := 0)
    (hw 459 10 159 3 (by omega) (by omega)) x4 a4
  refine ⟨_, Scheduled.set (n := 16 + i) (x := x5) (sc := sc.noAdder) hsc (by omega) ?_, rfl, rfl, rfl, rfl, rfl, rfl, ?_⟩
  · rw [e5, e4, e3, e2, e1, v1, v2, v3, v4, Plain.schedule_step m i hi]
    simp only [show 16 + i - 2 = 14 + i by omega, show 16 + i - 7 = 9 + i by omega,
      show 16 + i - 15 = 1 + i by omega, show 16 + i - 16 = i by omega]
  · rw [during_afterCalls, afterCalls_afterCalls] at r1 r3
    rw [scheduleStep, bind_update]
    rw [show ((s.afterCalls c b).during sc t ci).setT (tIdx (16 + i)) =
      (s.afterCalls c b).during sc (tIdx (16 + i)) ci from rfl]
    rw [bind_ok (q1 _ sc rfl _ _), bind_ok r1, bind_ok (q2 _ sc rfl _ _), bind_ok r2,
      bind_ok (q3 _ sc.noAdder rfl _ _), bind_ok r3, bind_ok r4, noAdder_noAdder, bind_ok (q4 _ sc.noAdder rfl _ _), bind_ok r5]
    rfl


/-- Phase SCHED (R191): 48 steps, from the block's words to the whole schedule. -/
theorem schedulePhase_ok (hG : G.Fits dec) {s : State} {blk : Vector Word 16} (hblk : s.HoldsBLK blk) (c b : Nat)
    (h : (s.afterCalls c b).NoFailure 29664 624) {sc : Scratch} {t : Fin 64} {ci : Fin 32} :
    ∃ sc' t' ci', Scheduled dec (Plain.schedule (vals dec blk) 48) 64 sc' ∧
      schedulePhase G ((s.afterCalls c b).during sc t ci) =
        .ok () ((s.afterCalls (c + 29664) (b + 624)).during sc' t' ci') := by
  have copy := forRange_inv (lo := 0) (n := 16) (body := copyBlockWord)
    (Q := fun i u => ∃ sc', Scheduled dec (Plain.schedule (vals dec blk) 48) i sc' ∧
      u = (s.afterCalls c b).during sc' t ci) (s := (s.afterCalls c b).during sc t ci)
    ⟨sc, fun j _ hj => absurd hj (by omega), rfl⟩ (by
      rintro i u hi ⟨sc', hsc', rfl⟩
      rw [Nat.zero_add]
      have hk : (Fin.ofNat 16 i).val = i := Nat.mod_eq_of_lt hi
      have hread : ∀ k : Fin 16, readBLK k ((s.afterCalls c b).during sc' t ci) =
          .ok blk[k] ((s.afterCalls c b).during sc' t ci) := fun k => readElement_some (by
        have : ((s.afterCalls c b).during sc' t ci).blk = filled blk := hblk
        simp [this])
      have hval : val dec blk[Fin.ofNat 16 i] = (Plain.schedule (vals dec blk) 48).getD i 0 := by
        have : ∀ k : Fin 16, k.val = i → val dec blk[k] = (Plain.schedule (vals dec blk) 48).getD i 0 := by
          rintro k rfl
          rw [Plain.schedule_block]
          simp [vals]
        exact this _ hk
      exact ⟨_, by rw [copyBlockWord, bind_ok (hread _), update_run]; rfl, _, hsc'.set (by omega) hval, rfl⟩)
  obtain ⟨u, hrun, sc1, hsc1, rfl⟩ := copy
  have steps := forRange_inv (lo := 16) (n := 48) (body := scheduleStep G)
    (Q := fun i u => ∃ sc' t' ci', Scheduled dec (Plain.schedule (vals dec blk) 48) (16 + i) sc' ∧
      u = (s.afterCalls (c + 618 * i) (b + 13 * i)).during sc' t' ci') (s := (s.afterCalls c b).during sc1 t ci)
    ⟨sc1, t, ci, hsc1, rfl⟩ (by
      rintro i u hi ⟨sc', t', ci', hsc', rfl⟩
      have hq : (s.afterCalls (c + 618 * i) (b + 13 * i)).NoFailure 618 13 := by
        have := h.within (618 * i) (13 * i) 618 13 (by omega) (by omega)
        rwa [afterCalls_afterCalls] at this
      obtain ⟨sc2, hsc2, -, -, -, -, -, -, hr⟩ := scheduleStep_ok hG _ hi _ _ hq (t := t') (ci := ci') hsc'
      exact ⟨_, hr, sc2, _, _, hsc2, by rw [show c + 618 * i + 618 = c + 618 * (i + 1) by omega,
        show b + 13 * i + 13 = b + 13 * (i + 1) by omega]⟩)
  obtain ⟨u, hrun', sc2, t2, ci2, hsc2, rfl⟩ := steps
  exact ⟨sc2, t2, ci2, hsc2, by rw [schedulePhase, bind_ok hrun, hrun']⟩

/-- The working variables hold words with these values. -/
def Working (dec : Ct → Bool) (v : Vector U32 8) (sc : Scratch) : Prop :=
  ∃ ws : Vector Word 8, (sc.v = filled ws) ∧ ∀ k : Fin 8, val dec ws[k] = v[k]

/-- One round (R193). -/
theorem roundStep_ok (hG : G.Fits dec) {s : State} {w : List U32} {i : Nat} (hi : i < 64) (c b : Nat)
    (h : (s.afterCalls c b).NoFailure 1561 34) {sc : Scratch} {t : Fin 64} {ci : Fin 32} {v : Vector U32 8}
    (hsc : Scheduled dec w 64 sc) (hv : Working dec v sc) :
    ∃ sc', Scheduled dec w 64 sc' ∧ Working dec (Plain.round (K (tIdx i)) (w.getD i 0) v) sc' ∧
      sc'.ap = none ∧ sc'.ag = none ∧ sc'.ac = none ∧
      roundStep G i ((s.afterCalls c b).during sc t ci) =
        .ok () ((s.afterCalls (c + 1561) (b + 34)).during sc' (tIdx i) 0) := by
  have hw : ∀ c1 b1 c2 b2, c1 + c2 ≤ 1561 → b1 + b2 ≤ 34 → (s.afterCalls (c + c1) (b + b1)).NoFailure c2 b2 := by
    intro c1 b1 c2 b2 hc hb
    have := h.within c1 b1 c2 b2 hc hb
    rwa [afterCalls_afterCalls] at this
  obtain ⟨ws, hws, hvs⟩ := hv
  have hread : collect 8 readV ((s.afterCalls c b).during sc (tIdx i) ci) =
      .ok ws ((s.afterCalls c b).during sc (tIdx i) ci) := collect_read fun k => readElement_some (by
    have : ((s.afterCalls c b).during sc (tIdx i) ci).scratch.v = filled ws := hws
    simp [this])
  obtain ⟨wt, vt, qt⟩ := hsc.read (j := i) hi hi
  obtain ⟨s1, e1, r1⟩ := bsig1_ok hG (s := (s.afterCalls c b).during sc (tIdx i) ci)
    (by simpa using hw 0 0 64 2 (by omega) (by omega)) ws[4]
  obtain ⟨u1, e2, r2⟩ := add_during_ok hG (c + 64) (b + 2) (sc := sc) (t := tIdx i) (ci := ci)
    (hw 64 2 159 3 (by omega) (by omega)) ws[7] s1
  obtain ⟨cf, e3, r3⟩ := ch_ok hG (s := (s.afterCalls (c + 223) (b + 5)).during sc.noAdder (tIdx i) 0)
    (by simpa using hw 223 5 128 4 (by omega) (by omega)) ws[4] ws[5] ws[6]
  obtain ⟨u2, e4, r4⟩ := add_during_ok hG (c + 351) (b + 9) (sc := sc.noAdder) (t := tIdx i) (ci := 0)
    (hw 351 9 159 3 (by omega) (by omega)) u1 cf
  obtain ⟨kw, e5, r5⟩ := trivW_ok (G := G) (s := (s.afterCalls (c + 510) (b + 12)).during sc.noAdder (tIdx i) 0)
    (by simpa using hw 510 12 32 0 (by omega) (by omega)) (K (tIdx i))
  have e5 := val_triv hG e5
  obtain ⟨u3, e6, r6⟩ := add_during_ok hG (c + 542) (b + 12) (sc := sc.noAdder) (t := tIdx i) (ci := 0)
    (hw 542 12 159 3 (by omega) (by omega)) u2 kw
  obtain ⟨t1, e7, r7⟩ := add_during_ok hG (c + 701) (b + 15) (sc := sc.noAdder) (t := tIdx i) (ci := 0)
    (hw 701 15 159 3 (by omega) (by omega)) u3 wt
  let sc1 : Scratch := { sc.noAdder with t1 := some t1 }
  obtain ⟨s0, e8, r8⟩ := bsig0_ok hG (s := (s.afterCalls (c + 860) (b + 18)).during sc1 (tIdx i) 0)
    (by simpa using hw 860 18 64 2 (by omega) (by omega)) ws[0]
  obtain ⟨mj, e9, r9⟩ := maj_ok hG (s := (s.afterCalls (c + 924) (b + 20)).during sc1 (tIdx i) 0)
    (by simpa using hw 924 20 160 5 (by omega) (by omega)) ws[0] ws[1] ws[2]
  obtain ⟨t2, e10, r10⟩ := add_during_ok hG (c + 1084) (b + 25) (sc := sc1) (t := tIdx i) (ci := 0)
    (hw 1084 25 159 3 (by omega) (by omega)) s0 mj
  let sc2 : Scratch := { sc1 with t2 := some t2 }
  obtain ⟨ne, e11, r11⟩ := add_during_ok hG (c + 1243) (b + 28) (sc := sc2) (t := tIdx i) (ci := 0)
    (hw 1243 28 159 3 (by omega) (by omega)) ws[3] t1
  obtain ⟨na, e12, r12⟩ := add_during_ok hG (c + 1402) (b + 31) (sc := sc2) (t := tIdx i) (ci := 0)
    (hw 1402 31 159 3 (by omega) (by omega)) t2 t1
  have hval : ∀ (k : Nat) (hk : k < 8), val dec ws[k] = v[k] := fun k hk => hvs ⟨k, hk⟩
  refine ⟨{ sc2 with v := filled #v[na, ws[0], ws[1], ws[2], ne, ws[4], ws[5], ws[6]] },
    hsc, ⟨_, rfl, ?_⟩, rfl, rfl, rfl, ?_⟩
  · have t1v : val dec t1 = v[7] + Plain.bsig1 v[4] + Plain.ch v[4] v[5] v[6] + K (tIdx i) + w.getD i 0 := by
      rw [e7, e6, e5, e4, e3, e2, e1, vt, hval, hval, hval, hval]
    have t2v : val dec t2 = Plain.bsig0 v[0] + Plain.maj v[0] v[1] v[2] := by
      rw [e10, e9, e8, hval, hval, hval]
    intro k
    match k with
    | 0 => exact e12.trans (by rw [t1v, t2v, BitVec.add_comm]; rfl)
    | 1 => exact hval 0 (by omega)
    | 2 => exact hval 1 (by omega)
    | 3 => exact hval 2 (by omega)
    | 4 => exact e11.trans (by rw [t1v, hval]; rfl)
    | 5 => exact hval 4 (by omega)
    | 6 => exact hval 5 (by omega)
    | 7 => exact hval 6 (by omega)
  · rw [during_afterCalls, afterCalls_afterCalls] at r1 r3 r5 r8 r9
    rw [roundStep, bind_update]
    rw [show ((s.afterCalls c b).during sc t ci).setT (tIdx i) = (s.afterCalls c b).during sc (tIdx i) ci from rfl]
    rw [bind_ok hread, bind_ok r1, bind_ok r2, bind_ok r3, bind_ok r4, noAdder_noAdder, bind_ok r5, bind_ok r6,
      noAdder_noAdder, bind_ok (qt _ sc.noAdder rfl _ _), bind_ok r7, bind_update]
    rw [show ((s.afterCalls (c + 701 + 159) (b + 15 + 3)).during sc.noAdder.noAdder (tIdx i) 0).setT1 t1 =
      (s.afterCalls (c + 860) (b + 18)).during sc1 (tIdx i) 0 from rfl]
    rw [bind_ok r8, bind_ok r9, bind_ok r10, bind_update]
    rw [show ((s.afterCalls (c + 1084 + 159) (b + 25 + 3)).during sc1.noAdder (tIdx i) 0).setT2 t2 =
      (s.afterCalls (c + 1243) (b + 28)).during sc2 (tIdx i) 0 from rfl]
    rw [bind_ok r11]
    rw [show sc2.noAdder = sc2 from rfl]
    rw [bind_ok r12]
    rfl

/-- Phase ROUND (R193). -/
theorem roundPhase_ok (hG : G.Fits dec) {s : State} {hs : Vector Word 8} (hhs : s.HoldsHS hs) {w : List U32} (c b : Nat)
    (h : (s.afterCalls c b).NoFailure 99904 2176) {sc : Scratch} {t : Fin 64} {ci : Fin 32}
    (hsc : Scheduled dec w 64 sc) :
    ∃ sc' t' ci', Working dec (Plain.rounds w (vals dec hs) 64) sc' ∧
      roundPhase G ((s.afterCalls c b).during sc t ci) =
        .ok () ((s.afterCalls (c + 99904) (b + 2176)).during sc' t' ci') := by
  have load := forRange_inv (lo := 0) (n := 8) (body := loadWorking)
    (Q := fun i u => ∃ sc', Scheduled dec w 64 sc' ∧
      (∀ j (hj : j < 8), j < i → sc'.v[j] = some hs[j]) ∧
      u = (s.afterCalls c b).during sc' t ci) (s := (s.afterCalls c b).during sc t ci)
    ⟨sc, hsc, fun j _ hj => absurd hj (by omega), rfl⟩ (by
      rintro i u hi ⟨sc', hsc', hv, rfl⟩
      rw [Nat.zero_add]
      have hk : (Fin.ofNat 8 i).val = i := Nat.mod_eq_of_lt hi
      have hread : ∀ k : Fin 8, readHS k ((s.afterCalls c b).during sc' t ci) =
          .ok hs[k] ((s.afterCalls c b).during sc' t ci) := fun k => readElement_some (by
        have : ((s.afterCalls c b).during sc' t ci).hs = filled hs := hhs
        simp [this])
      refine ⟨_, by rw [loadWorking, bind_ok (hread _), update_run]; rfl, { sc' with
        v := sc'.v.set (Fin.ofNat 8 i).val (some hs[Fin.ofNat 8 i]) (Fin.ofNat 8 i).isLt }, hsc', ?_, rfl⟩
      intro j hj hji
      by_cases hji' : j = i
      · subst hji'
        simp [Nat.mod_eq_of_lt hi]
      · have : ¬ i = j := by omega
        simpa [Vector.getElem_set, Nat.mod_eq_of_lt hi, this] using hv j hj (by omega))
  obtain ⟨u, hrun, sc1, hsc1, hv1, rfl⟩ := load
  have hwork : Working dec (vals dec hs) sc1 := by
    refine ⟨hs, ?_, fun k => by simp [vals]⟩
    apply Vector.ext
    intro j hj
    rw [hv1 j hj hj]
    simp
  have steps := forRange_inv (lo := 0) (n := 64) (body := roundStep G)
    (Q := fun i u => ∃ sc' t' ci', Scheduled dec w 64 sc' ∧ Working dec (Plain.rounds w (vals dec hs) i) sc' ∧
      u = (s.afterCalls (c + 1561 * i) (b + 34 * i)).during sc' t' ci') (s := (s.afterCalls c b).during sc1 t ci)
    ⟨sc1, t, ci, hsc1, hwork, rfl⟩ (by
      rintro i u hi ⟨sc', t', ci', hsc', hw', rfl⟩
      have hq : (s.afterCalls (c + 1561 * i) (b + 34 * i)).NoFailure 1561 34 := by
        have := h.within (1561 * i) (34 * i) 1561 34 (by omega) (by omega)
        rwa [afterCalls_afterCalls] at this
      obtain ⟨sc2, hsc2, hw2, -, -, -, hr⟩ := roundStep_ok hG hi _ _ hq (t := t') (ci := ci') hsc' hw'
      rw [Nat.zero_add]
      exact ⟨_, hr, sc2, _, _, hsc2, hw2, by rw [show c + 1561 * i + 1561 = c + 1561 * (i + 1) by omega,
        show b + 34 * i + 34 = b + 34 * (i + 1) by omega]⟩)
  obtain ⟨u, hrun', sc2, t2, ci2, -, hw2, rfl⟩ := steps
  exact ⟨sc2, t2, ci2, hw2, by rw [roundPhase, bind_ok hrun, hrun']⟩


/-- Phase FF (R194): the hash state replaced by the sums, the scratch storage `empty`. -/
theorem feedForwardPhase_ok (hG : G.Fits dec) {s : State} {hs : Vector Word 8} (hhs : s.HoldsHS hs) (c b : Nat)
    (h : (s.afterCalls c b).NoFailure 1272 24) {sc : Scratch} {t : Fin 64} {ci : Fin 32} {v : Vector U32 8}
    (hv : Working dec v sc) :
    ∃ n : Vector Word 8, (∀ k : Fin 8, val dec n[k] = val dec hs[k] + v[k]) ∧
      feedForwardPhase G ((s.afterCalls c b).during sc t ci) =
        .ok () (((s.afterCalls (c + 1272) (b + 24)).during Scratch.empty 7 0).setHS n) := by
  obtain ⟨ws, hws, hvs⟩ := hv
  let T : Nat → State := fun i =>
    match i with
    | 0 => (s.afterCalls c b).during sc t ci
    | j + 1 => (s.afterCalls (c + 159 * (j + 1)) (b + 3 * (j + 1))).during sc.noAdder (tIdx j) 0
  obtain ⟨n, hn, hrun⟩ := collect_ok (n := 8) (T := T) (f := feedForwardWord G)
    (P := fun i x => ∀ hi : i < 8, val dec x = val dec hs[i] + v[i]) (by
      intro k
      have hq : (s.afterCalls (c + 159 * k.val) (b + 3 * k.val)).NoFailure 159 3 := by
        have := h.within (159 * k.val) (3 * k.val) 159 3 (by omega) (by omega)
        rwa [afterCalls_afterCalls] at this
      have body : ∀ (sc' : Scratch) (t' : Fin 64) (ci' : Fin 32), sc'.v = sc.v → sc'.noAdder = sc.noAdder →
          ∃ x, (∀ hi : k.val < 8, val dec x = val dec hs[k.val] + v[k.val]) ∧
          feedForwardWord G k ((s.afterCalls (c + 159 * k.val) (b + 3 * k.val)).during sc' t' ci') =
            .ok x ((s.afterCalls (c + 159 * (k.val + 1)) (b + 3 * (k.val + 1))).during sc.noAdder (tIdx k) 0) := by
        intro sc' t' ci' h1 h2
        obtain ⟨x, hx, hr⟩ := add_during_ok hG _ _ (sc := sc') (t := tIdx k) (ci := ci') hq hs[k] ws[k]
        refine ⟨x, fun _ => by rw [hx, hvs]; rfl, ?_⟩
        have r1 : readHS k ((s.afterCalls (c + 159 * k.val) (b + 3 * k.val)).during sc' (tIdx k) ci') =
            .ok hs[k] ((s.afterCalls (c + 159 * k.val) (b + 3 * k.val)).during sc' (tIdx k) ci') :=
          readElement_some (by
            have : ((s.afterCalls (c + 159 * k.val) (b + 3 * k.val)).during sc' (tIdx k) ci').hs =
              filled hs := hhs
            simp [this])
        have r2 : readV k ((s.afterCalls (c + 159 * k.val) (b + 3 * k.val)).during sc' (tIdx k) ci') =
            .ok ws[k] ((s.afterCalls (c + 159 * k.val) (b + 3 * k.val)).during sc' (tIdx k) ci') :=
          readElement_some (by
            have : ((s.afterCalls (c + 159 * k.val) (b + 3 * k.val)).during sc' (tIdx k) ci').scratch.v =
              filled ws := h1.trans hws
            simp [this])
        rw [feedForwardWord, bind_update]
        rw [show ((s.afterCalls (c + 159 * k.val) (b + 3 * k.val)).during sc' t' ci').setT (tIdx k) =
          (s.afterCalls (c + 159 * k.val) (b + 3 * k.val)).during sc' (tIdx k) ci' from rfl]
        rw [bind_ok r1, bind_ok r2, hr, h2]
        rw [show c + 159 * k.val + 159 = c + 159 * (k.val + 1) by omega,
          show b + 3 * k.val + 3 = b + 3 * (k.val + 1) by omega]
      obtain ⟨k, hk⟩ := k
      cases k with
      | zero => exact body sc t ci rfl rfl
      | succ j => exact body sc.noAdder (tIdx j) 0 rfl rfl)
  refine ⟨n, fun k => hn k k.isLt, ?_⟩
  rw [feedForwardPhase, bind_ok hrun]
  rfl

/-- The pseudocode of COMPRESS (R195): the new hash state has the value of the plain compression function (R196). -/
theorem compress_ok (hG : G.Fits dec) {s : State} {hs : Vector Word 8} {blk : Vector Word 16}
    (hhs : s.HoldsHS hs) (hblk : s.HoldsBLK blk) (h : s.NoFailure 130840 2824) :
    ∃ n : Vector Word 8, vals dec n = Plain.compress (vals dec hs) (vals dec blk) ∧
      compress G s =
        .ok () ((((s.afterCalls 130840 2824).during Scratch.empty 7 0).setHS n).setPhase .none) := by
  have hr1 : collect 8 readHS s = .ok hs s := collect_read fun k => readElement_some (by
    have : s.hs = filled hs := hhs
    simp [this])
  have hr2 : collect 16 readBLK s = .ok blk s := collect_read fun k => readElement_some (by
    have : s.blk = filled blk := hblk
    simp [this])
  obtain ⟨sc1, t1, ci1, hsc1, r1⟩ := schedulePhase_ok hG (s := s.setPhase .sched) hblk 0 0
    (by simpa using h.within 0 0 29664 624 (by omega) (by omega)) (sc := s.scratch) (t := s.seq.t) (ci := s.seq.ci)
  obtain ⟨sc2, t2, ci2, hw2, r2⟩ := roundPhase_ok hG (s := s.setPhase .round) (hs := hs) hhs 29664 624
    (by simpa [setPhase_afterCalls] using h.within 29664 624 99904 2176 (by omega) (by omega))
    (t := t1) (ci := ci1) hsc1
  obtain ⟨n, hn, r3⟩ := feedForwardPhase_ok hG (s := s.setPhase .ff) (hs := hs) hhs 129568 2800
    (by simpa [setPhase_afterCalls] using h.within 129568 2800 1272 24 (by omega) (by omega))
    (t := t2) (ci := ci2) hw2
  refine ⟨n, ?_, ?_⟩
  · apply Vector.ext
    intro k hk
    rw [Plain.compress_getElem _ _ hk]
    simpa only [vals, Vector.getElem_ofFn, Fin.getElem_fin] using hn ⟨k, hk⟩
  · rw [compress, bind_ok hr1, bind_ok hr2, bind_update]
    rw [show s.setPhase .sched = ((s.setPhase .sched).afterCalls 0 0).during s.scratch s.seq.t s.seq.ci from rfl]
    rw [bind_ok r1, bind_update]
    rw [show (((s.setPhase .sched).afterCalls (0 + 29664) (0 + 624)).during sc1 t1 ci1).setPhase .round =
      ((s.setPhase .round).afterCalls 29664 624).during sc1 t1 ci1 from rfl]
    rw [bind_ok r2, bind_update]
    rw [show (((s.setPhase .round).afterCalls (29664 + 99904) (624 + 2176)).during sc2 t2 ci2).setPhase .ff =
      ((s.setPhase .ff).afterCalls 129568 2800).during sc2 t2 ci2 from rfl]
    rw [bind_ok r3, update_run]
    rfl

end Sys2Proof.Machine
end

