-- ==== Sys2Proof/Laws/HashDriver.lean ====
section
/-!
SUPPORT. What HINIT, loading a block, the loop of HASH and emitting a digest can do when no failure is drawn
(R222, R223, R242, R243).
-/

namespace Sys2Proof.Machine

variable {G : Capability} {dec : Ct → Bool}

/-- A group read as eight elements. -/
theorem collect_readHS {s : State} {hs : Vector Word 8} (h : s.HoldsHS hs) : collect 8 readHS s = .ok hs s :=
  collect_read fun k => readElement_some (by
    have : s.hs = filled hs := h
    simp [this])

/-- The pseudocode of HINIT (R222). -/
theorem initHash_ok (hG : G.Fits dec) {s : State} (h : s.NoFailure 256 0) :
    ∃ n : Vector Word 8, vals dec n = Plain.iv ∧ initHash G s = .ok () ((s.afterCalls 256 0).setHS n) := by
  obtain ⟨n, hn, hrun⟩ := collect_ok (n := 8) (T := fun i => s.afterCalls (32 * i) 0)
    (f := fun k => trivW G (IV k)) (P := fun i x => ∀ hi : i < 8, val dec x = IV ⟨i, hi⟩) (by
      intro k
      have hq : (s.afterCalls (32 * k.val) 0).NoFailure 32 0 := h.within _ 0 _ 0 (by omega) (by omega)
      obtain ⟨w, hw, hr⟩ := trivW_ok (G := G) hq (IV k)
      refine ⟨w, fun _ => val_triv hG hw, ?_⟩
      rw [hr, afterCalls_afterCalls, Nat.mul_add])
  refine ⟨n, ?_, ?_⟩
  · apply Vector.ext
    intro k hk
    simpa [vals, Plain.iv] using hn ⟨k, hk⟩ hk
  · have : collect 8 (fun k => trivW G (IV k)) s = .ok n (s.afterCalls 256 0) := hrun
    rw [initHash, bind_ok this]
    rfl

/-- Loading a block that is there (R242). -/
theorem loadBlock_ok {s : State} {f : Frame} {q : List Frame} {b : Vector Word 16} (hq : s.dinq = f :: q)
    (hb : f.asBlock = some b) : loadBlock s = .ok () ((s.setDinq q).setBLK b) := by
  have : dinBlockFrame s = .ok b (s.setDinq q) := by
    simp only [dinBlockFrame, takeFrame, hq, hb]
  rw [loadBlock, bind_ok this]
  rfl

/-- Emitting eight frames in index order (R243). -/
theorem emitDigest_ok {s : State} {hs : Vector Word 8} (h : s.HoldsHS hs) :
    emitDigest s = .ok () { s with env := { s.env with dout := s.env.dout ++ hs.toList } } := by
  rw [emitDigest, bind_ok (collect_readHS h)]
  have hrun := forRange_ok (lo := 0) (n := 8) (body := fun k => doutWordFrame (hs[Fin.ofNat 8 k]))
    (T := fun i => { s with env := { s.env with dout := s.env.dout ++ hs.toList.take i } }) (by
      intro i hi
      simp only [doutWordFrame, update_run, State.emit, Nat.zero_add, List.append_assoc]
      congr 4
      have hk : ∀ k : Fin 8, k.val = i → [hs[k]] = (hs.toList.drop i).take 1 := by
        rintro k rfl
        rw [List.take_one_drop_eq_of_lt_length (by simp)]
        simp
      rw [hk _ (Nat.mod_eq_of_lt hi), List.take_add])
  simp only [List.take_zero, List.append_nil] at hrun
  rw [hrun]
  congr 3
  rw [List.take_of_length_le (by simp)]

/-- Calls meet the environment only. -/
theorem afterCalls_env {s t : State} (h : s.env = t.env) (c b : Nat) : (s.afterCalls c b).env = (t.afterCalls c b).env := by
  simp only [State.afterCalls, State.dropCtx, State.dropWorkers, h]

theorem State.NoFailure.of_env {s t : State} {c b : Nat} (h : s.NoFailure c b) (he : t.env = s.env) : t.NoFailure c b :=
  h.of_draws (congrArg Env.ctxDraws he) (congrArg Env.workerDraws he)

/-- What COMPRESS does, field by field, with C calls and B batches (R195). -/
def Compresses (G : Capability) (dec : Ct → Bool) (C B : Nat) : Prop :=
  ∀ (s s0 : State) (hs : Vector Word 8) (blk : Vector Word 16), s.env = s0.env → s.HoldsHS hs → s.HoldsBLK blk →
    s0.NoFailure C B →
    ∃ n t, vals dec n = Plain.compress (vals dec hs) (vals dec blk) ∧ compress G s = .ok () t ∧ t.HoldsHS n ∧
      t.dinq = s.dinq ∧ t.r = s.r ∧ t.status = s.status ∧ t.fcmd = s.fcmd ∧ t.blk = s.blk ∧
      t.scratch = Scratch.empty ∧ t.env = (s0.afterCalls C B).env ∧ t.seq.cmd = s.seq.cmd ∧ t.seq.blkLeft = s.seq.blkLeft

theorem compresses (hG : G.Fits dec) : Compresses G dec 130840 2824 := by
  intro s s0 hs blk h0 hhs hblk h
  obtain ⟨n, hn, hrun⟩ := compress_ok hG hhs hblk (h.of_env h0)
  refine ⟨n, _, hn, hrun, ?_⟩
  have he : (s.afterCalls 130840 2824).env = (s0.afterCalls 130840 2824).env := by
    generalize 130840 = c
    generalize 2824 = b
    exact afterCalls_env h0 c b
  rw [← he]
  exact ⟨rfl, rfl, rfl, rfl, rfl, rfl, rfl, rfl, rfl, rfl⟩

/-- The state after the loop of HASH has run over some blocks. -/
structure Hashed (C B : Nat) (s : State) (blocks : List (Vector Word 16)) (rest : List Frame) (n : Vector Word 8) (u : State) : Prop where
  hs : u.HoldsHS n
  blk : u.blk = match blocks.getLast? with
    | some b => filled b
    | none => s.blk
  scratch : u.scratch = if blocks = [] then s.scratch else Scratch.empty
  dinq : u.dinq = rest
  r : u.r = s.r
  status : u.status = s.status
  fcmd : u.fcmd = s.fcmd
  env : u.env = (s.afterCalls (C * blocks.length) (B * blocks.length)).env
  cmd : u.seq.cmd = s.seq.cmd
  blkLeft : u.seq.blkLeft = s.seq.blkLeft - BitVec.ofNat 32 blocks.length

/-- The loop of HASH over the first blocks, which are there, with m more to follow (R223, R224). -/
theorem hashBlocks_prefix {C B : Nat} (hC : Compresses G dec C B) : ∀ (frames : List Frame) (blocks : List (Vector Word 16)) (s : State)
    (rest : List Frame) (hs : Vector Word 8), frames.map Frame.asBlock = blocks.map some → s.dinq = frames ++ rest →
    s.HoldsHS hs → s.NoFailure (C * blocks.length) (B * blocks.length) →
    ∃ u n, (∀ m, hashBlocks G (blocks.length + m) s = hashBlocks G m u) ∧
      vals dec n = (blocks.map (vals dec)).foldl Plain.compress (vals dec hs) ∧ Hashed C B s blocks rest n u := by
  intro frames blocks
  induction blocks generalizing frames with
  | nil =>
    intro s rest hs hf hd hh _
    have : frames = [] := by simpa using hf
    subst this
    exact ⟨s, hs, fun m => by rw [List.length_nil, Nat.zero_add], rfl, hh, rfl, rfl, hd, rfl, rfl, rfl, rfl, rfl, by simp⟩
  | cons b blocks ih =>
    intro s rest hs hf hd hh h
    obtain ⟨f, fs, rfl⟩ : ∃ f fs, frames = f :: fs := by
      cases frames with
      | nil => simp at hf
      | cons f fs => exact ⟨f, fs, rfl⟩
    simp only [List.map_cons, List.cons.injEq] at hf
    have hload : loadBlock (s.setPhase .load) = .ok () (((s.setPhase .load).setDinq (fs ++ rest)).setBLK b) :=
      loadBlock_ok (by simpa using hd) hf.1
    have hlen : (b :: blocks).length = blocks.length + 1 := List.length_cons
    rw [hlen, Nat.mul_add_one, Nat.mul_add_one, Nat.add_comm _ C, Nat.add_comm _ B] at h
    obtain ⟨hfirst, hrest⟩ := h.split
    obtain ⟨n, s2, hn, hc2, g1, g2, g3, g4, g5, g6, g7, g8, g9, g10⟩ :=
      hC (((s.setPhase .load).setDinq (fs ++ rest)).setBLK b) s hs b (by simp)
        (by simpa [State.HoldsHS] using hh) (by simp [State.HoldsBLK]) hfirst
    simp only [State.setBLK_dinq, State.setDinq_dinq, State.setBLK_r, State.setDinq_r, State.setPhase_r, State.setBLK_status,
      State.setDinq_status, State.setPhase_status, State.setBLK_fcmd, State.setDinq_fcmd, State.setPhase_fcmd,
      State.setBLK_blk] at g2 g3 g4 g5 g6
    obtain ⟨u, n', hu, hn', U⟩ := ih fs (s2.setBlkLeft (s2.seq.blkLeft - 1)) rest n hf.2 g2 g1
      (hrest.of_env g8)
    refine ⟨u, n', ?_, ?_, U.hs, ?_, ?_, U.dinq, U.r.trans g3, U.status.trans g4, U.fcmd.trans g5, ?_, U.cmd.trans g9, ?_⟩
    · intro m
      rw [hlen, Nat.add_right_comm, hashBlocks, bind_update, bind_ok hload, bind_ok hc2, bind_update]
      exact hu m
    · rw [hn', hn, List.map_cons, List.foldl_cons, vals]
    · rw [U.blk]
      cases blocks with
      | nil => exact g6
      | cons b' bs =>
        rw [List.getLast?_cons_cons]
        cases h' : (b' :: bs).getLast? with
        | none => simp at h'
        | some x => rfl
    · rw [U.scratch, if_neg (List.cons_ne_nil _ _), State.setBlkLeft_scratch, g7, ite_self]
    · rw [U.env]
      have : (s.afterCalls C B).afterCalls (C * blocks.length) (B * blocks.length) =
          s.afterCalls (C * (b :: blocks).length) (B * (b :: blocks).length) := by
        rw [afterCalls_afterCalls, hlen, Nat.mul_add_one, Nat.mul_add_one, Nat.add_comm _ C, Nat.add_comm _ B]
      rw [← this]
      exact afterCalls_env g8 _ _
    · have h10 : s2.seq.blkLeft = s.seq.blkLeft := g10
      rw [U.blkLeft, hlen, State.setBlkLeft_seq_blkLeft, h10, BitVec.sub_sub]
      congr 1
      rw [Nat.add_comm]
      apply BitVec.eq_of_toNat_eq
      simp

/-- The loop of HASH over blocks that are there (R223, R224). -/
theorem hashBlocks_ok {C B : Nat} (hC : Compresses G dec C B) (frames : List Frame) (blocks : List (Vector Word 16)) (s : State)
    (rest : List Frame) (hs : Vector Word 8) (hf : frames.map Frame.asBlock = blocks.map some) (hd : s.dinq = frames ++ rest)
    (hh : s.HoldsHS hs) (h : s.NoFailure (C * blocks.length) (B * blocks.length)) :
    ∃ u n, hashBlocks G blocks.length s = .ok () u ∧
      vals dec n = (blocks.map (vals dec)).foldl Plain.compress (vals dec hs) ∧ Hashed C B s blocks rest n u := by
  obtain ⟨u, n, hu, hn, U⟩ := hashBlocks_prefix hC frames blocks s rest hs hf hd hh h
  exact ⟨u, n, hu 0, hn, U⟩

/-- A HASH whose next frame has not come waits in phase LOAD (R61, R223). -/
theorem hashBlocks_waiting {s : State} {m : Nat} (hd : s.dinq = []) :
    hashBlocks G (m + 1) s = .error .held (s.setPhase .load) := by
  have : dinBlockFrame (s.setPhase .load) = .error .held (s.setPhase .load) := by
    simp only [dinBlockFrame, takeFrame, State.setPhase_dinq, hd]
  have hl : loadBlock (s.setPhase .load) = .error .held (s.setPhase .load) := bind_error this
  rw [hashBlocks, bind_update]
  exact bind_error hl

/-- A HASH whose next frame is no block faults, the frame consumed (R61, R223). -/
theorem hashBlocks_bad {s : State} {m : Nat} {f : Frame} {q : List Frame} (hd : s.dinq = f :: q) (hf : f.asBlock = none) :
    hashBlocks G (m + 1) s = .error .faulted (((s.setPhase .load).setDinq q).takeFault .fShape) := by
  have : dinBlockFrame (s.setPhase .load) = .error .faulted (((s.setPhase .load).setDinq q).takeFault .fShape) := by
    simp only [dinBlockFrame, takeFrame, State.setPhase_dinq, hd, hf]
  have hl : loadBlock (s.setPhase .load) = .error .faulted (((s.setPhase .load).setDinq q).takeFault .fShape) := bind_error this
  rw [hashBlocks, bind_update]
  exact bind_error hl

/-! Frames as the host sends them (R55, R60). -/

theorem toWord_toList (w : Word) : toWord w.toList = some w := by
  unfold toWord
  rw [dif_pos (by simp)]
  rfl

theorem toWord_eq_some {cells : List Ct} {w : Word} (h : toWord cells = some w) : cells = w.toList := by
  unfold toWord at h
  split at h
  · cases h
    rfl
  · cases h

theorem toWords_map (ws : List Word) : toWords (ws.map Vector.toList) = some ws := by
  induction ws with
  | nil => rfl
  | cons w ws ih => rw [List.map_cons, toWords, toWord_toList, ih]

theorem toWords_eq_some {fs : List (List Ct)} {ws : List Word} (h : toWords fs = some ws) : fs = ws.map Vector.toList := by
  induction fs generalizing ws with
  | nil =>
    cases h
    rfl
  | cons f fs ih =>
    rw [toWords] at h
    split at h
    · rename_i w ws' h1 h2
      cases h
      rw [List.map_cons, ← toWord_eq_some h1, ← ih h2]
    · cases h

/-- A word frame of 32 cells is that word, and nothing else is one (R61). -/
theorem asWord_iff {f : Frame} {w : Word} : f.asWord = some w ↔ f = .word w.toList := by
  constructor
  · intro h
    cases f with
    | word cells => rw [toWord_eq_some h]
    | block fs => cases h
  · rintro rfl
    exact toWord_toList w

/-- A block frame of 16 words of 32 cells is that block, and nothing else is one (R61). -/
theorem asBlock_iff {f : Frame} {b : Vector Word 16} : f.asBlock = some b ↔ f = .block (b.toList.map Vector.toList) := by
  constructor
  · intro h
    cases f with
    | word cells => cases h
    | block fs =>
      simp only [Frame.asBlock, toBlock] at h
      split at h
      · rename_i ws hws
        split at h
        · cases h
          rw [toWords_eq_some hws]
          rfl
        · cases h
      · cases h
  · rintro rfl
    simp only [Frame.asBlock, toBlock, toWords_map]
    rw [dif_pos (by simp)]
    rfl

theorem asBlock_frames (blocks : List (Vector Word 16)) :
    (blocks.map fun b => Frame.block (b.toList.map Vector.toList)).map Frame.asBlock = blocks.map some := by
  rw [List.map_map]
  exact List.map_congr_left fun b _ => asBlock_iff.2 rfl

/-- What HASH does from its loop on, at a state. -/
theorem hashRest_run (s : State) : hashRest G s =
    (hashBlocks G s.seq.blkLeft.toNat >>= fun _ => update (fun s => s.setPhase .out) >>= fun _ =>
      emitDigest >>= fun _ => update fun s => s.setPhase .none) s := rfl

/-- HASH starts with HINIT (R223). -/
theorem hashAll_start (hG : G.Fits dec) {s : State} (imm : U32) (h : s.NoFailure 256 0) :
    ∃ n : Vector Word 8, vals dec n = Plain.iv ∧
      hashAll G imm s = hashRest G ((((s.setBlkLeft imm).setPhase .hinit).afterCalls 256 0).setHS n) := by
  obtain ⟨n, hn, hinit⟩ := initHash_ok hG (s := (s.setBlkLeft imm).setPhase .hinit) (h.of_draws rfl rfl)
  exact ⟨n, hn, by rw [hashAll, bind_update, bind_update, bind_ok hinit]⟩

/-- From the loop on, over blocks that are there (R223, R224). -/
theorem hashRest_ok (hG : G.Fits dec) {frames : List Frame} {blocks : List (Vector Word 16)} {s : State}
    {rest : List Frame} {hs : Vector Word 8} (hf : frames.map Frame.asBlock = blocks.map some) (hd : s.dinq = frames ++ rest)
    (hh : s.HoldsHS hs) (hl : blocks.length = s.seq.blkLeft.toNat)
    (h : s.NoFailure (130840 * blocks.length) (2824 * blocks.length)) :
    ∃ u n, hashRest G s = .ok () (State.setPhase { u with env := { u.env with dout := u.env.dout ++ n.toList } } .none) ∧
      vals dec n = (blocks.map (vals dec)).foldl Plain.compress (vals dec hs) ∧ Hashed 130840 2824 s blocks rest n u := by
  obtain ⟨u, n, hu, hn, U⟩ := hashBlocks_ok (compresses hG) frames blocks s rest hs hf hd hh h
  have hemit : emitDigest (u.setPhase .out) = .ok () { u.setPhase .out with
      env := { u.env with dout := u.env.dout ++ n.toList } } := emitDigest_ok (s := u.setPhase .out) U.hs
  refine ⟨u, n, ?_, hn, U⟩
  rw [hashRest_run, ← hl, bind_ok hu, bind_update, bind_ok hemit, update_run]
  rfl

/-- From the loop on, over fewer blocks than are left, with no frame after them: a wait in phase LOAD (R61, R223). -/
theorem hashRest_waits (hG : G.Fits dec) {frames : List Frame} {blocks : List (Vector Word 16)} {s : State} {hs : Vector Word 8}
    (hf : frames.map Frame.asBlock = blocks.map some) (hd : s.dinq = frames) (hh : s.HoldsHS hs)
    (hl : blocks.length < s.seq.blkLeft.toNat) (h : s.NoFailure (130840 * blocks.length) (2824 * blocks.length)) :
    ∃ u n, hashRest G s = .error .held (u.setPhase .load) ∧
      vals dec n = (blocks.map (vals dec)).foldl Plain.compress (vals dec hs) ∧ Hashed 130840 2824 s blocks [] n u := by
  obtain ⟨u, n, hu, hn, U⟩ := hashBlocks_prefix (compresses hG) frames blocks s [] hs hf (by rw [hd, List.append_nil]) hh h
  obtain ⟨m, hm⟩ := Nat.exists_eq_add_of_lt hl
  have hrun := (hu (m + 1)).trans (hashBlocks_waiting U.dinq)
  refine ⟨u, n, ?_, hn, U⟩
  rw [hashRest_run, hm, Nat.add_assoc]
  exact bind_error hrun

/-- From the loop on, over fewer blocks than are left, with a frame after them that is no block: `F_SHAPE` (R61, R223, R263). -/
theorem hashRest_bad (hG : G.Fits dec) {frames : List Frame} {blocks : List (Vector Word 16)} {s : State} {f : Frame} {q : List Frame}
    {hs : Vector Word 8} (hf : frames.map Frame.asBlock = blocks.map some) (hd : s.dinq = frames ++ f :: q) (hbad : f.asBlock = none)
    (hh : s.HoldsHS hs) (hl : blocks.length < s.seq.blkLeft.toNat) (h : s.NoFailure (130840 * blocks.length) (2824 * blocks.length)) :
    ∃ u n, hashRest G s = .error .faulted (((u.setPhase .load).setDinq q).takeFault .fShape) ∧
      Hashed 130840 2824 s blocks (f :: q) n u := by
  obtain ⟨u, n, hu, -, U⟩ := hashBlocks_prefix (compresses hG) frames blocks s (f :: q) hs hf hd hh h
  obtain ⟨m, hm⟩ := Nat.exists_eq_add_of_lt hl
  have hrun := (hu (m + 1)).trans (hashBlocks_bad U.dinq hbad)
  refine ⟨u, n, ?_, U⟩
  rw [hashRest_run, hm, Nat.add_assoc]
  exact bind_error hrun

/-- The state in which a HASH waits, from the state after the blocks it has taken. -/
theorem Hashed.waiting {C B : Nat} {s u : State} {blocks : List (Vector Word 16)} {n : Vector Word 8} (U : Hashed C B s blocks [] n u) :
    HashWaiting s (u.setPhase .load) blocks n where
  status := U.status
  fcmd := U.fcmd
  cmd := U.cmd
  phase := rfl
  hs := U.hs
  blk b hb := by
    have h := U.blk
    rw [hb] at h
    exact h
  noBlk h0 := by
    have h := U.blk
    rw [h0] at h
    exact h
  scratch := U.scratch
  r := U.r
  dinq := U.dinq

/-- Blocks left, counted down (R223). -/
theorem Hashed.left {C B : Nat} {s u : State} {blocks : List (Vector Word 16)} {rest : List Frame} {n : Vector Word 8}
    (U : Hashed C B s blocks rest n u) (hl : blocks.length ≤ s.seq.blkLeft.toNat) :
    u.seq.blkLeft.toNat = s.seq.blkLeft.toNat - blocks.length := by
  have hlt := s.seq.blkLeft.isLt
  rw [U.blkLeft, BitVec.toNat_sub_of_le]
  · rw [BitVec.toNat_ofNat, Nat.mod_eq_of_lt (by omega)]
  · rw [BitVec.le_def, BitVec.toNat_ofNat, Nat.mod_eq_of_lt (by omega)]
    exact hl

/-- HASH over blocks that are there (R223, R224). -/
theorem hashAll_ok (hG : G.Fits dec) {frames : List Frame} {blocks : List (Vector Word 16)} {s : State}
    {rest : List Frame} {imm : U32} (hf : frames.map Frame.asBlock = blocks.map some) (hd : s.dinq = frames ++ rest)
    (hl : blocks.length = imm.toNat) (h : s.NoFailure (256 + 130840 * blocks.length) (2824 * blocks.length)) :
    ∃ u n, hashAll G imm s = .ok () u ∧ vals dec n = Plain.hash (blocks.map (vals dec)) ∧
      u.HoldsHS n ∧ u.dinq = rest ∧ u.r = s.r ∧ u.status = s.status ∧ u.fcmd = s.fcmd ∧
      (u.blk = match blocks.getLast? with
        | some b => filled b
        | none => s.blk) ∧
      (u.scratch = if blocks = [] then s.scratch else Scratch.empty) ∧
      u.env = { (s.afterCalls (256 + 130840 * blocks.length) (2824 * blocks.length)).env with
        dout := s.env.dout ++ n.toList } := by
  obtain ⟨n0, hn0, hstart⟩ := hashAll_start hG (s := s) imm (h.within 0 0 256 0 (by omega) (by omega))
  obtain ⟨u, n, hu, hn, U⟩ := hashRest_ok hG (s := (((s.setBlkLeft imm).setPhase .hinit).afterCalls 256 0).setHS n0)
    (hs := n0) hf hd rfl hl
    ((h.within 256 0 (130840 * blocks.length) (2824 * blocks.length) (by omega) (by omega)).of_draws rfl rfl)
  refine ⟨_, n, hstart.trans hu, ?_, U.hs, U.dinq, U.r, U.status, U.fcmd, U.blk, U.scratch, ?_⟩
  · rw [hn, hn0, Plain.hash]
  · show ({ u.env with dout := u.env.dout ++ n.toList } : Env) = _
    rw [U.env]
    have : (s.afterCalls 256 0).afterCalls (130840 * blocks.length) (2824 * blocks.length) =
        s.afterCalls (256 + 130840 * blocks.length) (2824 * blocks.length) := by
      rw [afterCalls_afterCalls, Nat.zero_add]
    rw [← this]
    rfl

end Sys2Proof.Machine
end

