-- ==== Sys2Proof/Laws/Outcome.lean ====
section
/-!
SUPPORT. Every outcome of a stretch of the sequencer's work, failures and waits among them: what it keeps, and what a fault is caused by.
-/

namespace Sys2Proof.Machine

/-- What holds after a run: P where it ends, E where it stops. -/
def Post {α : Type} (m : Micro α) (s : State) (P : α → State → Prop) (E : Stop → State → Prop) : Prop :=
  match m s with
  | .ok a t => P a t
  | .error e t => E e t

theorem Post.bind {α β : Type} {m : Micro α} {f : α → Micro β} {s : State} {P : β → State → Prop}
    {E : Stop → State → Prop} (h : Post m s (fun a t => Post (f a) t P E) E) : Post (m >>= f) s P E := by
  unfold Post at h ⊢
  simp only [Bind.bind, EStateM.bind]
  cases hm : m s with
  | ok a t => simpa [hm] using h
  | error e t => simpa [hm] using h

theorem Post.mono {α : Type} {m : Micro α} {s : State} {P P' : α → State → Prop} {E E' : Stop → State → Prop}
    (h : Post m s P E) (hP : ∀ a t, P a t → P' a t) (hE : ∀ e t, E e t → E' e t) : Post m s P' E' := by
  unfold Post at h ⊢
  cases hm : m s with
  | ok a t => exact hP a t (by simpa [hm] using h)
  | error e t => exact hE e t (by simpa [hm] using h)

theorem Post.of_ok {α : Type} {m : Micro α} {s t : State} {a : α} {P : α → State → Prop} {E : Stop → State → Prop}
    (h : Post m s P E) (hm : m s = .ok a t) : P a t := by
  simpa [Post, hm] using h

theorem Post.of_error {α : Type} {m : Micro α} {s t : State} {e : Stop} {P : α → State → Prop} {E : Stop → State → Prop}
    (h : Post m s P E) (hm : m s = .error e t) : E e t := by
  simpa [Post, hm] using h

/-- How a stretch of work that keeps R stops: in a wait, where W allows one, it has kept R; a fault it raised is one that C allows. -/
def Stopped (W : Prop) (R : State → State → Prop) (C : State → FaultCode → Prop) (s : State) (e : Stop) (t : State) : Prop :=
  match e with
  | .held => W ∧ R s t
  | .faulted => ∃ u c, R s u ∧ C s c ∧ t = u.takeFault c

/-- R is kept by steps one after another, and a fault allowed later is allowed from the start. -/
structure Chains (R : State → State → Prop) (C : State → FaultCode → Prop) : Prop where
  refl : ∀ s, R s s
  trans : ∀ {s t u}, R s t → R t u → R s u
  back : ∀ {s t c}, R s t → C t c → C s c

variable {W : Prop} {R : State → State → Prop} {C : State → FaultCode → Prop}

theorem Stopped.back (h : Chains R C) {s t u : State} {e : Stop} (hR : R s t) (hs : Stopped W R C t e u) :
    Stopped W R C s e u := by
  cases e with
  | held => exact ⟨hs.1, h.trans hR hs.2⟩
  | faulted =>
    obtain ⟨v, c, h1, h2, rfl⟩ := hs
    exact ⟨v, c, h.trans hR h1, h.back hR h2, rfl⟩

/-- From every state, the work keeps R and raises only faults that C allows. -/
def Keeps (W : Prop) (R : State → State → Prop) (C : State → FaultCode → Prop) {α : Type} (m : Micro α) : Prop :=
  ∀ s, Post m s (fun _ t => R s t) (Stopped W R C s)

/-- The same, with the result described by P. -/
def Yields (W : Prop) (R : State → State → Prop) (C : State → FaultCode → Prop) {α : Type} (P : State → α → State → Prop)
    (m : Micro α) : Prop :=
  ∀ s, Post m s (P s) (Stopped W R C s)

theorem yields_bind (h : Chains R C) {α β : Type} {m : Micro α} {f : α → Micro β} {P : State → β → State → Prop}
    (hP : ∀ {s t b u}, R s t → P t b u → P s b u) (hm : Keeps W R C m) (hf : ∀ a, Yields W R C P (f a)) :
    Yields W R C P (m >>= f) := by
  intro s
  refine Post.bind ((hm s).mono (fun a t ht => ?_) fun _ _ h => h)
  exact (hf a t).mono (fun _ _ h' => hP ht h') fun _ _ h' => Stopped.back h ht h'

theorem keeps_bind (h : Chains R C) {α β : Type} {m : Micro α} {f : α → Micro β} (hm : Keeps W R C m)
    (hf : ∀ a, Keeps W R C (f a)) : Keeps W R C (m >>= f) :=
  yields_bind h (P := fun s _ t => R s t) h.trans hm hf

theorem keeps_pure (h : Chains R C) {α : Type} (a : α) : Keeps W R C (pure a : Micro α) := fun s => h.refl s

theorem keeps_update {f : State → State} (hf : ∀ s, R s (f s)) : Keeps W R C (update f) := hf

theorem yields_update {f : State → State} : Yields W R C (fun s _ t => t = f s) (update f) := fun _ => rfl

theorem keeps_forRange (h : Chains R C) {lo : Nat} {body : Nat → Micro Unit} (hb : ∀ i, Keeps W R C (body i)) :
    ∀ n, Keeps W R C (forRange lo n body)
  | 0 => keeps_pure h ()
  | n + 1 => keeps_bind h (keeps_forRange h hb n) fun _ => hb _

theorem keeps_collect (h : Chains R C) {α : Type} : ∀ {n : Nat} {f : Fin n → Micro α}, (∀ i, Keeps W R C (f i)) →
    Keeps W R C (collect n f)
  | 0, _, _ => keeps_pure h _
  | _ + 1, _, hf => keeps_bind h (keeps_collect h fun i => hf i.castSucc) fun _ => keeps_bind h (hf _) fun _ => keeps_pure h _

theorem keeps_readElement (h : Chains R C) (hC : ∀ s, C s .fShape) (x : State → Option Word) :
    Keeps W R C (readElement x) := by
  intro s
  unfold Post readElement
  cases x s with
  | none => exact ⟨s, .fShape, h.refl s, hC s, rfl⟩
  | some w => exact h.refl s

/-- The faults of A, and each with its cause (R262, R264). -/
def Caused (A : FaultCode → Prop) (s : State) (c : FaultCode) : Prop :=
  A c ∧ (c = .fCtx → true ∈ s.env.ctxDraws) ∧ (c = .fWorker → true ∈ s.env.workerDraws)

/-- Only draws are used. -/
def Quiet (s t : State) : Prop := ∃ c w, t = (s.dropCtx c).dropWorkers w

theorem quiet_chains (A : FaultCode → Prop) : Chains Quiet (Caused A) where
  refl _ := ⟨0, 0, rfl⟩
  trans := by
    rintro s t u ⟨c, w, rfl⟩ ⟨c', w', rfl⟩
    exact ⟨c + c', w + w', by simp [State.dropCtx, State.dropWorkers, List.drop_drop]⟩
  back := by
    rintro s t c ⟨k, w, rfl⟩ ⟨h1, h2, h3⟩
    exact ⟨h1, fun h => List.mem_of_mem_drop (h2 h), fun h => List.mem_of_mem_drop (h3 h)⟩

/-- What the sequencer changes inside a command: draws, scratch storage, its own position. -/
structure Inside (s t : State) : Prop where
  r : t.r = s.r
  hs : t.hs = s.hs
  blk : t.blk = s.blk
  status : t.status = s.status
  fcmd : t.fcmd = s.fcmd
  dinq : t.dinq = s.dinq
  cmd : t.seq.cmd = s.seq.cmd
  blkLeft : t.seq.blkLeft = s.seq.blkLeft
  host : t.env.host = s.env.host
  dout : t.env.dout = s.env.dout
  ctx : true ∈ t.env.ctxDraws → true ∈ s.env.ctxDraws
  workers : true ∈ t.env.workerDraws → true ∈ s.env.workerDraws

theorem inside_chains (A : FaultCode → Prop) : Chains Inside (Caused A) where
  refl _ := ⟨rfl, rfl, rfl, rfl, rfl, rfl, rfl, rfl, rfl, rfl, id, id⟩
  trans h k := ⟨k.r.trans h.r, k.hs.trans h.hs, k.blk.trans h.blk, k.status.trans h.status, k.fcmd.trans h.fcmd,
    k.dinq.trans h.dinq, k.cmd.trans h.cmd, k.blkLeft.trans h.blkLeft, k.host.trans h.host, k.dout.trans h.dout,
    h.ctx ∘ k.ctx, h.workers ∘ k.workers⟩
  back h := fun ⟨h1, h2, h3⟩ => ⟨h1, h.ctx ∘ h2, h.workers ∘ h3⟩

theorem Quiet.inside {s t : State} (h : Quiet s t) : Inside s t := by
  obtain ⟨c, w, rfl⟩ := h
  exact ⟨rfl, rfl, rfl, rfl, rfl, rfl, rfl, rfl, rfl, rfl, List.mem_of_mem_drop, List.mem_of_mem_drop⟩

theorem Quiet.scratch {s t : State} (h : Quiet s t) : t.scratch = s.scratch := by
  obtain ⟨c, w, rfl⟩ := h
  rfl

theorem Quiet.seq {s t : State} (h : Quiet s t) : t.seq = s.seq := by
  obtain ⟨c, w, rfl⟩ := h
  rfl

/-- Work that only uses draws keeps any weaker relation, with more faults allowed. -/
theorem Keeps.weaken {R' : State → State → Prop} {C' : State → FaultCode → Prop} {α : Type} {m : Micro α}
    (h : Keeps W R C m) (hR : ∀ {s t}, R s t → R' s t) (hC : ∀ {s c}, C s c → C' s c) : Keeps W R' C' m := by
  intro s
  refine (h s).mono (fun _ _ => hR) fun e t ht => ?_
  cases e with
  | held => exact ⟨ht.1, hR ht.2⟩
  | faulted =>
    obtain ⟨u, c, h1, h2, h3⟩ := ht
    exact ⟨u, c, hR h1, hC h2, h3⟩

variable {A : FaultCode → Prop} {G : Capability}

theorem any_take_mem {l : List Bool} {n : Nat} (h : (l.take n).any id = true) : true ∈ l := by
  simp only [List.any_eq_true, id] at h
  obtain ⟨x, hx, rfl⟩ := h
  exact List.mem_of_mem_take hx

theorem keeps_triv (hA : A .fCtx) (b : Bool) : Keeps W Quiet (Caused A) (triv G b) := by
  intro s
  simp only [Post, triv, drawCtx, bind, EStateM.bind]
  cases h : (s.env.ctxDraws.take 1).any id with
  | true => exact ⟨s.dropCtx 1, .fCtx, ⟨1, 0, rfl⟩, ⟨hA, fun _ => any_take_mem h, by simp⟩, rfl⟩
  | false => exact ⟨1, 0, rfl⟩

theorem keeps_gate (hA : A .fCtx) (k : GateKind) (a b : Ct) : Keeps W Quiet (Caused A) (gate G k a b) := by
  intro s
  simp only [Post, gate, drawCtx, bind, EStateM.bind]
  cases h : (s.env.ctxDraws.take 1).any id with
  | true => exact ⟨s.dropCtx 1, .fCtx, ⟨1, 0, rfl⟩, ⟨hA, fun _ => any_take_mem h, by simp⟩, rfl⟩
  | false => exact ⟨1, 0, rfl⟩

theorem keeps_batch (hA : A .fCtx) (hW : A .fWorker) (q : BatchOp) : Keeps W Quiet (Caused A) (batch G q) := by
  intro s
  simp only [Post, batch, drawCtx, drawWorkers, bind, EStateM.bind]
  cases h : (s.env.ctxDraws.take Config.LANES).any id with
  | true => exact ⟨_, .fCtx, ⟨32, 8, rfl⟩, ⟨hA, fun _ => any_take_mem h, by simp⟩, rfl⟩
  | false =>
    cases h' : ((s.dropCtx Config.LANES).env.workerDraws.take Config.NCHUNK).any id with
    | true => exact ⟨_, .fWorker, ⟨32, 8, rfl⟩, ⟨hW, by simp, fun _ => any_take_mem h'⟩, rfl⟩
    | false => exact ⟨32, 8, rfl⟩

theorem keeps_trivW (hA : A .fCtx) (v : U32) : Keeps W Quiet (Caused A) (trivW G v) :=
  keeps_collect (quiet_chains A) fun _ => keeps_triv hA _

theorem keeps_shR (hA : A .fCtx) (x : Word) (n : Nat) : Keeps W Quiet (Caused A) (shR G x n) :=
  keeps_bind (quiet_chains A) (keeps_collect (quiet_chains A) fun _ => keeps_triv hA _) fun _ => keeps_pure (quiet_chains A) _

/-- ROTR calls nothing; SHR by 0 neither. -/
theorem shR_zero (x : Word) (s : State) : ∃ w, shR G x 0 s = .ok w s := ⟨_, rfl⟩

theorem keeps_ssig0 (hA : A .fCtx) (hW : A .fWorker) (x : Word) : Keeps W Quiet (Caused A) (ssig0 G x) :=
  keeps_bind (quiet_chains A) (keeps_batch hA hW _) fun _ =>
    keeps_bind (quiet_chains A) (keeps_shR hA _ _) fun _ => keeps_batch hA hW _

theorem keeps_ssig1 (hA : A .fCtx) (hW : A .fWorker) (x : Word) : Keeps W Quiet (Caused A) (ssig1 G x) :=
  keeps_bind (quiet_chains A) (keeps_batch hA hW _) fun _ =>
    keeps_bind (quiet_chains A) (keeps_shR hA _ _) fun _ => keeps_batch hA hW _

theorem keeps_bsig0 (hA : A .fCtx) (hW : A .fWorker) (x : Word) : Keeps W Quiet (Caused A) (bsig0 G x) :=
  keeps_bind (quiet_chains A) (keeps_batch hA hW _) fun _ => keeps_batch hA hW _

theorem keeps_bsig1 (hA : A .fCtx) (hW : A .fWorker) (x : Word) : Keeps W Quiet (Caused A) (bsig1 G x) :=
  keeps_bind (quiet_chains A) (keeps_batch hA hW _) fun _ => keeps_batch hA hW _

theorem keeps_ch (hA : A .fCtx) (hW : A .fWorker) (x y z : Word) : Keeps W Quiet (Caused A) (ch G x y z) :=
  keeps_bind (quiet_chains A) (keeps_batch hA hW _) fun _ => keeps_bind (quiet_chains A) (keeps_batch hA hW _) fun _ =>
    keeps_bind (quiet_chains A) (keeps_batch hA hW _) fun _ => keeps_batch hA hW _

theorem keeps_maj (hA : A .fCtx) (hW : A .fWorker) (x y z : Word) : Keeps W Quiet (Caused A) (maj G x y z) :=
  keeps_bind (quiet_chains A) (keeps_batch hA hW _) fun _ => keeps_bind (quiet_chains A) (keeps_batch hA hW _) fun _ =>
    keeps_bind (quiet_chains A) (keeps_batch hA hW _) fun _ => keeps_bind (quiet_chains A) (keeps_batch hA hW _) fun _ =>
      keeps_batch hA hW _

/-! Inside a command. -/

theorem Keeps.inside {α : Type} {m : Micro α} (h : Keeps W Quiet (Caused A) m) : Keeps W Inside (Caused A) m :=
  h.weaken Quiet.inside id

/-- An update that reaches only scratch storage and the sequencer's position. -/
theorem inside_of {s t : State} (h : ∃ sc p i j, t = { s with scratch := sc, seq := { s.seq with phase := p, t := i, ci := j } }) :
    Inside s t := by
  obtain ⟨sc, p, i, j, rfl⟩ := h
  exact ⟨rfl, rfl, rfl, rfl, rfl, rfl, rfl, rfl, rfl, rfl, id, id⟩

theorem keeps_carryFrom (hA : A .fCtx) (p g : Word) : ∀ (m : Nat) (h : m < 32) (c : Ct),
    Keeps W Inside (Caused A) (carryFrom G p g m h c)
  | 0, _, _ => keeps_pure (inside_chains A) _
  | _ + 1, _, _ =>
    keeps_bind (inside_chains A) (keeps_update fun _ => inside_of ⟨_, _, _, _, rfl⟩) fun _ =>
      keeps_bind (inside_chains A) (keeps_gate hA _ _ _).inside fun _ =>
        keeps_bind (inside_chains A) (keeps_gate hA _ _ _).inside fun _ =>
          keeps_bind (inside_chains A) (keeps_carryFrom hA p g _ _ _) fun _ => keeps_pure (inside_chains A) _

/-- The scratch storage before an addition is the one after it, the adder's words `empty`. -/
def Added (s : State) (t : State) : Prop := Inside s t ∧ t.scratch = s.scratch.noAdder

theorem carryFrom_scratch (hA : A .fCtx) (p g : Word) (m : Nat) (h : m < 32) (c : Ct) (s : State) :
    Post (carryFrom G p g m h c) s (fun _ t => t.scratch = s.scratch) fun _ _ => True := by
  have chains : Chains (fun s t : State => t.scratch = s.scratch) fun _ _ => True :=
    ⟨fun _ => rfl, fun h k => k.trans h, fun _ _ => trivial⟩
  have gates : ∀ k a b, Keeps False (fun s t : State => t.scratch = s.scratch) (fun _ _ => True) (gate G k a b) := fun k a b =>
    (keeps_gate (A := A) hA k a b).weaken Quiet.scratch fun _ => trivial
  have all : ∀ (m : Nat) (h : m < 32) (c : Ct),
      Keeps False (fun s t : State => t.scratch = s.scratch) (fun _ _ => True) (carryFrom G p g m h c) := by
    intro m
    induction m with
    | zero => exact fun _ _ => keeps_pure chains _
    | succ m ih =>
      exact fun _ _ => keeps_bind chains (keeps_update fun _ => rfl) fun _ => keeps_bind chains (gates _ _ _) fun _ =>
        keeps_bind chains (gates _ _ _) fun _ => keeps_bind chains (ih _ _) fun _ => keeps_pure chains _
  exact (all m h c s).mono (fun _ _ h => h) fun _ _ _ => trivial

theorem keeps_add (hA : A .fCtx) (hW : A .fWorker) (a b : Word) : Keeps W Inside (Caused A) (add G a b) :=
  keeps_bind (inside_chains A) (keeps_batch hA hW _).inside fun _ =>
    keeps_bind (inside_chains A) (keeps_update fun _ => inside_of ⟨_, _, _, _, rfl⟩) fun _ =>
      keeps_bind (inside_chains A) (keeps_batch hA hW _).inside fun _ =>
        keeps_bind (inside_chains A) (keeps_update fun _ => inside_of ⟨_, _, _, _, rfl⟩) fun _ =>
          keeps_bind (inside_chains A) (keeps_triv hA _).inside fun _ =>
            keeps_bind (inside_chains A) (keeps_carryFrom hA _ _ _ _ _) fun _ =>
              keeps_bind (inside_chains A) (keeps_update fun _ => inside_of ⟨_, _, _, _, rfl⟩) fun _ =>
                keeps_bind (inside_chains A) (keeps_batch hA hW _).inside fun _ =>
                  keeps_bind (inside_chains A) (keeps_update fun _ => inside_of ⟨_, _, _, _, rfl⟩) fun _ =>
                    keeps_pure (inside_chains A) _

/-- An addition leaves the adder's words `empty` and the rest of the scratch storage as it was. -/
theorem add_scratch (a b : Word) (s : State) :
    Post (add G a b) s (fun _ t => t.scratch = s.scratch.noAdder) fun _ _ => True := by
  have hb : ∀ (q : BatchOp) (s : State), Post (batch G q) s (fun _ t => t.scratch = s.scratch) fun _ _ => True := fun q s =>
    (keeps_batch (W := False) (A := fun _ => True) trivial trivial q s).mono (fun _ _ h => Quiet.scratch h) fun _ _ _ => trivial
  have ht : ∀ (b : Bool) (s : State), Post (triv G b) s (fun _ t => t.scratch = s.scratch) fun _ _ => True := fun b s =>
    (keeps_triv (W := False) (A := fun _ => True) trivial b s).mono (fun _ _ h => Quiet.scratch h) fun _ _ _ => trivial
  refine Post.bind ((hb _ s).mono (fun p t1 h1 => ?_) fun _ _ _ => trivial)
  refine Post.bind ?_
  refine Post.bind ((hb _ (t1.setAP p)).mono (fun g t2 h2 => ?_) fun _ _ _ => trivial)
  refine Post.bind ?_
  refine Post.bind ((ht _ (t2.setAG g)).mono (fun c31 t3 h3 => ?_) fun _ _ _ => trivial)
  refine Post.bind ((carryFrom_scratch (A := fun _ => True) trivial p g 31 _ c31 t3).mono (fun c t4 h4 => ?_) fun _ _ _ => trivial)
  refine Post.bind ?_
  refine Post.bind ((hb _ (t4.setAC (c.push c31))).mono (fun sum t5 h5 => ?_) fun _ _ _ => trivial)
  show t5.clearAdder.scratch = s.scratch.noAdder
  simp only [State.clearAdder, Scratch.noAdder, h5, State.setAC, h4, h3, State.setAG, h2, State.setAP, h1]

theorem yields_add (hA : A .fCtx) (hW : A .fWorker) (a b : Word) :
    Yields W Inside (Caused A) (fun s _ t => Added s t) (add G a b) := by
  intro s
  have h1 := keeps_add (W := W) (G := G) hA hW a b s
  have h2 := add_scratch (G := G) a b s
  unfold Post at h1 h2 ⊢
  cases hm : add G a b s with
  | ok w t => exact ⟨by simpa [hm] using h1, by simpa [hm] using h2⟩
  | error e t => simpa [hm] using h1

/-! The phases of COMPRESS. -/

theorem caused_shape (hS : A .fShape) (s : State) : Caused A s .fShape := ⟨hS, by simp, by simp⟩

theorem keeps_read (hS : A .fShape) (x : State → Option Word) : Keeps W Inside (Caused A) (readElement x) :=
  keeps_readElement (inside_chains A) (caused_shape hS) x

variable (hC : A .fCtx) (hS : A .fShape) (hW : A .fWorker)
include hC hS hW

theorem keeps_schedulePhase : Keeps W Inside (Caused A) (schedulePhase G) := by
  have chain := @keeps_bind W _ _ (inside_chains A)
  have up : ∀ f : State → State, (∀ s, Inside s (f s)) → Keeps W Inside (Caused A) (update f) := fun _ => keeps_update
  refine chain (keeps_forRange (inside_chains A) (fun i => chain (keeps_read hS _) fun _ =>
      up _ fun _ => inside_of ⟨_, _, _, _, rfl⟩) 16) fun _ =>
    keeps_forRange (inside_chains A) (fun i => ?_) 48
  exact chain (up _ fun _ => inside_of ⟨_, _, _, _, rfl⟩) fun _ => chain (keeps_read hS _) fun _ =>
    chain (keeps_ssig1 hC hW _).inside fun _ => chain (keeps_read hS _) fun _ =>
    chain (keeps_add hC hW _ _) fun _ => chain (keeps_read hS _) fun _ =>
    chain (keeps_ssig0 hC hW _).inside fun _ => chain (keeps_add hC hW _ _) fun _ =>
    chain (keeps_read hS _) fun _ => chain (keeps_add hC hW _ _) fun _ =>
    up _ fun _ => inside_of ⟨_, _, _, _, rfl⟩

theorem keeps_roundPhase : Keeps W Inside (Caused A) (roundPhase G) := by
  have chain := @keeps_bind W _ _ (inside_chains A)
  have up : ∀ f : State → State, (∀ s, Inside s (f s)) → Keeps W Inside (Caused A) (update f) := fun _ => keeps_update
  refine chain (keeps_forRange (inside_chains A) (fun i => chain (keeps_read hS _) fun _ =>
      up _ fun _ => inside_of ⟨_, _, _, _, rfl⟩) 8) fun _ =>
    keeps_forRange (inside_chains A) (fun i => ?_) 64
  exact chain (up _ fun _ => inside_of ⟨_, _, _, _, rfl⟩) fun _ =>
    chain (keeps_collect (inside_chains A) fun _ => keeps_read hS _) fun _ =>
    chain (keeps_bsig1 hC hW _).inside fun _ => chain (keeps_add hC hW _ _) fun _ =>
    chain (keeps_ch hC hW _ _ _).inside fun _ => chain (keeps_add hC hW _ _) fun _ =>
    chain (keeps_trivW hC _).inside fun _ => chain (keeps_add hC hW _ _) fun _ =>
    chain (keeps_read hS _) fun _ => chain (keeps_add hC hW _ _) fun _ =>
    chain (up _ fun _ => inside_of ⟨_, _, _, _, rfl⟩) fun _ =>
    chain (keeps_bsig0 hC hW _).inside fun _ => chain (keeps_maj hC hW _ _ _).inside fun _ =>
    chain (keeps_add hC hW _ _) fun _ => chain (up _ fun _ => inside_of ⟨_, _, _, _, rfl⟩) fun _ =>
    chain (keeps_add hC hW _ _) fun _ => chain (keeps_add hC hW _ _) fun _ =>
    up _ fun _ => inside_of ⟨_, _, _, _, rfl⟩

theorem keeps_feedForwardWord (k : Fin 8) : Keeps W Inside (Caused A) (feedForwardWord G k) := by
  have chain := @keeps_bind W _ _ (inside_chains A)
  exact chain (keeps_update fun _ => inside_of ⟨_, _, _, _, rfl⟩) fun _ => chain (keeps_read hS _) fun _ =>
    chain (keeps_read hS _) fun _ => keeps_add hC hW _ _

/-- What a completed COMPRESS leaves: eight words in `HS`, the scratch storage `empty`, the rest as it was. -/
structure Compressed (s t : State) : Prop where
  hs : ∃ n : Vector Word 8, t.HoldsHS n
  scratch : t.scratch = Scratch.empty
  r : t.r = s.r
  blk : t.blk = s.blk
  status : t.status = s.status
  fcmd : t.fcmd = s.fcmd
  dinq : t.dinq = s.dinq
  cmd : t.seq.cmd = s.seq.cmd
  blkLeft : t.seq.blkLeft = s.seq.blkLeft
  host : t.env.host = s.env.host
  dout : t.env.dout = s.env.dout
  ctx : true ∈ t.env.ctxDraws → true ∈ s.env.ctxDraws
  workers : true ∈ t.env.workerDraws → true ∈ s.env.workerDraws

omit hC hS hW in
theorem Compressed.of_inside {s t u : State} (h : Inside s t) (k : Compressed t u) : Compressed s u :=
  ⟨k.hs, k.scratch, k.r.trans h.r, k.blk.trans h.blk, k.status.trans h.status, k.fcmd.trans h.fcmd, k.dinq.trans h.dinq,
    k.cmd.trans h.cmd, k.blkLeft.trans h.blkLeft, k.host.trans h.host, k.dout.trans h.dout, h.ctx ∘ k.ctx, h.workers ∘ k.workers⟩

omit hC hS hW in
/-- The last of several runs leaves what each leaves. -/
theorem collect_last {α : Type} {n : Nat} {f : Fin (n + 1) → Micro α} {Q : State → Prop}
    (hf : ∀ i s, Post (f i) s (fun _ t => Q t) fun _ _ => True) (s : State) :
    Post (collect (n + 1) f) s (fun _ t => Q t) fun _ _ => True := by
  refine Post.bind ?_
  unfold Post
  cases collect n (fun i => f i.castSucc) s with
  | error e t => trivial
  | ok xs t => exact Post.bind ((hf (Fin.last n) t).mono (fun _ _ h => h) fun _ _ h => h)

theorem yields_feedForwardPhase : Yields W Inside (Caused A) (fun s _ t => Compressed s t) (feedForwardPhase G) := by
  intro s
  have h1 : Keeps W Inside (Caused A) (collect 8 (feedForwardWord G)) :=
    keeps_collect (inside_chains A) fun k => keeps_feedForwardWord hC hS hW k
  have h2 : ∀ s, Post (collect 8 (feedForwardWord G)) s
      (fun _ t => t.scratch.ap = none ∧ t.scratch.ag = none ∧ t.scratch.ac = none) fun _ _ => True := by
    refine collect_last fun k s => ?_
    refine Post.bind ?_
    refine Post.bind ?_
    unfold Post
    cases readHS k (s.setT (tIdx k)) with
    | error e t => trivial
    | ok x t =>
      refine Post.bind ?_
      unfold Post
      cases readV k t with
      | error e t => trivial
      | ok y t =>
        exact (add_scratch x y t).mono (fun _ u h => by rw [h]; exact ⟨rfl, rfl, rfl⟩) fun _ _ _ => trivial
  have h1 := h1 s
  have h2 := h2 s
  refine Post.bind ?_
  unfold Post at h1 h2 ⊢
  cases hm : collect 8 (feedForwardWord G) s with
  | error e t => simpa [hm] using h1
  | ok n t =>
    have h1 : Inside s t := by simpa [hm] using h1
    have h2 : t.scratch.ap = none ∧ t.scratch.ag = none ∧ t.scratch.ac = none := by simpa [hm] using h2
    refine Compressed.of_inside h1 ⟨⟨n, rfl⟩, ?_, rfl, rfl, rfl, rfl, rfl, rfl, rfl, rfl, rfl, id, id⟩
    show (⟨_, _, _, _, t.scratch.ap, t.scratch.ag, t.scratch.ac⟩ : Scratch) = _
    rw [h2.1, h2.2.1, h2.2.2]
    rfl

/-- Every outcome of COMPRESS. -/
theorem yields_compress : Yields W Inside (Caused A) (fun s _ t => Compressed s t) (compress G) := by
  have chain := @yields_bind W _ _ (inside_chains A)
  have back : ∀ {s t : State} {b : Unit} {u : State}, Inside s t → Compressed t u → Compressed s u :=
    fun h k => Compressed.of_inside h k
  have up : ∀ f : State → State, (∀ s, Inside s (f s)) → Keeps W Inside (Caused A) (update f) := fun _ => keeps_update
  refine yields_bind (inside_chains A) (fun h k => Compressed.of_inside h k)
    (keeps_collect (inside_chains A) fun _ => keeps_read hS _) fun _ => ?_
  refine yields_bind (inside_chains A) (fun h k => Compressed.of_inside h k)
    (keeps_collect (inside_chains A) fun _ => keeps_read hS _) fun _ => ?_
  refine yields_bind (inside_chains A) (fun h k => Compressed.of_inside h k)
    (up _ fun _ => inside_of ⟨_, _, _, _, rfl⟩) fun _ => ?_
  refine yields_bind (inside_chains A) (fun h k => Compressed.of_inside h k) (keeps_schedulePhase hC hS hW) fun _ => ?_
  refine yields_bind (inside_chains A) (fun h k => Compressed.of_inside h k)
    (up _ fun _ => inside_of ⟨_, _, _, _, rfl⟩) fun _ => ?_
  refine yields_bind (inside_chains A) (fun h k => Compressed.of_inside h k) (keeps_roundPhase hC hS hW) fun _ => ?_
  refine yields_bind (inside_chains A) (fun h k => Compressed.of_inside h k)
    (up _ fun _ => inside_of ⟨_, _, _, _, rfl⟩) fun _ => ?_
  intro s
  refine Post.bind ((yields_feedForwardPhase hC hS hW s).mono (fun _ t h => ?_) fun _ _ h => h)
  exact ⟨h.hs, h.scratch, h.r, h.blk, h.status, h.fcmd, h.dinq, h.cmd, h.blkLeft, h.host, h.dout, h.ctx, h.workers⟩

/-! HASH. -/

omit hC hS hW

/-- A group all present. -/
def Present {n : Nat} (xs : Vector (Option Word) n) : Prop := ∀ k : Fin n, (xs[k]).isSome

theorem HoldsHS.present {s : State} {h : Vector Word 8} (hh : s.HoldsHS h) : Present s.hs := by
  intro k
  have : s.hs = filled h := hh
  simp [this]

/-- What HASH keeps from its start to its last step. -/
structure HashRun (s t : State) : Prop where
  r : t.r = s.r
  status : t.status = s.status
  fcmd : t.fcmd = s.fcmd
  cmd : t.seq.cmd = s.seq.cmd
  host : t.env.host = s.env.host
  dout : t.env.dout = s.env.dout
  ctx : true ∈ t.env.ctxDraws → true ∈ s.env.ctxDraws
  workers : true ∈ t.env.workerDraws → true ∈ s.env.workerDraws
  hs : Present s.hs → Present t.hs
  hs' : AllOrNone s.hs → AllOrNone t.hs
  blk : AllOrNone s.blk → AllOrNone t.blk

theorem hashRun_chains (A : FaultCode → Prop) : Chains HashRun (Caused A) where
  refl _ := ⟨rfl, rfl, rfl, rfl, rfl, rfl, id, id, id, id, id⟩
  trans h k := ⟨k.r.trans h.r, k.status.trans h.status, k.fcmd.trans h.fcmd, k.cmd.trans h.cmd, k.host.trans h.host,
    k.dout.trans h.dout, h.ctx ∘ k.ctx, h.workers ∘ k.workers, k.hs ∘ h.hs, k.hs' ∘ h.hs', k.blk ∘ h.blk⟩
  back h := fun ⟨h1, h2, h3⟩ => ⟨h1, h.ctx ∘ h2, h.workers ∘ h3⟩

theorem Inside.hashRun {s t : State} (h : Inside s t) : HashRun s t :=
  ⟨h.r, h.status, h.fcmd, h.cmd, h.host, h.dout, h.ctx, h.workers, by rw [h.hs]; exact id, by rw [h.hs]; exact id,
    by rw [h.blk]; exact id⟩

theorem Compressed.hashRun {s t : State} (h : Compressed s t) : HashRun s t := by
  obtain ⟨n, hn⟩ := h.hs
  have hp : Present t.hs := HoldsHS.present hn
  exact ⟨h.r, h.status, h.fcmd, h.cmd, h.host, h.dout, h.ctx, h.workers, fun _ => hp, fun _ => .inr hp,
    by rw [h.blk]; exact id⟩

/-- How loading a block can end (R242). -/
theorem loadBlock_cases (s : State) :
    (s.dinq = [] ∧ loadBlock s = .error .held s) ∨
    (∃ f q b, s.dinq = f :: q ∧ f.asBlock = some b ∧ loadBlock s = .ok () ((s.setDinq q).setBLK b)) ∨
    (∃ f q, s.dinq = f :: q ∧ f.asBlock = none ∧ loadBlock s = .error .faulted ((s.setDinq q).takeFault .fShape)) := by
  cases hd : s.dinq with
  | nil =>
    have : dinBlockFrame s = .error .held s := by simp only [dinBlockFrame, takeFrame, hd]
    exact .inl ⟨rfl, bind_error this⟩
  | cons f q =>
    cases hf : f.asBlock with
    | none =>
      have : dinBlockFrame s = .error .faulted ((s.setDinq q).takeFault .fShape) := by
        simp only [dinBlockFrame, takeFrame, hd, hf]
      exact .inr (.inr ⟨f, q, rfl, hf, bind_error this⟩)
    | some b => exact .inr (.inl ⟨f, q, b, rfl, hf, loadBlock_ok hd hf⟩)

theorem hashRun_load (s : State) (q : List Frame) (b : Vector Word 16) : HashRun s ((s.setDinq q).setBLK b) := by
  refine ⟨?_, ?_, ?_, ?_, ?_, ?_, ?_, ?_, ?_, ?_, ?_⟩ <;> simp
  exact fun _ => .inr fun k => by simp

theorem keeps_loadBlock (hS : A .fShape) : Keeps True HashRun (Caused A) loadBlock := by
  intro s
  rcases loadBlock_cases s with ⟨-, h⟩ | ⟨f, q, b, -, -, h⟩ | ⟨f, q, -, -, h⟩ <;> simp only [Post, h]
  · exact ⟨trivial, (hashRun_chains A).refl s⟩
  · exact hashRun_load s q b
  · exact ⟨s.setDinq q, .fShape, ⟨rfl, rfl, rfl, rfl, rfl, rfl, id, id, id, id, id⟩, caused_shape hS s, rfl⟩

include hC hS hW

theorem keeps_compress : Keeps W HashRun (Caused A) (compress G) := by
  intro s
  refine (yields_compress (W := W) hC hS hW s).mono (fun _ _ h => h.hashRun) fun e t h => ?_
  cases e with
  | held => exact ⟨h.1, h.2.hashRun⟩
  | faulted =>
    obtain ⟨u, c, h1, h2, h3⟩ := h
    exact ⟨u, c, h1.hashRun, h2, h3⟩

theorem keeps_hashBlocks : ∀ n, Keeps True HashRun (Caused A) (hashBlocks G n)
  | 0 => keeps_pure (hashRun_chains A) ()
  | n + 1 =>
    keeps_bind (hashRun_chains A) (keeps_update fun _ => (inside_of ⟨_, _, _, _, rfl⟩).hashRun) fun _ =>
      keeps_bind (hashRun_chains A) (keeps_loadBlock hS) fun _ =>
        keeps_bind (hashRun_chains A) (keeps_compress hC hS hW) fun _ =>
          keeps_bind (hashRun_chains A) (keeps_update fun _ => ⟨rfl, rfl, rfl, rfl, rfl, rfl, id, id, id, id, id⟩) fun _ =>
            keeps_hashBlocks n

/-- How the loop of HASH ends or waits: the scratch storage, and in a wait the phase and the blocks left (R223). -/
theorem hashBlocks_waits : ∀ (n : Nat) (s : State), s.seq.blkLeft.toNat = n →
    Post (hashBlocks G n) s (fun _ t => t.scratch = s.scratch ∨ t.scratch = Scratch.empty)
      fun e t => e = .held → (t.scratch = s.scratch ∨ t.scratch = Scratch.empty) ∧ t.seq.phase = .load ∧
        t.seq.blkLeft ≠ 0 ∧ t.seq.blkLeft ≤ s.seq.blkLeft ∧ t.dinq = []
  | 0, s, _ => .inl rfl
  | n + 1, s, hn => by
    refine Post.bind (Post.bind ?_)
    rcases loadBlock_cases (s.setPhase .load) with ⟨hd, h⟩ | ⟨f, q, b, -, -, h⟩ | ⟨f, q, -, -, h⟩ <;> simp only [Post, h]
    · intro _
      refine ⟨.inl rfl, rfl, ?_, BitVec.le_refl _, hd⟩
      show s.seq.blkLeft ≠ 0
      intro h0
      rw [h0] at hn
      exact absurd hn (by simp)
    · have hc := yields_compress (W := False) (A := A) (G := G) hC hS hW (((s.setPhase .load).setDinq q).setBLK b)
      change Post (compress G >>= _) _ _ _
      refine Post.bind (hc.mono (fun _ t ht => ?_) fun e t ht => ?_)
      · refine Post.bind ?_
        have hl : t.seq.blkLeft = s.seq.blkLeft := ht.blkLeft
        have h1 : (t.setBlkLeft (t.seq.blkLeft - 1)).seq.blkLeft = s.seq.blkLeft - 1 := by
          show t.seq.blkLeft - 1 = _
          rw [hl]
        have h2 : (s.seq.blkLeft - 1).toNat = n := by
          have : (1 : U32) ≤ s.seq.blkLeft := by
            rw [BitVec.le_def, hn]
            simp
          rw [BitVec.toNat_sub_of_le this, hn]
          rfl
        have h3 : (t.setBlkLeft (t.seq.blkLeft - 1)).scratch = Scratch.empty := ht.scratch
        refine (hashBlocks_waits n _ (by rw [h1, h2])).mono (fun _ u hu => ?_) fun e u hu he => ?_
        · rw [h3] at hu
          exact .inr (hu.elim id id)
        · obtain ⟨g1, g2, g3, g4, g5⟩ := hu he
          rw [h3] at g1
          rw [h1] at g4
          refine ⟨.inr (g1.elim id id), g2, g3, BitVec.le_trans g4 ?_, g5⟩
          rw [BitVec.le_def, h2, hn]
          omega
      · rintro rfl
        exact ht.1.elim
    · rintro ⟨⟩

end Sys2Proof.Machine
end

