-- ==== Sys2Proof/Laws/Counts.lean ====
section
/-!
SUPPORT. The calls and batches a stretch of work that ends has made, none of them failed (R151, R198, R331).
-/

namespace Sys2Proof.Machine

/-- If the work ends, it has used exactly the draws of c calls and b batches, and all were successes. -/
def Counts (c b : Nat) {α : Type} (m : Micro α) : Prop :=
  ∀ s, Post m s (fun _ t => s.NoFailure c b ∧ t.env.ctxDraws = s.env.ctxDraws.drop c ∧
    t.env.workerDraws = s.env.workerDraws.drop (Config.NCHUNK * b)) fun _ _ => True

variable {G : Capability}

theorem counts_pure {α : Type} (a : α) : Counts 0 0 (pure a : Micro α) := fun _ => ⟨⟨rfl, rfl⟩, rfl, rfl⟩

theorem counts_bind {α β : Type} {m : Micro α} {f : α → Micro β} {c b c' b' : Nat} (hm : Counts c b m)
    (hf : ∀ a, Counts c' b' (f a)) : Counts (c + c') (b + b') (m >>= f) := by
  intro s
  refine Post.bind ((hm s).mono (fun a t ht => ?_) fun _ _ _ => trivial)
  obtain ⟨h1, h2, h3⟩ := ht
  refine (hf a t).mono (fun _ u hu => ?_) fun _ _ _ => trivial
  obtain ⟨k1, k2, k3⟩ := hu
  refine ⟨h1.join (k1.of_draws h2.symm h3.symm), ?_, ?_⟩
  · rw [k2, h2, List.drop_drop]
  · rw [k3, h3, List.drop_drop, Nat.mul_add]

theorem Counts.cast {c b c' b' : Nat} {α : Type} {m : Micro α} (h : Counts c b m) (hc : c = c') (hb : b = b') : Counts c' b' m :=
  hc ▸ hb ▸ h

theorem counts_update {f : State → State} (hf : ∀ s, (f s).env.ctxDraws = s.env.ctxDraws ∧ (f s).env.workerDraws = s.env.workerDraws) :
    Counts 0 0 (update f) := fun s => ⟨⟨rfl, rfl⟩, (hf s).1, (hf s).2⟩

theorem counts_read (x : State → Option Word) : Counts 0 0 (readElement x) := by
  intro s
  unfold Post readElement
  cases x s with
  | none => trivial
  | some w => exact ⟨⟨rfl, rfl⟩, rfl, rfl⟩

theorem counts_forRange {lo c b : Nat} {body : Nat → Micro Unit} (hb : ∀ i, Counts c b (body i)) :
    ∀ n, Counts (c * n) (b * n) (forRange lo n body)
  | 0 => counts_pure ()
  | n + 1 => counts_bind (counts_forRange hb n) fun _ => hb _

theorem counts_collect {α : Type} {c b : Nat} : ∀ {n : Nat} {f : Fin n → Micro α}, (∀ i, Counts c b (f i)) →
    Counts (c * n) (b * n) (collect n f)
  | 0, _, _ => counts_pure _
  | _ + 1, _, hf => counts_bind (counts_collect fun i => hf i.castSucc) fun _ => counts_bind (hf _) fun _ => counts_pure _

theorem counts_triv (x : Bool) : Counts 1 0 (triv G x) := by
  intro s
  cases h : (s.env.ctxDraws.take 1).any id with
  | true =>
    simp only [Post, triv, drawCtx, bind, EStateM.bind, h]
    trivial
  | false =>
    simp only [Post, triv_ok (G := G) (b := x) (s := s) ⟨h, rfl⟩]
    exact ⟨⟨h, rfl⟩, rfl, rfl⟩

theorem counts_gate (k : GateKind) (x y : Ct) : Counts 1 0 (gate G k x y) := by
  intro s
  cases h : (s.env.ctxDraws.take 1).any id with
  | true =>
    simp only [Post, gate, drawCtx, bind, EStateM.bind, h]
    trivial
  | false =>
    simp only [Post, gate_ok (G := G) (k := k) (a := x) (b := y) (s := s) ⟨h, rfl⟩]
    exact ⟨⟨h, rfl⟩, rfl, rfl⟩

theorem counts_batch (q : BatchOp) : Counts 32 1 (batch G q) := by
  intro s
  cases h : (s.env.ctxDraws.take 32).any id with
  | true =>
    simp only [Post, batch, drawCtx, drawWorkers, bind, EStateM.bind, Config.LANES, h]
    trivial
  | false =>
    cases h' : (s.env.workerDraws.take (Config.NCHUNK * 1)).any id with
    | true =>
      have h'' : ((s.dropCtx 32).env.workerDraws.take 8).any id = true := h'
      simp only [Post, batch, drawCtx, drawWorkers, bind, EStateM.bind, Config.LANES, Config.NCHUNK, h, h'']
      trivial
    | false =>
      simp only [Post, batch_ok (G := G) (q := q) (s := s) ⟨h, h'⟩]
      exact ⟨⟨h, h'⟩, rfl, rfl⟩

theorem counts_trivW (v : U32) : Counts 32 0 (trivW G v) := counts_collect fun _ => counts_triv _

theorem counts_shR (x : Word) (n : Nat) : Counts n 0 (shR G x n) := by
  have h := counts_bind (counts_collect (n := n) (f := fun _ => triv G false) fun _ => counts_triv _) fun zeros =>
    counts_pure (Vector.ofFn fun i : Fin 32 => if h : i.val < n then zeros[i.val] else x[i.val - n])
  exact h.cast (by omega) (by omega)

theorem counts_ssig0 (x : Word) : Counts 67 2 (ssig0 G x) := by
  have h : Counts _ _ (ssig0 G x) :=
    counts_bind (counts_batch _) fun _ => counts_bind (counts_shR _ _) fun _ => counts_batch _
  exact h.cast (by norm_num) (by norm_num)

theorem counts_ssig1 (x : Word) : Counts 74 2 (ssig1 G x) := by
  have h : Counts _ _ (ssig1 G x) :=
    counts_bind (counts_batch _) fun _ => counts_bind (counts_shR _ _) fun _ => counts_batch _
  exact h.cast (by norm_num) (by norm_num)

theorem counts_bsig0 (x : Word) : Counts 64 2 (bsig0 G x) := by
  have h : Counts _ _ (bsig0 G x) :=
    counts_bind (counts_batch _) fun _ => counts_batch _
  exact h.cast (by norm_num) (by norm_num)

theorem counts_bsig1 (x : Word) : Counts 64 2 (bsig1 G x) := by
  have h : Counts _ _ (bsig1 G x) :=
    counts_bind (counts_batch _) fun _ => counts_batch _
  exact h.cast (by norm_num) (by norm_num)

theorem counts_ch (x y z : Word) : Counts 128 4 (ch G x y z) := by
  have h : Counts _ _ (ch G x y z) :=
    counts_bind (counts_batch _) fun _ => counts_bind (counts_batch _) fun _ => counts_bind (counts_batch _) fun _ => counts_batch _
  exact h.cast (by norm_num) (by norm_num)

theorem counts_maj (x y z : Word) : Counts 160 5 (maj G x y z) := by
  have h : Counts _ _ (maj G x y z) :=
    counts_bind (counts_batch _) fun _ => counts_bind (counts_batch _) fun _ => counts_bind (counts_batch _) fun _ =>
    counts_bind (counts_batch _) fun _ => counts_batch _
  exact h.cast (by norm_num) (by norm_num)

theorem counts_carryFrom (p g : Word) : ∀ (m : Nat) (h : m < 32) (x : Ct), Counts (2 * m) 0 (carryFrom G p g m h x)
  | 0, _, _ => counts_pure _
  | m + 1, h, x => by
    have := counts_bind (counts_update (f := fun s => s.setCI ⟨m, by omega⟩) fun _ => ⟨rfl, rfl⟩) fun _ =>
      counts_bind (counts_gate (G := G) .and p[m + 1] x) fun t => counts_bind (counts_gate (G := G) .xor g[m + 1] t) fun ci =>
        counts_bind (counts_carryFrom p g m (by omega) ci) fun rest => counts_pure (rest.push ci)
    rwa [show 0 + (1 + (1 + (2 * m + 0))) = 2 * (m + 1) by omega] at this

theorem counts_add (x y : Word) : Counts 159 3 (add G x y) := by
  have h : Counts _ _ (add G x y) :=
    counts_bind (counts_batch _) fun _ => counts_bind (counts_update fun _ => ⟨rfl, rfl⟩) fun _ =>
    counts_bind (counts_batch _) fun _ => counts_bind (counts_update fun _ => ⟨rfl, rfl⟩) fun _ =>
      counts_bind (counts_triv _) fun _ => counts_bind (counts_carryFrom _ _ _ _ _) fun _ =>
        counts_bind (counts_update fun _ => ⟨rfl, rfl⟩) fun _ => counts_bind (counts_batch _) fun _ =>
          counts_bind (counts_update fun _ => ⟨rfl, rfl⟩) fun _ => counts_pure _
  exact h.cast (by norm_num) (by norm_num)

/-- One step of the message schedule: two small sigmas and three additions. -/
theorem counts_scheduleStep (i : Nat) : Counts 618 13 (scheduleStep G i) := by
  unfold scheduleStep
  refine Counts.cast (counts_bind (counts_update fun _ => ⟨rfl, rfl⟩) fun _ => counts_bind (counts_read _) fun _ =>
    counts_bind (counts_ssig1 _) fun _ => counts_bind (counts_read _) fun _ => counts_bind (counts_add _ _) fun _ =>
    counts_bind (counts_read _) fun _ => counts_bind (counts_ssig0 _) fun _ => counts_bind (counts_add _ _) fun _ =>
    counts_bind (counts_read _) fun _ => counts_bind (counts_add _ _) fun _ => counts_update fun _ => ⟨rfl, rfl⟩) ?_ ?_
  · norm_num
  · norm_num

/-- One round: seven additions, one word of trivial encryptions, and the four round functions. -/
theorem counts_roundStep (i : Nat) : Counts 1561 34 (roundStep G i) := by
  have reads : Counts (0 * 8) (0 * 8) (collect 8 readV) := counts_collect fun _ => counts_read _
  unfold roundStep
  refine Counts.cast (counts_bind (counts_update fun _ => ⟨rfl, rfl⟩) fun _ => counts_bind reads fun _ =>
      counts_bind (counts_bsig1 _) fun _ => counts_bind (counts_add _ _) fun _ => counts_bind (counts_ch _ _ _) fun _ =>
      counts_bind (counts_add _ _) fun _ => counts_bind (counts_trivW _) fun _ => counts_bind (counts_add _ _) fun _ =>
      counts_bind (counts_read _) fun _ => counts_bind (counts_add _ _) fun _ =>
      counts_bind (counts_update fun _ => ⟨rfl, rfl⟩) fun _ => counts_bind (counts_bsig0 _) fun _ =>
      counts_bind (counts_maj _ _ _) fun _ => counts_bind (counts_add _ _) fun _ =>
      counts_bind (counts_update fun _ => ⟨rfl, rfl⟩) fun _ => counts_bind (counts_add _ _) fun _ =>
      counts_bind (counts_add _ _) fun _ => counts_update fun _ => ⟨rfl, rfl⟩) ?_ ?_
  · norm_num
  · norm_num

/-- A loop whose body makes no call makes none. -/
theorem counts_quiet_forRange {lo n : Nat} {body : Nat → Micro Unit} (hb : ∀ i, Counts 0 0 (body i)) :
    Counts 0 0 (forRange lo n body) := by
  simpa using counts_forRange (lo := lo) hb n

theorem counts_copyBlockWord (i : Nat) : Counts 0 0 (copyBlockWord i) := by
  unfold copyBlockWord
  exact Counts.cast (counts_bind (counts_read _) fun _ => counts_update fun _ => ⟨rfl, rfl⟩) rfl rfl

theorem counts_loadWorking (i : Nat) : Counts 0 0 (loadWorking i) := by
  unfold loadWorking
  exact Counts.cast (counts_bind (counts_read _) fun _ => counts_update fun _ => ⟨rfl, rfl⟩) rfl rfl

theorem counts_schedulePhase : Counts 29664 624 (schedulePhase G) := by
  have copies : Counts 0 0 (forRange 0 16 copyBlockWord) := counts_quiet_forRange counts_copyBlockWord
  have steps : Counts (618 * 48) (13 * 48) (forRange 16 48 (scheduleStep G)) :=
    counts_forRange (fun i => counts_scheduleStep i) 48
  have h : Counts _ _ (schedulePhase G) := counts_bind copies fun _ => steps
  exact h.cast (by norm_num) (by norm_num)

theorem counts_roundPhase : Counts 99904 2176 (roundPhase G) := by
  have loads : Counts 0 0 (forRange 0 8 loadWorking) := counts_quiet_forRange counts_loadWorking
  have steps : Counts (1561 * 64) (34 * 64) (forRange 0 64 (roundStep G)) :=
    counts_forRange (fun i => counts_roundStep i) 64
  have h : Counts _ _ (roundPhase G) := counts_bind loads fun _ => steps
  exact h.cast (by norm_num) (by norm_num)

theorem counts_feedForwardPhase : Counts 1272 24 (feedForwardPhase G) := by
  have word : ∀ k, Counts 159 3 (feedForwardWord G k) := fun k => by
    have h : Counts _ _ (feedForwardWord G k) :=
      counts_bind (counts_update fun _ => ⟨rfl, rfl⟩) fun _ => counts_bind (counts_read _) fun _ =>
        counts_bind (counts_read _) fun _ => counts_add _ _
    exact h.cast (by norm_num) (by norm_num)
  have words : Counts (159 * 8) (3 * 8) (collect 8 (feedForwardWord G)) := counts_collect word
  have h : Counts _ _ (feedForwardPhase G) := counts_bind words fun _ => counts_bind (counts_update fun _ => ⟨rfl, rfl⟩) fun _ =>
    counts_update fun _ => ⟨rfl, rfl⟩
  exact h.cast (by norm_num) (by norm_num)

/-- COMPRESS (R198). -/
theorem counts_compress : Counts 130840 2824 (compress G) := by
  have hs : Counts (0 * 8) (0 * 8) (collect 8 readHS) := counts_collect fun _ => counts_read _
  have bs : Counts (0 * 16) (0 * 16) (collect 16 readBLK) := counts_collect fun _ => counts_read _
  have h : Counts _ _ (compress G) := counts_bind hs fun _ => counts_bind bs fun _ => counts_bind (counts_update fun _ => ⟨rfl, rfl⟩) fun _ =>
    counts_bind counts_schedulePhase fun _ => counts_bind (counts_update fun _ => ⟨rfl, rfl⟩) fun _ =>
    counts_bind counts_roundPhase fun _ => counts_bind (counts_update fun _ => ⟨rfl, rfl⟩) fun _ =>
    counts_bind counts_feedForwardPhase fun _ => counts_update fun _ => ⟨rfl, rfl⟩
  exact h.cast (by norm_num) (by norm_num)

/-- HINIT (R222). -/
theorem counts_initHash : Counts 256 0 (initHash G) := by
  have words : Counts (32 * 8) (0 * 8) (collect 8 fun k => trivW G (IV k)) := counts_collect fun _ => counts_trivW _
  have h : Counts _ _ (initHash G) := counts_bind words fun n => counts_update (f := fun s => s.setHS n) fun _ => ⟨rfl, rfl⟩
  exact h.cast (by norm_num) (by norm_num)

theorem counts_loadBlock : Counts 0 0 loadBlock := by
  intro s
  rcases loadBlock_cases s with ⟨-, h⟩ | ⟨f, q, b, -, -, h⟩ | ⟨f, q, -, -, h⟩ <;> simp only [Post, h]
  exact ⟨⟨rfl, rfl⟩, rfl, rfl⟩

theorem counts_hashBlocks : ∀ n, Counts ((127568 + 3272) * n) (2824 * n) (hashBlocks G n)
  | 0 => counts_pure ()
  | n + 1 => by
    have := counts_bind (counts_update (f := fun s => s.setPhase .load) fun _ => ⟨rfl, rfl⟩) fun _ =>
      counts_bind counts_loadBlock fun _ => counts_bind (counts_compress (G := G)) fun _ =>
        counts_bind (counts_update (f := fun s => s.setBlkLeft (s.seq.blkLeft - 1)) fun _ => ⟨rfl, rfl⟩) fun _ =>
          counts_hashBlocks n
    rwa [show 0 + (0 + (130840 + (0 + (127568 + 3272) * n))) = (127568 + 3272) * (n + 1) by omega,
      show 0 + (0 + (2824 + (0 + 2824 * n))) = 2824 * (n + 1) by omega] at this

end Sys2Proof.Machine
end

