-- ==== Sys2Proof/Laws/Decode.lean ====
section
/-!
SUPPORT. Command words by their fields (R81), the rows of the operation table by fields (R83, R90), and what decoding can answer.
-/

namespace Sys2Proof

@[ext] theorem Fields.ext' {f g : Fields} (h1 : f.op = g.op) (h2 : f.rd = g.rd) (h3 : f.rs1 = g.rs1) (h4 : f.rs2 = g.rs2)
    (h5 : f.rs3 = g.rs3) (h6 : f.n = g.n) (h7 : f.imm = g.imm) : f = g := by
  cases f
  cases g
  simp_all

/-- The fields of the word made of given fields (R81). -/
@[simp] theorem fieldsOf_ofFields (f : Fields) : fieldsOf (ofFields f) = f := by
  obtain ⟨a, b, c, d, e, g, h⟩ := f
  ext1 <;>
  · simp only [fieldsOf, ofFields]
    apply BitVec.eq_of_getLsbD_eq
    intro i hi
    simp only [BitVec.getLsbD_extractLsb', BitVec.getLsbD_append]
    have := hi
    interval_cases i <;> simp

/-- A word is the word made of its fields (R81). -/
@[simp] theorem ofFields_fieldsOf (cw : CmdWord) : ofFields (fieldsOf cw) = cw := by
  simp only [fieldsOf, ofFields]
  apply BitVec.eq_of_getLsbD_eq
  intro i hi
  simp only [BitVec.getLsbD_extractLsb', BitVec.getLsbD_append]
  have := hi
  interval_cases i <;> simp

theorem fieldsOf_injective {a b : CmdWord} (h : fieldsOf a = fieldsOf b) : a = b := by
  rw [← ofFields_fieldsOf a, h, ofFields_fieldsOf]

/-- Masking goes field by field. -/
theorem fieldsOf_and (a b : CmdWord) : fieldsOf (a &&& b) =
    ⟨(fieldsOf a).op &&& (fieldsOf b).op, (fieldsOf a).rd &&& (fieldsOf b).rd, (fieldsOf a).rs1 &&& (fieldsOf b).rs1,
      (fieldsOf a).rs2 &&& (fieldsOf b).rs2, (fieldsOf a).rs3 &&& (fieldsOf b).rs3, (fieldsOf a).n &&& (fieldsOf b).n,
      (fieldsOf a).imm &&& (fieldsOf b).imm⟩ := by
  simp only [fieldsOf, BitVec.extractLsb'_and]

/-- A word selects a row when its masked fields are the fields of the pattern (R83). -/
theorem selects_iff (r : OpRow) (cw : CmdWord) : r.selects cw = true ↔
    (fieldsOf cw).op &&& (fieldsOf r.mask).op = (fieldsOf r.pattern).op ∧
    (fieldsOf cw).rd &&& (fieldsOf r.mask).rd = (fieldsOf r.pattern).rd ∧
    (fieldsOf cw).rs1 &&& (fieldsOf r.mask).rs1 = (fieldsOf r.pattern).rs1 ∧
    (fieldsOf cw).rs2 &&& (fieldsOf r.mask).rs2 = (fieldsOf r.pattern).rs2 ∧
    (fieldsOf cw).rs3 &&& (fieldsOf r.mask).rs3 = (fieldsOf r.pattern).rs3 ∧
    (fieldsOf cw).n &&& (fieldsOf r.mask).n = (fieldsOf r.pattern).n ∧
    (fieldsOf cw).imm &&& (fieldsOf r.mask).imm = (fieldsOf r.pattern).imm := by
  rw [OpRow.selects, beq_iff_eq]
  constructor
  · intro h
    have := congrArg fieldsOf h
    rw [fieldsOf_and] at this
    have e := this
    rw [Fields.mk.injEq] at e
    exact e
  · rintro ⟨h1, h2, h3, h4, h5, h6, h7⟩
    apply fieldsOf_injective
    rw [fieldsOf_and]
    exact Fields.ext' h1 h2 h3 h4 h5 h6 h7

@[simp] theorem regOf_regBits (r : Reg) : regOf (regBits r) = r := by
  ext
  simp [regOf, regBits]

@[simp] theorem regBits_regOf (x : BitVec 4) : regBits (regOf x) = x := by
  apply BitVec.eq_of_toNat_eq
  simp [regOf, regBits]

/-- Every mask covers `op` (R83, R87). -/
theorem mask_op : ∀ r ∈ opTable, (fieldsOf r.mask).op = 0xFF := by
  have all : (opTable.map fun r => (fieldsOf r.mask).op) = List.replicate opTable.length 0xFF := by decide
  intro r hr
  have mem := List.mem_map_of_mem (f := fun r : OpRow => (fieldsOf r.mask).op) hr
  rw [all] at mem
  exact List.eq_of_mem_replicate mem

/-- A word selects only a row with its own opcode (R87). -/
theorem op_of_selects {r : OpRow} (hr : r ∈ opTable) {cw : CmdWord} (h : r.selects cw = true) :
    (fieldsOf r.pattern).op = (fieldsOf cw).op := by
  have := ((selects_iff r cw).1 h).1
  rw [mask_op r hr] at this
  rw [← this]
  exact BitVec.and_allOnes

/-- The 20 opcodes are distinct (R87). -/
theorem ops_distinct : (opTable.map fun r => (fieldsOf r.pattern).op).Nodup := by decide

/-- No word selects two rows (R87). -/
theorem selects_unique {r r' : OpRow} (hr : r ∈ opTable) (hr' : r' ∈ opTable) {cw : CmdWord}
    (h : r.selects cw = true) (h' : r'.selects cw = true) : r = r' :=
  List.inj_on_of_nodup_map ops_distinct hr hr' ((op_of_selects hr h).trans (op_of_selects hr' h').symm)

/-- The row a word selects is the row decoding finds. -/
theorem decode_of_selects {r : OpRow} (hr : r ∈ opTable) {cw : CmdWord} (h : r.selects cw = true) :
    decode cw = if (r.build (fieldsOf cw)).wellFormed then some (r.build (fieldsOf cw)) else none := by
  cases hf : opTable.find? (fun r => r.selects cw) with
  | none => exact absurd h (by simpa using List.find?_eq_none.1 hf r hr)
  | some r' =>
    have : r' = r := selects_unique (List.mem_of_find?_eq_some hf) hr (by simpa using List.find?_some hf) h
    rw [decode, hf, this]

/-- What decoding answers comes from a row the word selects (R87). -/
theorem row_of_decode {cw : CmdWord} {i : Instr} (h : decode cw = some i) :
    ∃ r ∈ opTable, r.selects cw = true ∧ r.build (fieldsOf cw) = i ∧ i.wellFormed = true := by
  rw [decode] at h
  split at h
  · rename_i r hf
    split at h
    · rename_i hw
      cases h
      exact ⟨r, List.mem_of_find?_eq_some hf, by simpa using List.find?_some hf, rfl, hw⟩
    · cases h
  · cases h

/-- The only opcode a word with these fields can select; every row with another opcode is out. -/
theorem decode_none_of_op {cw : CmdWord} (h : (fieldsOf cw).op ∉ opTable.map fun r => (fieldsOf r.pattern).op) :
    decode cw = none := by
  cases hd : decode cw with
  | none => rfl
  | some i =>
    obtain ⟨r, hr, hs, -⟩ := row_of_decode hd
    exact absurd (List.mem_map.2 ⟨r, hr, op_of_selects hr hs⟩) h

end Sys2Proof
end

