-- ==== Sys2Proof/Laws/Ending.lean ====
section
/-!
SUPPORT. How an instruction can end, said once for all twenty: completed, held or faulted, and with what state.
-/

namespace Sys2Proof.Machine

/-- How the run of an instruction from s can end in t. -/
inductive Ending (i : Instr) (s t : State) : Prop where
  /-- A register is written, after nothing but draws. -/
  | wrote (rd : Reg) (w : Word) (u : State) (hd : i.dest = some rd) (h : Quiet s u) (ht : t = (u.setR rd w).complete)
  /-- The sum is written, the adder's words `empty`. -/
  | added (rd rs1 rs2 : Reg) (w : Word) (u : State) (hi : i = .add rd rs1 rs2) (h : Added s u)
      (ht : t = (u.setR rd w).complete)
  /-- A word is loaded from the head frame. -/
  | loaded (rd : Reg) (w : Word) (f : Frame) (q : List Frame) (hi : i = .ldw rd) (hd : s.dinq = f :: q)
      (ht : t = ((s.setDinq q).setR rd w).complete)
  /-- A frame is emitted. -/
  | stored (rs1 : Reg) (w : Word) (hi : i = .stw rs1) (ht : t = (s.emit w).complete)
  /-- A block is loaded from the head frame. -/
  | blockLoaded (b : Vector Word 16) (f : Frame) (q : List Frame) (hi : i = .ldblk) (hd : s.dinq = f :: q)
      (ht : t = ((s.setDinq q).setBLK b).complete)
  /-- The digest is emitted. -/
  | emitted (ws : Vector Word 8) (hi : i = .rdh) (hs : s.HoldsHS ws)
      (ht : t = State.complete { s with env := { s.env with dout := s.env.dout ++ ws.toList } })
  /-- The initial hash state is written. -/
  | initialised (n : Vector Word 8) (u : State) (hi : i = .hinit) (h : Quiet s u) (ht : t = (u.setHS n).complete)
  /-- A block is compressed. -/
  | compressed (u : State) (hi : i = .compress) (h : Compressed s u) (ht : t = u.complete)
  /-- A whole message is hashed. -/
  | hashed (imm : U32) (u : State) (ws : Vector Word 8) (hi : i = .hash imm) (h : HashRun s u) (hs : u.HoldsHS ws)
      (hsc : u.scratch = s.scratch ∨ u.scratch = Scratch.empty)
      (ht : t = State.complete { u with env := { u.env with dout := u.env.dout ++ ws.toList } })
  /-- LDW or LDBLK waits. -/
  | waits (hi : (∃ rd, i = .ldw rd) ∨ i = .ldblk) (hd : s.dinq = []) (ht : t = s)
  /-- HASH waits in phase LOAD. -/
  | hashWaits (imm : U32) (hi : i = .hash imm) (h : HashRun s t) (hsc : t.scratch = s.scratch ∨ t.scratch = Scratch.empty)
      (hp : t.seq.phase = .load) (hl : t.seq.blkLeft ≠ 0)
      (hle : t.seq.blkLeft ≤ if s.seq.phase = .load then s.seq.blkLeft else imm)
      (hpres : s.seq.phase = .load ∨ Present t.hs) (hd : t.dinq = [])
  /-- A fault, after nothing but draws. -/
  | faulted (c : FaultCode) (u : State) (hi : i ≠ .compress ∧ (∀ imm, i ≠ .hash imm) ∧ ∀ rd rs1 rs2, i ≠ .add rd rs1 rs2)
      (h : Quiet s u) (hc : Caused i.mayRaise s c) (ht : t = u.takeFault c)
  /-- A fault after a frame was taken. -/
  | frameFaulted (f : Frame) (q : List Frame) (hi : (∃ rd, i = .ldw rd) ∨ i = .ldblk) (hd : s.dinq = f :: q)
      (ht : t = (s.setDinq q).takeFault .fShape)
  /-- A fault inside ADD or COMPRESS. -/
  | faultedInside (c : FaultCode) (u : State) (hi : i = .compress ∨ ∃ rd rs1 rs2, i = .add rd rs1 rs2) (h : Inside s u)
      (hc : Caused i.mayRaise s c) (ht : t = u.takeFault c)
  /-- A fault inside HASH. -/
  | hashFaulted (imm : U32) (c : FaultCode) (u : State) (hi : i = .hash imm) (h : HashRun s u)
      (hc : Caused i.mayRaise s c) (ht : t = u.takeFault c)

/-- A command's step, from its outcomes. -/
theorem runCommand_post {m : Micro Unit} {s t : State} {Q : State → Prop} {E : Stop → State → Prop}
    (hm : Post m s (fun _ u => Q u.complete) E) (hE : ∀ e u, E e u → Q u) (h : runCommand m s = .next t) : Q t := by
  unfold runCommand at h
  cases hms : m s with
  | ok a u =>
    simp only [hms] at h
    cases h
    exact hm.of_ok hms
  | error e u =>
    simp only [hms] at h
    cases h
    exact hE e t (hm.of_error hms)

theorem Post.and {α : Type} {m : Micro α} {s : State} {P P' : α → State → Prop} {E E' : Stop → State → Prop}
    (h : Post m s P E) (h' : Post m s P' E') : Post m s (fun a t => P a t ∧ P' a t) (fun e t => E e t ∧ E' e t) := by
  unfold Post at *
  cases hm : m s with
  | ok a t => simp only [hm] at h h' ⊢; exact ⟨h, h'⟩
  | error e t => simp only [hm] at h h' ⊢; exact ⟨h, h'⟩

theorem post_read {x : State → Option Word} {s : State} {P : Word → State → Prop} {E : Stop → State → Prop}
    (hs : ∀ w, x s = some w → P w s) (hn : x s = none → E .faulted (s.takeFault .fShape)) : Post (readElement x) s P E := by
  unfold Post readElement
  cases h : x s with
  | none => exact hn h
  | some w => exact hs w h

theorem post_frame {α : Type} {shape : Frame → Option α} {s : State} {P : α → State → Prop} {E : Stop → State → Prop}
    (h0 : s.dinq = [] → E .held s) (h1 : ∀ f q a, s.dinq = f :: q → shape f = some a → P a (s.setDinq q))
    (h2 : ∀ f q, s.dinq = f :: q → shape f = none → E .faulted ((s.setDinq q).takeFault .fShape)) :
    Post (takeFrame shape) s P E := by
  unfold Post takeFrame
  cases hd : s.dinq with
  | nil => exact h0 hd
  | cons f q =>
    cases hf : shape f with
    | none => simpa only [hf] using h2 f q hd hf
    | some a => simpa only [hf] using h1 f q a hd hf

/-- Reading several elements: all of them, or a fault. -/
theorem post_reads {n : Nat} {x : Fin n → State → Option Word} {s : State} {E : Stop → State → Prop} :
    (∀ k, x k s = none → E .faulted (s.takeFault .fShape)) →
    Post (collect n fun k => readElement (x k)) s (fun ws u => u = s ∧ ∀ k, x k s = some ws[k]) E := by
  induction n with
  | zero => exact fun _ => ⟨rfl, fun k => k.elim0⟩
  | succ n ih =>
    intro hE
    refine Post.bind ((ih fun k => hE k.castSucc).mono (fun ws u hu => ?_) fun _ _ h => h)
    obtain ⟨rfl, hw⟩ := hu
    refine Post.bind (post_read (fun w hw' => ⟨rfl, fun k => ?_⟩) (hE (Fin.last n)))
    rcases Nat.lt_or_ge k.val n with hk | hk
    · have := hw ⟨k, hk⟩
      simpa [Vector.getElem_push, hk] using this
    · have : k = Fin.last n := Fin.ext (by simp; omega)
      subst this
      simpa using hw'

theorem keeps_quiet_read {A : FaultCode → Prop} (hS : A .fShape) (x : State → Option Word) :
    Keeps False Quiet (Caused A) (readElement x) :=
  keeps_readElement (quiet_chains A) (caused_shape hS) x

theorem quiet_bind {A : FaultCode → Prop} {α β : Type} {m : Micro α} {f : α → Micro β} (hm : Keeps False Quiet (Caused A) m)
    (hf : ∀ a, Keeps False Quiet (Caused A) (f a)) : Keeps False Quiet (Caused A) (m >>= f) :=
  keeps_bind (quiet_chains A) hm hf

/-- A command that computes a word with nothing but draws and writes it to a register. -/
theorem ending_wrote {i : Instr} {rd : Reg} {m : Micro Word} (hd : i.dest = some rd)
    (hi : i ≠ .compress ∧ (∀ imm, i ≠ .hash imm) ∧ ∀ rd rs1 rs2, i ≠ .add rd rs1 rs2)
    (hm : Keeps False Quiet (Caused i.mayRaise) m) {s t : State} (h : runCommand (m >>= writeR rd) s = .next t) :
    Ending i s t := by
  refine runCommand_post (E := Stopped False Quiet (Caused i.mayRaise) s) (Q := Ending i s) ?_ ?_ h
  · exact Post.bind ((hm s).mono (fun w u hu => .wrote rd w u hd hu rfl) fun _ _ h => h)
  · intro e u hu
    cases e with
    | held => exact hu.1.elim
    | faulted =>
      obtain ⟨v, c, h1, h2, h3⟩ := hu
      exact .faulted c v hi h1 h2 h3

/-- The plain arms, in the form `work, then write`. -/
theorem exec_xorw {rd rs1 rs2 : Reg} {s t : State} (h : exec (.xorw rd rs1 rs2) s = .next t) :
    Ending (.xorw rd rs1 rs2) s t :=
  ending_wrote (m := readR rs1 >>= fun a => readR rs2 >>= fun b => batch Config.G (.xor a b)) rfl (by simp)
    (quiet_bind (keeps_quiet_read (by simp [Instr.mayRaise]) _) fun _ =>
      quiet_bind (keeps_quiet_read (by simp [Instr.mayRaise]) _) fun _ =>
        keeps_batch (by simp [Instr.mayRaise, Instr.calls]) (by simp [Instr.mayRaise, Instr.batches]) _)
    (by simp only [bind_assoc]; exact h)

theorem exec_andw {rd rs1 rs2 : Reg} {s t : State} (h : exec (.andw rd rs1 rs2) s = .next t) :
    Ending (.andw rd rs1 rs2) s t :=
  ending_wrote (m := readR rs1 >>= fun a => readR rs2 >>= fun b => batch Config.G (.and a b)) rfl (by simp)
    (quiet_bind (keeps_quiet_read (by simp [Instr.mayRaise]) _) fun _ =>
      quiet_bind (keeps_quiet_read (by simp [Instr.mayRaise]) _) fun _ =>
        keeps_batch (by simp [Instr.mayRaise, Instr.calls]) (by simp [Instr.mayRaise, Instr.batches]) _)
    (by simp only [bind_assoc]; exact h)

theorem exec_notw {rd rs1 : Reg} {s t : State} (h : exec (.notw rd rs1) s = .next t) : Ending (.notw rd rs1) s t :=
  ending_wrote (m := readR rs1 >>= fun a => batch Config.G (.not a)) rfl (by simp)
    (quiet_bind (keeps_quiet_read (by simp [Instr.mayRaise]) _) fun _ =>
      keeps_batch (by simp [Instr.mayRaise, Instr.calls]) (by simp [Instr.mayRaise, Instr.batches]) _)
    (by simp only [bind_assoc]; exact h)

theorem exec_trivw {rd : Reg} {imm : U32} {s t : State} (h : exec (.trivw rd imm) s = .next t) :
    Ending (.trivw rd imm) s t :=
  ending_wrote (m := trivW Config.G imm) rfl (by simp) (keeps_trivW (by simp [Instr.mayRaise, Instr.calls]) _) h

theorem exec_rotr {rd rs1 : Reg} {n : BitVec 8} {s t : State} (h : exec (.rotr rd rs1 n) s = .next t) :
    Ending (.rotr rd rs1 n) s t :=
  ending_wrote (m := readR rs1 >>= fun x => pure (rotR x n.toNat)) rfl (by simp)
    (quiet_bind (keeps_quiet_read (by simp [Instr.mayRaise]) _) fun _ => keeps_pure (quiet_chains _) _)
    (by simp only [bind_assoc, pure_bind]; exact h)

theorem exec_shr {rd rs1 : Reg} {n : BitVec 8} {s t : State} (h : exec (.shr rd rs1 n) s = .next t) :
    Ending (.shr rd rs1 n) s t := by
  refine ending_wrote (m := readR rs1 >>= fun x => shR Config.G x n.toNat) rfl (by simp)
    (quiet_bind (keeps_quiet_read (by simp [Instr.mayRaise]) _) fun x => ?_) (by simp only [bind_assoc]; exact h)
  by_cases hn : n.toNat = 0
  · rw [hn]
    exact fun s => ⟨0, 0, rfl⟩
  · exact keeps_shR (by simpa [Instr.mayRaise, Instr.calls] using hn) _ _

theorem exec_ssig0 {rd rs1 : Reg} {s t : State} (h : exec (.ssig0 rd rs1) s = .next t) : Ending (.ssig0 rd rs1) s t :=
  ending_wrote (m := readR rs1 >>= fun x => ssig0 Config.G x) rfl (by simp)
    (quiet_bind (keeps_quiet_read (by simp [Instr.mayRaise]) _) fun _ =>
      keeps_ssig0 (by simp [Instr.mayRaise, Instr.calls]) (by simp [Instr.mayRaise, Instr.batches]) _)
    (by simp only [bind_assoc]; exact h)

theorem exec_ssig1 {rd rs1 : Reg} {s t : State} (h : exec (.ssig1 rd rs1) s = .next t) : Ending (.ssig1 rd rs1) s t :=
  ending_wrote (m := readR rs1 >>= fun x => ssig1 Config.G x) rfl (by simp)
    (quiet_bind (keeps_quiet_read (by simp [Instr.mayRaise]) _) fun _ =>
      keeps_ssig1 (by simp [Instr.mayRaise, Instr.calls]) (by simp [Instr.mayRaise, Instr.batches]) _)
    (by simp only [bind_assoc]; exact h)

theorem exec_bsig0 {rd rs1 : Reg} {s t : State} (h : exec (.bsig0 rd rs1) s = .next t) : Ending (.bsig0 rd rs1) s t :=
  ending_wrote (m := readR rs1 >>= fun x => bsig0 Config.G x) rfl (by simp)
    (quiet_bind (keeps_quiet_read (by simp [Instr.mayRaise]) _) fun _ =>
      keeps_bsig0 (by simp [Instr.mayRaise, Instr.calls]) (by simp [Instr.mayRaise, Instr.batches]) _)
    (by simp only [bind_assoc]; exact h)

theorem exec_bsig1 {rd rs1 : Reg} {s t : State} (h : exec (.bsig1 rd rs1) s = .next t) : Ending (.bsig1 rd rs1) s t :=
  ending_wrote (m := readR rs1 >>= fun x => bsig1 Config.G x) rfl (by simp)
    (quiet_bind (keeps_quiet_read (by simp [Instr.mayRaise]) _) fun _ =>
      keeps_bsig1 (by simp [Instr.mayRaise, Instr.calls]) (by simp [Instr.mayRaise, Instr.batches]) _)
    (by simp only [bind_assoc]; exact h)

theorem exec_ch {rd rs1 rs2 rs3 : Reg} {s t : State} (h : exec (.ch rd rs1 rs2 rs3) s = .next t) :
    Ending (.ch rd rs1 rs2 rs3) s t :=
  ending_wrote (m := readR rs1 >>= fun x => readR rs2 >>= fun y => readR rs3 >>= fun z => ch Config.G x y z) rfl (by simp)
    (quiet_bind (keeps_quiet_read (by simp [Instr.mayRaise]) _) fun _ =>
      quiet_bind (keeps_quiet_read (by simp [Instr.mayRaise]) _) fun _ =>
        quiet_bind (keeps_quiet_read (by simp [Instr.mayRaise]) _) fun _ =>
          keeps_ch (by simp [Instr.mayRaise, Instr.calls]) (by simp [Instr.mayRaise, Instr.batches]) _ _ _)
    (by simp only [bind_assoc]; exact h)

theorem exec_maj {rd rs1 rs2 rs3 : Reg} {s t : State} (h : exec (.maj rd rs1 rs2 rs3) s = .next t) :
    Ending (.maj rd rs1 rs2 rs3) s t :=
  ending_wrote (m := readR rs1 >>= fun x => readR rs2 >>= fun y => readR rs3 >>= fun z => maj Config.G x y z) rfl (by simp)
    (quiet_bind (keeps_quiet_read (by simp [Instr.mayRaise]) _) fun _ =>
      quiet_bind (keeps_quiet_read (by simp [Instr.mayRaise]) _) fun _ =>
        quiet_bind (keeps_quiet_read (by simp [Instr.mayRaise]) _) fun _ =>
          keeps_maj (by simp [Instr.mayRaise, Instr.calls]) (by simp [Instr.mayRaise, Instr.batches]) _ _ _)
    (by simp only [bind_assoc]; exact h)

theorem stopped_inside {i : Instr} (hi : i = .compress ∨ ∃ rd rs1 rs2, i = .add rd rs1 rs2) {s : State} (e : Stop)
    (u : State) (hu : Stopped False Inside (Caused i.mayRaise) s e u) : Ending i s u := by
  cases e with
  | held => exact hu.1.elim
  | faulted =>
    obtain ⟨v, c, h1, h2, h3⟩ := hu
    exact .faultedInside c v hi h1 h2 h3

theorem exec_add {rd rs1 rs2 : Reg} {s t : State} (h : exec (.add rd rs1 rs2) s = .next t) :
    Ending (.add rd rs1 rs2) s t := by
  have hC : (Instr.add rd rs1 rs2).mayRaise .fCtx := by simp [Instr.mayRaise, Instr.calls]
  have hW : (Instr.add rd rs1 rs2).mayRaise .fWorker := by simp [Instr.mayRaise, Instr.batches]
  have hS : (Instr.add rd rs1 rs2).mayRaise .fShape := by simp [Instr.mayRaise]
  refine runCommand_post (E := Stopped False Inside (Caused (Instr.add rd rs1 rs2).mayRaise) s) (Q := Ending (.add rd rs1 rs2) s) ?_
    (stopped_inside (.inr ⟨_, _, _, rfl⟩)) h
  have read : ∀ k : Reg, Post (readR k) s (fun _ u => u = s) (Stopped False Inside (Caused (Instr.add rd rs1 rs2).mayRaise) s) :=
    fun k => post_read (fun _ _ => rfl) fun _ => ⟨s, .fShape, (inside_chains (fun _ => True)).refl s, caused_shape hS s, rfl⟩
  refine Post.bind ((read rs1).mono (fun a u hu => ?_) fun _ _ h => h)
  subst hu
  refine Post.bind ((read rs2).mono (fun b v hv => ?_) fun _ _ h => h)
  subst hv
  exact Post.bind ((yields_add hC hW a b v).mono (fun w u hu => .added rd rs1 rs2 w u rfl hu rfl) fun _ _ h => h)

theorem exec_compress {s t : State} (h : exec .compress s = .next t) : Ending .compress s t := by
  refine runCommand_post (E := Stopped False Inside (Caused Instr.compress.mayRaise) s) (Q := Ending .compress s) ?_
    (stopped_inside (.inl rfl)) h
  exact (yields_compress (by simp [Instr.mayRaise, Instr.calls]) (by simp [Instr.mayRaise])
    (by simp [Instr.mayRaise, Instr.batches]) s).mono (fun _ u hu => .compressed u rfl hu rfl) fun _ _ h => h

theorem exec_hinit {s t : State} (h : exec .hinit s = .next t) : Ending .hinit s t := by
  refine runCommand_post (E := Stopped False Quiet (Caused Instr.hinit.mayRaise) s) (Q := Ending .hinit s) ?_ ?_ h
  · refine Post.bind ((keeps_collect (quiet_chains _) (fun k => keeps_trivW (by simp [Instr.mayRaise, Instr.calls]) _) s).mono
      (fun n u hu => ?_) fun _ _ h => h)
    exact .initialised n u rfl hu rfl
  · intro e u hu
    cases e with
    | held => exact hu.1.elim
    | faulted =>
      obtain ⟨v, c, h1, h2, h3⟩ := hu
      exact .faulted c v (by simp) h1 h2 h3

theorem exec_ldw {rd : Reg} {s t : State} (h : exec (.ldw rd) s = .next t) : Ending (.ldw rd) s t := by
  refine runCommand_post (E := fun _ u => Ending (.ldw rd) s u) (Q := Ending (.ldw rd) s) ?_ (fun _ _ h => h) h
  exact Post.bind (post_frame (fun hd => .waits (.inl ⟨rd, rfl⟩) hd rfl) (fun f q w hd _ => .loaded rd w f q rfl hd rfl)
    fun f q hd _ => .frameFaulted f q (.inl ⟨rd, rfl⟩) hd rfl)

theorem exec_stw {rs1 : Reg} {s t : State} (h : exec (.stw rs1) s = .next t) : Ending (.stw rs1) s t := by
  refine runCommand_post (E := fun _ u => Ending (.stw rs1) s u) (Q := Ending (.stw rs1) s) ?_ (fun _ _ h => h) h
  exact Post.bind (post_read (fun w _ => .stored rs1 w rfl rfl) fun _ =>
    .faulted .fShape s (by simp) ⟨0, 0, rfl⟩ (caused_shape (by simp [Instr.mayRaise]) s) rfl)

theorem exec_ldblk {s t : State} (h : exec .ldblk s = .next t) : Ending .ldblk s t := by
  refine runCommand_post (E := fun _ u => Ending .ldblk s u) (Q := Ending .ldblk s) ?_ (fun _ _ h => h) h
  rcases loadBlock_cases s with ⟨hd, h⟩ | ⟨f, q, b, hd, -, h⟩ | ⟨f, q, hd, -, h⟩ <;> simp only [Post, h]
  · exact .waits (.inr rfl) hd rfl
  · exact .blockLoaded b f q rfl hd rfl
  · exact .frameFaulted f q (.inr rfl) hd rfl

/-- Reading `HS`: all of it, or a fault. -/
theorem post_readHS {s : State} {E : Stop → State → Prop} (hE : s.LacksHS → E .faulted (s.takeFault .fShape)) :
    Post (collect 8 readHS) s (fun ws u => u = s ∧ s.HoldsHS ws) E := by
  refine (post_reads (x := fun (k : Fin 8) s => s.hs[k]) fun k hk => hE ⟨k, hk⟩).mono (fun ws u hu => ⟨hu.1, ?_⟩) fun _ _ h => h
  show s.hs = _
  apply Vector.ext
  intro k hk
  simpa using hu.2 ⟨k, hk⟩

/-- Emitting the digest: all of it, or a fault (R243). -/
theorem post_emitDigest {s : State} {E : Stop → State → Prop} (hE : s.LacksHS → E .faulted (s.takeFault .fShape)) :
    Post (emitDigest) s (fun _ u => ∃ ws, s.HoldsHS ws ∧
      u = { s with env := { s.env with dout := s.env.dout ++ ws.toList } }) E := by
  have h := post_readHS (E := E) hE
  unfold Post at h ⊢
  cases hm : collect 8 readHS s with
  | error e u =>
    rw [show emitDigest s = .error e u from bind_error hm]
    simpa [hm] using h
  | ok ws u =>
    obtain ⟨-, hh⟩ : u = s ∧ s.HoldsHS ws := by simpa [hm] using h
    rw [emitDigest_ok hh]
    exact ⟨ws, hh, rfl⟩

theorem exec_rdh {s t : State} (h : exec .rdh s = .next t) : Ending .rdh s t := by
  refine runCommand_post (E := fun _ u => Ending .rdh s u) (Q := Ending .rdh s) ?_ (fun _ _ h => h) h
  refine (post_emitDigest fun _ => ?_).mono (fun _ u hu => ?_) fun _ _ h => h
  · exact .faulted .fShape s (by simp) ⟨0, 0, rfl⟩ (caused_shape (by simp [Instr.mayRaise]) s) rfl
  · obtain ⟨ws, hh, rfl⟩ := hu
    exact .emitted ws rfl hh rfl

/-- HASH from its loop on. -/
theorem post_hashRest {imm : U32} {s s0 : State} (h0 : HashRun s0 s) (hsc : s.scratch = s0.scratch)
    (hle : s.seq.blkLeft = if s0.seq.phase = .load then s0.seq.blkLeft else imm)
    (hpres : s0.seq.phase = .load ∨ Present s.hs) :
    Post (hashRest Config.G) s (fun _ u => Ending (.hash imm) s0 u.complete) (fun _ u => Ending (.hash imm) s0 u) := by
  have hC : (Instr.hash imm).mayRaise .fCtx := by simp [Instr.mayRaise, Instr.calls]
  have hW : (Instr.hash imm).mayRaise .fWorker := .inr ⟨imm, rfl⟩
  have hS : (Instr.hash imm).mayRaise .fShape := by simp [Instr.mayRaise]
  refine Post.bind (m := (get : Micro State)) ?_
  show Post (hashBlocks Config.G s.seq.blkLeft.toNat >>= _) s _ _
  have h1 := keeps_hashBlocks (A := (Instr.hash imm).mayRaise) (G := Config.G) hC hS hW s.seq.blkLeft.toNat s
  have h2 := hashBlocks_waits (A := (Instr.hash imm).mayRaise) (G := Config.G) hC hS hW s.seq.blkLeft.toNat s rfl
  refine Post.bind ((h1.and h2).mono (fun _ u hu => ?_) fun e u hu => ?_)
  · refine Post.bind ?_
    have hu1 : HashRun s0 u := (hashRun_chains (fun _ => True)).trans h0 hu.1
    refine Post.bind ((post_emitDigest fun _ => ?_).mono (fun _ v hv => ?_) fun _ _ h => h)
    · exact .hashFaulted imm .fShape (u.setPhase .out) rfl
        ((hashRun_chains (fun _ => True)).trans hu1 (inside_of ⟨_, _, _, _, rfl⟩).hashRun) (caused_shape hS s0) rfl
    · obtain ⟨ws, hh, rfl⟩ := hv
      exact .hashed imm u ws rfl hu1 hh (by rw [← hsc]; exact hu.2) rfl
  · cases e with
    | held =>
      obtain ⟨g1, g2, g3, g4, g5⟩ := hu.2 rfl
      refine .hashWaits imm rfl ((hashRun_chains (fun _ => True)).trans h0 hu.1.2) (by rw [← hsc]; exact g1) g2 g3
        (by rw [← hle]; exact g4) (hpres.imp_right fun h => hu.1.2.hs h) g5
    | faulted =>
      obtain ⟨v, c, k1, k2, k3⟩ := hu.1
      exact .hashFaulted imm c v rfl ((hashRun_chains (fun _ => True)).trans h0 k1) ((hashRun_chains _).back h0 k2) k3

theorem exec_hash {imm : U32} {s t : State} (h : exec (.hash imm) s = .next t) : Ending (.hash imm) s t := by
  change execHash imm s = _ at h
  unfold execHash at h
  split at h
  · rename_i hp
    exact runCommand_post (post_hashRest ((hashRun_chains (fun _ => True)).refl s) rfl (by rw [if_pos hp]) (.inl hp))
      (fun _ _ h => h) h
  · rename_i hp
    refine runCommand_post (E := fun _ u => Ending (.hash imm) s u) (Q := Ending (.hash imm) s) ?_ (fun _ _ h => h) h
    refine Post.bind (Post.bind (Post.bind ?_))
    have hq : HashRun s ((s.setBlkLeft imm).setPhase .hinit) := ⟨rfl, rfl, rfl, rfl, rfl, rfl, id, id, id, id, id⟩
    have inits : Keeps False Quiet (Caused (Instr.hash imm).mayRaise) (collect 8 fun k => trivW Config.G (IV k)) :=
      keeps_collect (quiet_chains _) fun k => keeps_trivW (by simp [Instr.mayRaise, Instr.calls]) _
    refine Post.bind ((inits ((s.setBlkLeft imm).setPhase .hinit)).mono (fun n u hu => ?_) fun e u hu => ?_)
    · have hu' : HashRun s u := (hashRun_chains (fun _ => True)).trans hq hu.inside.hashRun
      have hpr : Present (u.setHS n).hs := HoldsHS.present (h := n) rfl
      exact post_hashRest (s0 := s) ⟨hu'.r, hu'.status, hu'.fcmd, hu'.cmd, hu'.host, hu'.dout, hu'.ctx, hu'.workers,
        fun _ => hpr, fun _ => .inr hpr, hu'.blk⟩ hu.scratch
        (by rw [if_neg hp]; show u.seq.blkLeft = imm; rw [hu.seq]; rfl) (.inr hpr)
    · cases e with
      | held => exact hu.1.elim
      | faulted =>
        obtain ⟨v, c, k1, k2, k3⟩ := hu
        exact .hashFaulted imm c v rfl ((hashRun_chains (fun _ => True)).trans hq k1.inside.hashRun)
          ((hashRun_chains _).back hq k2) k3

/-- Every instruction ends in one of the ways of `Ending`. -/
theorem exec_ending {i : Instr} {s t : State} (h : exec i s = .next t) : Ending i s t := by
  cases i with
  | xorw rd rs1 rs2 => exact exec_xorw h
  | andw rd rs1 rs2 => exact exec_andw h
  | notw rd rs1 => exact exec_notw h
  | trivw rd imm => exact exec_trivw h
  | rotr rd rs1 n => exact exec_rotr h
  | shr rd rs1 n => exact exec_shr h
  | ssig0 rd rs1 => exact exec_ssig0 h
  | ssig1 rd rs1 => exact exec_ssig1 h
  | bsig0 rd rs1 => exact exec_bsig0 h
  | bsig1 rd rs1 => exact exec_bsig1 h
  | ch rd rs1 rs2 rs3 => exact exec_ch h
  | maj rd rs1 rs2 rs3 => exact exec_maj h
  | add rd rs1 rs2 => exact exec_add h
  | compress => exact exec_compress h
  | hinit => exact exec_hinit h
  | hash imm => exact exec_hash h
  | ldw rd => exact exec_ldw h
  | stw rs1 => exact exec_stw h
  | ldblk => exact exec_ldblk h
  | rdh => exact exec_rdh h

end Sys2Proof.Machine
end

