-- ==== Sys2Proof/Laws/Keys.lean ====
section
/-!
SUPPORT. One result for every key that fits: the laws of R14 speak of one key at a time, the statements of all of
them about one result. With the small inversions this takes, and what a failed draw makes of a batch (R113, R118).
-/

namespace Sys2Proof.Machine

/-- If for each fitting key there is a result, and there is at most one, one result serves every fitting key. -/
theorem for_every_key {α : Type} {P : α → Prop} {Q : (Ct → Bool) → α → Prop} (unique : ∀ a b, P a → P b → a = b)
    (h : ∀ dec, Config.G.Fits dec → ∃ a, P a ∧ Q dec a) : ∃ a, P a ∧ ∀ dec, Config.G.Fits dec → Q dec a := by
  obtain ⟨dec0, h0⟩ := Config.some_key
  obtain ⟨a, ha, -⟩ := h dec0 h0
  refine ⟨a, ha, fun dec hd => ?_⟩
  obtain ⟨b, hb, hq⟩ := h dec hd
  rwa [unique a b ha hb]

theorem next_inj {x : Host.Outcome State Fault Refusal} {s t : State} (h : x = .next s) (k : x = .next t) : s = t := by
  rw [h] at k; cases k; rfl

theorem setR_inj {s : State} {rd : Reg} {w w' : Word} (h : (s.setR rd w).r = (s.setR rd w').r) : w = w' := by
  simpa using congrArg (fun v : Vector (Option Word) 16 => v[rd]) h

theorem filled_inj {n : Nat} {ws ws' : Vector Word n} (h : filled ws = filled ws') : ws = ws' :=
  Vector.ext fun k hk => by simpa using congrArg (fun v : Vector (Option Word) n => v[k]) h

theorem readR_ok {s : State} {k : Reg} {w : Word} (h : s.r[k] = some w) : readR k s = .ok w s := readElement_some h

theorem readR_empty {s : State} {k : Reg} (h : s.r[k] = none) : readR k s = .error .faulted (s.takeFault .fShape) :=
  readElement_none h

theorem any_take {l : List Bool} {n : Nat} : true ∈ l.take n ↔ (l.take n).any id = true := by simp

theorem not_any_take {l : List Bool} {n : Nat} : true ∉ l.take n ↔ (l.take n).any id = false := by simp

/-- A batch with a failed call ends in `F_CTX`, whatever its workers did. -/
theorem batch_ctx {G : Capability} {q : BatchOp} {s : State} (h : true ∈ s.env.ctxDraws.take 32) :
    batch G q s = .error .faulted ((s.afterCalls 32 1).takeFault .fCtx) := by
  simp only [batch, drawCtx, drawWorkers, bind, EStateM.bind, Config.LANES, any_take.1 h]
  rfl

/-- A batch with no failed call and a failed worker ends in `F_WORKER`. -/
theorem batch_worker {G : Capability} {q : BatchOp} {s : State} (hc : true ∉ s.env.ctxDraws.take 32)
    (h : true ∈ s.env.workerDraws.take 8) : batch G q s = .error .faulted ((s.afterCalls 32 1).takeFault .fWorker) := by
  have h : ((s.dropCtx 32).env.workerDraws.take 8).any id = true := any_take.1 h
  simp only [batch, drawCtx, drawWorkers, bind, EStateM.bind, Config.LANES, Config.NCHUNK, not_any_take.1 hc, h]
  rfl

/-- The adder's last lines in either order. -/
theorem complete_clearAdder_setR (s : State) (i : Fin 32) (rd : Reg) (w : Word) :
    (((s.clearAdder).setCI i).setR rd w).complete = (((s.setR rd w).clearAdder)).complete := rfl

end Sys2Proof.Machine
end

