-- ==== Sys2Proof/Laws/Draws.lean ====
section
/-!
SUPPORT. Which fault a stretch of work ends in is decided by the draws alone (R268, R333): the work is followed beside
its run with no draw to come, step by step in the textual order of the pseudocode. And a fault's cause lies among the draws used (R262, R264).
-/

namespace Sys2Proof.Machine

/-! The two costs of a list of micro-steps. -/

/-- Capability calls of a micro-step. -/
def callsOf : List CapStep → Nat
  | [] => 0
  | .call :: ds => 1 + callsOf ds
  | .batch :: ds => 32 + callsOf ds

/-- Batches of a list of micro-steps. -/
def batchesOf : List CapStep → Nat
  | [] => 0
  | .call :: ds => batchesOf ds
  | .batch :: ds => 1 + batchesOf ds

theorem callsOf_append (ds es : List CapStep) : callsOf (ds ++ es) = callsOf ds + callsOf es := by
  induction ds with
  | nil => simp [callsOf]
  | cons d ds ih => cases d <;> simp [callsOf, ih, Nat.add_assoc]

theorem batchesOf_append (ds es : List CapStep) : batchesOf (ds ++ es) = batchesOf ds + batchesOf es := by
  induction ds with
  | nil => simp [batchesOf]
  | cons d ds ih => cases d <;> simp [batchesOf, ih, Nat.add_assoc]

/-- The first failure of two lists of steps: that of the first list, or, where it has none, that of the second on the draws left. -/
theorem firstFault_append (ds es : List CapStep) : ∀ ctx wk, firstFault (ds ++ es) ctx wk =
    (firstFault ds ctx wk).or (firstFault es (ctx.drop (callsOf ds)) (wk.drop (8 * batchesOf ds))) := by
  induction ds with
  | nil => intro ctx wk; simp [firstFault, callsOf, batchesOf]
  | cons d ds ih =>
    intro ctx wk
    cases d with
    | call =>
      simp only [List.cons_append, firstFault, ih, callsOf, batchesOf, List.drop_drop]
      split <;> simp
    | batch =>
      simp only [List.cons_append, firstFault, ih, callsOf, batchesOf, List.drop_drop, Nat.mul_add, Nat.mul_one]
      split
      · simp
      · split <;> simp

theorem callsOf_replicate (n : Nat) (ds : List CapStep) : callsOf (List.replicate n ds).flatten = n * callsOf ds := by
  induction n with
  | zero => simp [callsOf]
  | succ n ih => rw [List.replicate_succ, List.flatten_cons, callsOf_append, ih, Nat.succ_mul, Nat.add_comm]

theorem batchesOf_replicate (n : Nat) (ds : List CapStep) : batchesOf (List.replicate n ds).flatten = n * batchesOf ds := by
  induction n with
  | zero => simp [batchesOf]
  | succ n ih => rw [List.replicate_succ, List.flatten_cons, batchesOf_append, ih, Nat.succ_mul, Nat.add_comm]

theorem callsOf_calls (n : Nat) : callsOf (List.replicate n .call) = n := by
  induction n with
  | zero => rfl
  | succ n ih => rw [List.replicate_succ, callsOf, ih, Nat.add_comm]

theorem batchesOf_calls (n : Nat) : batchesOf (List.replicate n .call) = 0 := by
  induction n with
  | zero => rfl
  | succ n ih => rw [List.replicate_succ, batchesOf, ih]

theorem compress_costs : callsOf CapStep.compress = 130840 ∧ batchesOf CapStep.compress = 2824 := by
  simp only [CapStep.compress, callsOf_append, batchesOf_append, callsOf_replicate, batchesOf_replicate]
  decide

theorem hinit_costs : callsOf CapStep.hinit = 256 ∧ batchesOf CapStep.hinit = 0 := by
  simp only [CapStep.hinit, CapStep.trivW, callsOf_replicate, batchesOf_replicate, callsOf_calls, batchesOf_calls]
  decide

/-- The micro-steps of a command are as many as its tabled cost (R198, R331). -/
theorem capSteps_costs (i : Instr) : callsOf i.capSteps = i.calls ∧ batchesOf i.capSteps = i.batches := by
  cases i with
  | shr rd rs1 n => exact ⟨callsOf_calls _, batchesOf_calls _⟩
  | compress => exact compress_costs
  | hash imm =>
    simp only [Instr.capSteps, Instr.calls, Instr.batches, CapStep.blocks, callsOf_append, batchesOf_append,
      callsOf_replicate, batchesOf_replicate, compress_costs.1, compress_costs.2, hinit_costs.1, hinit_costs.2]
    omega
  | xorw rd rs1 rs2 => exact ⟨rfl, rfl⟩
  | andw rd rs1 rs2 => exact ⟨rfl, rfl⟩
  | notw rd rs1 => exact ⟨rfl, rfl⟩
  | trivw rd imm => exact ⟨rfl, rfl⟩
  | rotr rd rs1 n => exact ⟨rfl, rfl⟩
  | ssig0 rd rs1 => exact ⟨rfl, rfl⟩
  | ssig1 rd rs1 => exact ⟨rfl, rfl⟩
  | bsig0 rd rs1 => exact ⟨rfl, rfl⟩
  | bsig1 rd rs1 => exact ⟨rfl, rfl⟩
  | ch rd rs1 rs2 rs3 => exact ⟨rfl, rfl⟩
  | maj rd rs1 rs2 rs3 => exact ⟨rfl, rfl⟩
  | add rd rs1 rs2 => exact ⟨rfl, rfl⟩
  | hinit => exact hinit_costs
  | ldw rd => exact ⟨rfl, rfl⟩
  | stw rs1 => exact ⟨rfl, rfl⟩
  | ldblk => exact ⟨rfl, rfl⟩
  | rdh => exact ⟨rfl, rfl⟩

/-- A list of steps has no failure exactly when none is drawn for its calls and batches. -/
theorem firstFault_none_iff (ds : List CapStep) : ∀ ctx wk, firstFault ds ctx wk = none ↔
    true ∉ ctx.take (callsOf ds) ∧ true ∉ wk.take (8 * batchesOf ds) := by
  induction ds with
  | nil => intro ctx wk; simp [firstFault, callsOf, batchesOf]
  | cons d ds ih =>
    intro ctx wk
    cases d with
    | call =>
      simp only [firstFault, callsOf, batchesOf, List.take_add, List.mem_append, not_or]
      split
      · simp [*]
      · simp only [*, not_false_eq_true, true_and]
    | batch =>
      simp only [firstFault, callsOf, batchesOf, Nat.mul_add, Nat.mul_one, List.take_add, List.mem_append, not_or]
      split
      · simp [*]
      · split
        · simp [*]
        · simp only [*, not_false_eq_true, true_and]

/-! Following a run. -/

/-- The same state with these draws to come. -/
def State.withDraws (s : State) (ctx wk : List Bool) : State :=
  { s with env := { s.env with ctxDraws := ctx, workerDraws := wk } }

theorem withDraws_self (s : State) : s.withDraws s.env.ctxDraws s.env.workerDraws = s := rfl

@[simp] theorem withDraws_withDraws (s : State) (ctx wk ctx' wk' : List Bool) :
    (s.withDraws ctx wk).withDraws ctx' wk' = s.withDraws ctx' wk' := rfl

/-- Where the work ends with no failure to come, it ends so under every list of draws without a failure among those of its
micro-steps `ds`, and under any other it ends in the first failure's fault. -/
def Follows (ds : List CapStep) {α : Type} (m : Micro α) : Prop :=
  ∀ (s : State) (a : α) (t : State), m (s.withDraws [] []) = .ok a t →
    t.withDraws [] [] = t ∧ ∀ ctx wk,
      (firstFault ds ctx wk = none →
        m (s.withDraws ctx wk) = .ok a (t.withDraws (ctx.drop (callsOf ds)) (wk.drop (8 * batchesOf ds)))) ∧
      ∀ c, firstFault ds ctx wk = some c → ∃ u, m (s.withDraws ctx wk) = .error .faulted (State.takeFault u c)

theorem Follows.cast {ds es : List CapStep} {α : Type} {m : Micro α} (h : Follows ds m) (e : ds = es) : Follows es m := e ▸ h

theorem follows_pure {α : Type} (a : α) : Follows [] (pure a : Micro α) := by
  intro s b t h
  cases h
  exact ⟨rfl, fun ctx wk => ⟨fun _ => rfl, fun c h => by cases h⟩⟩

theorem follows_bind {α β : Type} {m : Micro α} {f : α → Micro β} {ds es : List CapStep} (hm : Follows ds m)
    (hf : ∀ a, Follows es (f a)) : Follows (ds ++ es) (m >>= f) := by
  intro s b u h
  cases hr : m (s.withDraws [] []) with
  | error e t => rw [bind_error hr] at h; cases h
  | ok a t =>
    rw [bind_ok hr] at h
    obtain ⟨ht, hm⟩ := hm s a t hr
    obtain ⟨hu, hf⟩ := hf a t b u (by rw [ht]; exact h)
    refine ⟨hu, fun ctx wk => ?_⟩
    obtain ⟨m1, m2⟩ := hm ctx wk
    obtain ⟨f1, f2⟩ := hf (ctx.drop (callsOf ds)) (wk.drop (8 * batchesOf ds))
    rw [firstFault_append]
    cases hd : firstFault ds ctx wk with
    | some c =>
      obtain ⟨v, hv⟩ := m2 c hd
      exact ⟨fun h => by simp at h, fun c' h => ⟨v, by rw [bind_error hv]; simp at h; rw [h]⟩⟩
    | none =>
      rw [Option.none_or, bind_ok (m1 hd), callsOf_append, batchesOf_append, Nat.mul_add, ← List.drop_drop, ← List.drop_drop]
      exact ⟨f1, f2⟩

/-- A change of the state that neither reads nor writes the draws. -/
theorem follows_update {f : State → State} (hf : ∀ s ctx wk, f (s.withDraws ctx wk) = (f s).withDraws ctx wk) :
    Follows [] (update f) := by
  intro s a t h
  have h' : EStateM.Result.ok () (f (s.withDraws [] [])) = .ok a t := h
  rw [hf] at h'
  cases h'
  exact ⟨rfl, fun ctx wk => ⟨fun _ => congrArg (EStateM.Result.ok ()) (hf s ctx wk), fun c h => by cases h⟩⟩

theorem follows_read {x : State → Option Word} (hx : ∀ s ctx wk, x (s.withDraws ctx wk) = x s) : Follows [] (readElement x) := by
  intro s a t h
  cases hs : x s with
  | none => rw [readElement_none ((hx s [] []).trans hs)] at h; cases h
  | some w =>
    rw [readElement_some ((hx s [] []).trans hs)] at h
    cases h
    exact ⟨rfl, fun ctx wk => ⟨fun _ => readElement_some ((hx s ctx wk).trans hs), fun c h => by cases h⟩⟩

/-- A loop repeats the micro-steps of its body. -/
theorem follows_forRange {lo : Nat} {ds : List CapStep} {body : Nat → Micro Unit} (hb : ∀ i, Follows ds (body i)) :
    ∀ n, Follows (List.replicate n ds).flatten (forRange lo n body)
  | 0 => follows_pure ()
  | n + 1 => (follows_bind (follows_forRange hb n) fun _ => hb _).cast (by
      rw [List.replicate_succ', List.flatten_append, List.flatten_cons, List.flatten_nil, List.append_nil])

theorem follows_collect {α : Type} {ds : List CapStep} : ∀ {n : Nat} {f : Fin n → Micro α}, (∀ i, Follows ds (f i)) →
    Follows (List.replicate n ds).flatten (collect n f)
  | 0, _, _ => follows_pure _
  | n + 1, _, hf =>
    (follows_bind (follows_collect fun i => hf i.castSucc) fun _ => follows_bind (hf _) fun x => follows_pure _).cast (by
      rw [List.replicate_succ', List.flatten_append, List.flatten_cons, List.flatten_nil])

/-- A loop whose body reaches no capability. -/
theorem follows_quiet_forRange {lo n : Nat} {body : Nat → Micro Unit} (hb : ∀ i, Follows [] (body i)) :
    Follows [] (forRange lo n body) := (follows_forRange hb n).cast (by simp)

theorem follows_quiet_collect {α : Type} {n : Nat} {f : Fin n → Micro α} (hf : ∀ i, Follows [] (f i)) :
    Follows [] (collect n f) := (follows_collect hf).cast (by simp)

variable {G : Capability}

theorem follows_call {α : Type} {m : Micro α} {a : α} (hok : ∀ s : State, s.NoFailure 1 0 → m s = .ok a (s.afterCalls 1 0))
    (hbad : ∀ s : State, true ∈ s.env.ctxDraws.take 1 → m s = .error .faulted ((s.afterCalls 1 0).takeFault .fCtx)) :
    Follows [.call] m := by
  intro s b t h
  rw [hok _ ⟨rfl, rfl⟩] at h
  cases h
  refine ⟨rfl, fun ctx wk => ?_⟩
  by_cases hc : true ∈ ctx.take 1
  · simp only [firstFault, if_pos hc]
    exact ⟨fun h => (by cases h), fun c h => ⟨_, by cases h; exact hbad (s.withDraws ctx wk) hc⟩⟩
  · simp only [firstFault, if_neg hc]
    exact ⟨fun _ => hok (s.withDraws ctx wk) ⟨not_any_take.1 hc, rfl⟩, fun c h => by cases h⟩

theorem triv_bad {b : Bool} {s : State} (h : true ∈ s.env.ctxDraws.take 1) :
    triv G b s = .error .faulted ((s.afterCalls 1 0).takeFault .fCtx) := by
  simp only [triv, drawCtx, bind, EStateM.bind, any_take.1 h]
  rfl

theorem gate_bad {k : GateKind} {a b : Ct} {s : State} (h : true ∈ s.env.ctxDraws.take 1) :
    gate G k a b s = .error .faulted ((s.afterCalls 1 0).takeFault .fCtx) := by
  simp only [gate, drawCtx, bind, EStateM.bind, any_take.1 h]
  rfl

theorem follows_triv (b : Bool) : Follows [.call] (triv G b) := follows_call (fun _ => triv_ok) fun _ => triv_bad

theorem follows_gate (k : GateKind) (a b : Ct) : Follows [.call] (gate G k a b) := follows_call (fun _ => gate_ok) fun _ => gate_bad

/-- The draws that decide a batch. -/
theorem firstFault_batch (ctx wk : List Bool) : firstFault [.batch] ctx wk =
    if true ∈ ctx.take 32 then some .fCtx else if true ∈ wk.take 8 then some .fWorker else none := rfl

theorem follows_batch (q : BatchOp) : Follows [.batch] (batch G q) := by
  intro s b t h
  have h0 : (s.withDraws [] []).NoFailure 32 1 := ⟨rfl, rfl⟩
  rw [batch_ok h0] at h
  injection h with hb ht
  subst hb ht
  refine ⟨rfl, fun ctx wk => ?_⟩
  have hbad := batch_ctx (G := G) (q := q) (s := s.withDraws ctx wk)
  have hbad' := batch_worker (G := G) (q := q) (s := s.withDraws ctx wk)
  have hok := batch_ok (G := G) (q := q) (s := s.withDraws ctx wk)
  rw [firstFault_batch]
  by_cases hc : true ∈ ctx.take 32
  · rw [if_pos hc, hbad hc]
    exact ⟨fun h => (by cases h), fun c h => ⟨_, by injection h with h; rw [h]⟩⟩
  · by_cases hw : true ∈ wk.take 8
    · rw [if_neg hc, if_pos hw, hbad' hc hw]
      exact ⟨fun h => (by cases h), fun c h => ⟨_, by injection h with h; rw [h]⟩⟩
    · rw [if_neg hc, if_neg hw, hok ⟨not_any_take.1 hc, not_any_take.1 hw⟩]
      exact ⟨fun _ => rfl, fun c h => by cases h⟩

/-- Micro-steps that are n times a list of one. -/
theorem replicate_singleton (n : Nat) (d : CapStep) : (List.replicate n [d]).flatten = List.replicate n d := by
  induction n with
  | zero => rfl
  | succ n ih => rw [List.replicate_succ, List.flatten_cons, ih, List.replicate_succ, List.singleton_append]

theorem follows_trivW (v : U32) : Follows CapStep.trivW (trivW G v) :=
  (follows_collect fun _ => follows_triv _).cast (replicate_singleton 32 _)

theorem follows_shR (x : Word) (n : Nat) : Follows (CapStep.shR n) (shR G x n) :=
  (follows_bind (follows_collect (n := n) (f := fun _ => triv G false) fun _ => follows_triv _) fun _ => follows_pure _).cast
    (by rw [List.append_nil, replicate_singleton])

theorem follows_ssig0 (x : Word) : Follows CapStep.ssig0 (ssig0 G x) :=
  (follows_bind (follows_batch _) fun _ => follows_bind (follows_shR _ _) fun _ => follows_batch _).cast (by simp only [CapStep.ssig0, List.append_assoc])

theorem follows_ssig1 (x : Word) : Follows CapStep.ssig1 (ssig1 G x) :=
  (follows_bind (follows_batch _) fun _ => follows_bind (follows_shR _ _) fun _ => follows_batch _).cast (by simp only [CapStep.ssig1, List.append_assoc])

theorem follows_bsig0 (x : Word) : Follows CapStep.bsig (bsig0 G x) := follows_bind (follows_batch _) fun _ => follows_batch _

theorem follows_bsig1 (x : Word) : Follows CapStep.bsig (bsig1 G x) := follows_bind (follows_batch _) fun _ => follows_batch _

theorem follows_ch (x y z : Word) : Follows CapStep.ch (ch G x y z) :=
  follows_bind (follows_batch _) fun _ => follows_bind (follows_batch _) fun _ => follows_bind (follows_batch _) fun _ => follows_batch _

theorem follows_maj (x y z : Word) : Follows CapStep.maj (maj G x y z) :=
  follows_bind (follows_batch _) fun _ => follows_bind (follows_batch _) fun _ => follows_bind (follows_batch _) fun _ =>
    follows_bind (follows_batch _) fun _ => follows_batch _

theorem follows_carryFrom (p g : Word) : ∀ (m : Nat) (h : m < 32) (x : Ct),
    Follows (List.replicate (2 * m) .call) (carryFrom G p g m h x)
  | 0, _, _ => follows_pure _
  | m + 1, h, x =>
    (follows_bind (follows_update (f := fun s => s.setCI ⟨m, by omega⟩) fun _ _ _ => rfl) fun _ =>
      follows_bind (follows_gate (G := G) .and p[m + 1] x) fun t => follows_bind (follows_gate (G := G) .xor g[m + 1] t) fun ci =>
        follows_bind (follows_carryFrom p g m (by omega) ci) fun rest => follows_pure (rest.push ci)).cast (by
      rw [Nat.mul_succ, List.append_nil, List.nil_append, List.replicate_succ, List.replicate_succ]
      rfl)

theorem follows_add (x y : Word) : Follows CapStep.add (add G x y) :=
  (follows_bind (follows_batch _) fun _ => follows_bind (follows_update fun _ _ _ => rfl) fun _ =>
    follows_bind (follows_batch _) fun _ => follows_bind (follows_update fun _ _ _ => rfl) fun _ =>
      follows_bind (follows_triv _) fun _ => follows_bind (follows_carryFrom _ _ _ _ _) fun _ =>
        follows_bind (follows_update fun _ _ _ => rfl) fun _ => follows_bind (follows_batch _) fun _ =>
          follows_bind (follows_update fun _ _ _ => rfl) fun _ => follows_pure _).cast (by
    simp only [List.nil_append, List.append_nil, CapStep.add, List.append_assoc]
    rfl)

theorem follows_scheduleStep (i : Nat) : Follows CapStep.scheduleStep (scheduleStep G i) := by
  unfold scheduleStep
  refine (follows_bind (follows_update fun _ _ _ => rfl) fun _ => follows_bind (follows_read fun _ _ _ => rfl) fun _ =>
    follows_bind (follows_ssig1 _) fun _ => follows_bind (follows_read fun _ _ _ => rfl) fun _ => follows_bind (follows_add _ _) fun _ =>
    follows_bind (follows_read fun _ _ _ => rfl) fun _ => follows_bind (follows_ssig0 _) fun _ => follows_bind (follows_add _ _) fun _ =>
    follows_bind (follows_read fun _ _ _ => rfl) fun _ => follows_bind (follows_add _ _) fun _ => follows_update fun _ _ _ => rfl).cast ?_
  rw [CapStep.scheduleStep]
  generalize CapStep.add = x
  generalize CapStep.ssig0 = y
  generalize CapStep.ssig1 = z
  simp only [List.nil_append, List.append_nil, List.append_assoc]

theorem follows_roundStep (i : Nat) : Follows CapStep.roundStep (roundStep G i) := by
  unfold roundStep
  refine (follows_bind (follows_update fun _ _ _ => rfl) fun _ => follows_bind (follows_quiet_collect fun _ => follows_read fun _ _ _ => rfl) fun _ =>
      follows_bind (follows_bsig1 _) fun _ => follows_bind (follows_add _ _) fun _ => follows_bind (follows_ch _ _ _) fun _ =>
      follows_bind (follows_add _ _) fun _ => follows_bind (follows_trivW _) fun _ => follows_bind (follows_add _ _) fun _ =>
      follows_bind (follows_read fun _ _ _ => rfl) fun _ => follows_bind (follows_add _ _) fun _ =>
      follows_bind (follows_update fun _ _ _ => rfl) fun _ => follows_bind (follows_bsig0 _) fun _ =>
      follows_bind (follows_maj _ _ _) fun _ => follows_bind (follows_add _ _) fun _ =>
      follows_bind (follows_update fun _ _ _ => rfl) fun _ => follows_bind (follows_add _ _) fun _ =>
      follows_bind (follows_add _ _) fun _ => follows_update fun _ _ _ => rfl).cast ?_
  rw [CapStep.roundStep]
  generalize CapStep.add = x
  generalize CapStep.bsig = y
  generalize CapStep.ch = z
  generalize CapStep.maj = v
  generalize CapStep.trivW = w
  simp only [List.nil_append, List.append_nil, List.append_assoc]

theorem follows_copyBlockWord (i : Nat) : Follows [] (copyBlockWord i) :=
  follows_bind (follows_read fun _ _ _ => rfl) fun _ => follows_update fun _ _ _ => rfl

theorem follows_loadWorking (i : Nat) : Follows [] (loadWorking i) :=
  follows_bind (follows_read fun _ _ _ => rfl) fun _ => follows_update fun _ _ _ => rfl

/-- COMPRESS's schedule (R191). -/
theorem follows_schedulePhase : Follows (List.replicate 48 CapStep.scheduleStep).flatten (schedulePhase G) := by
  have copies : Follows [] (forRange 0 16 copyBlockWord) := follows_quiet_forRange follows_copyBlockWord
  exact (follows_bind copies fun _ => follows_forRange (fun i => follows_scheduleStep i) 48).cast (List.nil_append _)

/-- COMPRESS's rounds (R193). -/
theorem follows_roundPhase : Follows (List.replicate 64 CapStep.roundStep).flatten (roundPhase G) := by
  have loads : Follows [] (forRange 0 8 loadWorking) := follows_quiet_forRange follows_loadWorking
  exact (follows_bind loads fun _ => follows_forRange (fun i => follows_roundStep i) 64).cast (List.nil_append _)

/-- COMPRESS's feed-forward (R194). -/
theorem follows_feedForwardPhase : Follows (List.replicate 8 CapStep.add).flatten (feedForwardPhase G) := by
  have word : ∀ k, Follows CapStep.add (feedForwardWord G k) := fun k =>
    (follows_bind (follows_update fun _ _ _ => rfl) fun _ => follows_bind (follows_read fun _ _ _ => rfl) fun _ =>
      follows_bind (follows_read fun _ _ _ => rfl) fun _ => follows_add _ _).cast (by simp only [List.nil_append])
  exact (follows_bind (follows_collect word) fun _ => follows_bind (follows_update fun _ _ _ => rfl) fun _ =>
    follows_update fun _ _ _ => rfl).cast (List.append_nil _)

/-- COMPRESS (R195). -/
theorem follows_compress : Follows CapStep.compress (compress G) := by
  refine (follows_bind (follows_quiet_collect fun _ => follows_read fun _ _ _ => rfl) fun _ =>
    follows_bind (follows_quiet_collect fun _ => follows_read fun _ _ _ => rfl) fun _ => follows_bind (follows_update fun _ _ _ => rfl) fun _ =>
    follows_bind follows_schedulePhase fun _ => follows_bind (follows_update fun _ _ _ => rfl) fun _ =>
    follows_bind follows_roundPhase fun _ => follows_bind (follows_update fun _ _ _ => rfl) fun _ =>
    follows_bind follows_feedForwardPhase fun _ => follows_update fun _ _ _ => rfl).cast ?_
  rw [CapStep.compress]
  generalize (List.replicate 48 CapStep.scheduleStep).flatten = x
  generalize (List.replicate 64 CapStep.roundStep).flatten = y
  generalize (List.replicate 8 CapStep.add).flatten = z
  simp only [List.nil_append, List.append_nil, List.append_assoc]

/-- HINIT (R222). -/
theorem follows_initHash : Follows CapStep.hinit (initHash G) :=
  (follows_bind (follows_collect fun _ => follows_trivW _) fun _ => follows_update fun _ _ _ => rfl).cast (List.append_nil _)

/-- A failure among the draws of a run that has everything else it needs: the run ends in the first failure's fault. -/
theorem Follows.faults {ds : List CapStep} {α : Type} {m : Micro α} (hm : Follows ds m) {s t : State} {a : α}
    (hok : m (s.withDraws [] []) = .ok a t) {c : FaultCode} (h : s.firstFault ds = some c) :
    ∃ u, m s = .error .faulted (State.takeFault u c) :=
  ((hm s a t hok).2 s.env.ctxDraws s.env.workerDraws).2 c h

/-- With no failure among its draws, a run ends as it does in silence. -/
theorem Follows.completes {ds : List CapStep} {α : Type} {m : Micro α} (hm : Follows ds m) {s t : State} {a : α}
    (hok : m (s.withDraws [] []) = .ok a t) (h : s.firstFault ds = none) :
    m s = .ok a (t.withDraws (s.env.ctxDraws.drop (callsOf ds)) (s.env.workerDraws.drop (8 * batchesOf ds))) :=
  ((hm s a t hok).2 s.env.ctxDraws s.env.workerDraws).1 h

theorem noFailure_withDraws_nil (s : State) (c b : Nat) : (s.withDraws [] []).NoFailure c b := by
  simp [State.NoFailure, State.withDraws]

/-! The loop of HASH. -/

/-- The loop of HASH over blocks that are there, when some draw of those blocks is a failure (R268, R333). -/
theorem hashBlocks_fault {dec : Ct → Bool} (hG : G.Fits dec) {c : FaultCode} : ∀ (frames : List Frame) (blocks : List (Vector Word 16)) (s : State)
    (rest : List Frame) (hs : Vector Word 8) (m : Nat), frames.map Frame.asBlock = blocks.map some → s.dinq = frames ++ rest →
    s.HoldsHS hs → s.firstFault (CapStep.blocks blocks.length) = some c →
    ∃ u, hashBlocks G (blocks.length + m) s = .error .faulted (State.takeFault u c) := by
  intro frames blocks
  induction blocks generalizing frames with
  | nil => intro s rest hs m _ _ _ h; simp [State.firstFault, CapStep.blocks, firstFault] at h
  | cons b blocks ih =>
    intro s rest hs m hf hd hh h
    obtain ⟨f, fs, rfl⟩ : ∃ f fs, frames = f :: fs := by
      cases frames with
      | nil => simp at hf
      | cons f fs => exact ⟨f, fs, rfl⟩
    simp only [List.map_cons, List.cons.injEq] at hf
    have hload : loadBlock (s.setPhase .load) = .ok () (((s.setPhase .load).setDinq (fs ++ rest)).setBLK b) :=
      loadBlock_ok (by simpa using hd) hf.1
    have hlen : (b :: blocks).length + m = (blocks.length + m) + 1 := by rw [List.length_cons]; omega
    have hsteps : CapStep.blocks (b :: blocks).length = CapStep.compress ++ CapStep.blocks blocks.length := by
      simp only [CapStep.blocks, List.length_cons, List.replicate_succ, List.flatten_cons]
    rw [hlen, hashBlocks, bind_update, bind_ok hload]
    generalize hs1 : ((s.setPhase .load).setDinq (fs ++ rest)).setBLK b = s1
    have hh1 : s1.HoldsHS hs := by subst hs1; simpa [State.HoldsHS] using hh
    have hb1 : s1.HoldsBLK b := by subst hs1; simp [State.HoldsBLK]
    have he1 : s1.env = s.env := by subst hs1; rfl
    have hd1 : s1.dinq = fs ++ rest := by subst hs1; rfl
    obtain ⟨n, t, -, hrun, g1, g2, -⟩ := compresses hG (s1.withDraws [] []) (s1.withDraws [] []) hs b rfl
      hh1 hb1 (noFailure_withDraws_nil _ _ _)
    rw [hsteps, State.firstFault, firstFault_append, ← he1] at h
    cases hc : s1.firstFault CapStep.compress with
    | some c' =>
      obtain ⟨u, hu⟩ := follows_compress.faults hrun hc
      rw [show firstFault CapStep.compress s1.env.ctxDraws s1.env.workerDraws = some c' from hc, Option.some_or] at h
      injection h with h
      exact ⟨u, h ▸ bind_error hu⟩
    | none =>
      have hok := follows_compress.completes hrun hc
      rw [show firstFault CapStep.compress s1.env.ctxDraws s1.env.workerDraws = none from hc, Option.none_or] at h
      rw [bind_ok hok, bind_update]
      generalize s1.env.ctxDraws.drop (callsOf CapStep.compress) = cd at h ⊢
      generalize s1.env.workerDraws.drop (8 * batchesOf CapStep.compress) = wd at h ⊢
      exact ih fs _ rest n m hf.2 (g2.trans hd1) g1 h

/-- HASH from its loop on, over blocks that are there and with as many or more left, when some draw of those blocks is a failure. -/
theorem hashRest_fault {dec : Ct → Bool} (hG : G.Fits dec) {c : FaultCode} {blocks : List (Vector Word 16)} {s : State}
    {rest : List Frame} {hs : Vector Word 8} (hd : s.dinq = (blocks.map fun b => Frame.block (b.toList.map Vector.toList)) ++ rest)
    (hh : s.HoldsHS hs) (hl : blocks.length ≤ s.seq.blkLeft.toNat) (h : s.firstFault (CapStep.blocks blocks.length) = some c) :
    ∃ u, hashRest G s = .error .faulted (State.takeFault u c) := by
  obtain ⟨m, hm⟩ := Nat.exists_eq_add_of_le hl
  obtain ⟨u, hu⟩ := hashBlocks_fault hG _ blocks s rest hs m (asBlock_frames blocks) hd hh h
  rw [hashRest_run, hm]
  exact ⟨u, bind_error hu⟩

/-- HASH over blocks that are there, as many as its count or fewer, when some draw of HINIT or of those blocks is a failure. -/
theorem hashAll_fault {dec : Ct → Bool} (hG : G.Fits dec) {c : FaultCode} {imm : U32} {blocks : List (Vector Word 16)} {s : State}
    {rest : List Frame} (hd : s.dinq = (blocks.map fun b => Frame.block (b.toList.map Vector.toList)) ++ rest)
    (hl : blocks.length ≤ imm.toNat) (h : s.firstFault (CapStep.hinit ++ CapStep.blocks blocks.length) = some c) :
    ∃ u, hashAll G imm s = .error .faulted (State.takeFault u c) := by
  generalize hs1 : (s.setBlkLeft imm).setPhase .hinit = s1
  have he : s1.env = s.env := by subst hs1; rfl
  obtain ⟨n, -, hi⟩ := initHash_ok hG (noFailure_withDraws_nil s1 256 0)
  rw [State.firstFault, firstFault_append, ← he] at h
  rw [hashAll, bind_update, bind_update, hs1]
  cases hc : s1.firstFault CapStep.hinit with
  | some c' =>
    rw [show firstFault CapStep.hinit s1.env.ctxDraws s1.env.workerDraws = some c' from hc, Option.some_or] at h
    injection h with h
    obtain ⟨u, hu⟩ := follows_initHash.faults hi hc
    exact ⟨u, h ▸ bind_error hu⟩
  | none =>
    rw [show firstFault CapStep.hinit s1.env.ctxDraws s1.env.workerDraws = none from hc, Option.none_or] at h
    rw [bind_ok (follows_initHash.completes hi hc)]
    generalize s1.env.ctxDraws.drop (callsOf CapStep.hinit) = cd at h ⊢
    generalize s1.env.workerDraws.drop (8 * batchesOf CapStep.hinit) = wd at h ⊢
    generalize hs2 : State.withDraws _ cd wd = s2
    have hb : s2.seq.blkLeft = imm := by subst hs2 hs1; rfl
    have hd2 : s2.dinq = s.dinq := by subst hs2 hs1; rfl
    have hh2 : s2.HoldsHS n := by subst hs2; rfl
    have h2 : s2.firstFault (CapStep.blocks blocks.length) = some c := by subst hs2; exact h
    exact hashRest_fault hG (hd2.trans hd) hh2 (hb ▸ hl) h2

/-! Work that touches nothing but the draws. -/

/-- However it ends, the work has used at most C calls and B batches and changed nothing else, but for the fault it may raise. -/
def Spends (C B : Nat) {α : Type} (m : Micro α) : Prop :=
  ∀ s, Post m s (fun _ t => ∃ k b, k ≤ C ∧ b ≤ B ∧ t = s.afterCalls k b) fun e t =>
    e = .faulted ∧ ∃ k b c, k ≤ C ∧ b ≤ B ∧ t = (s.afterCalls k b).takeFault c

theorem spends_pure {α : Type} (a : α) : Spends 0 0 (pure a : Micro α) := fun _ => ⟨0, 0, le_refl _, le_refl _, rfl⟩

theorem spends_bind {α β : Type} {m : Micro α} {f : α → Micro β} {C B C' B' : Nat} (hm : Spends C B m)
    (hf : ∀ a, Spends C' B' (f a)) : Spends (C + C') (B + B') (m >>= f) := by
  intro s
  refine Post.bind ((hm s).mono (fun a t ht => ?_) fun e t ht => ?_)
  · obtain ⟨k, b, hk, hb, rfl⟩ := ht
    refine (hf a _).mono (fun _ u hu => ?_) fun e u hu => ?_
    · obtain ⟨k', b', hk', hb', rfl⟩ := hu
      exact ⟨k + k', b + b', Nat.add_le_add hk hk', Nat.add_le_add hb hb', afterCalls_afterCalls ..⟩
    · obtain ⟨he, k', b', c, hk', hb', rfl⟩ := hu
      exact ⟨he, k + k', b + b', c, Nat.add_le_add hk hk', Nat.add_le_add hb hb', by rw [afterCalls_afterCalls]⟩
  · obtain ⟨he, k, b, c, hk, hb, rfl⟩ := ht
    exact ⟨he, k, b, c, Nat.le_add_right_of_le hk, Nat.le_add_right_of_le hb, rfl⟩

theorem Spends.cast {C B C' B' : Nat} {α : Type} {m : Micro α} (h : Spends C B m) (hc : C = C') (hb : B = B') : Spends C' B' m :=
  hc ▸ hb ▸ h

theorem spends_collect {α : Type} {C B : Nat} : ∀ {n : Nat} {f : Fin n → Micro α}, (∀ i, Spends C B (f i)) →
    Spends (C * n) (B * n) (collect n f)
  | 0, _, _ => spends_pure _
  | _ + 1, _, hf => spends_bind (spends_collect fun i => hf i.castSucc) fun _ => spends_bind (hf _) fun _ => spends_pure _

theorem spends_triv (x : Bool) : Spends 1 0 (triv G x) := by
  intro s
  by_cases h : true ∈ s.env.ctxDraws.take 1
  · simp only [Post, triv_bad h]
    exact ⟨trivial, 1, 0, _, le_refl _, le_refl _, rfl⟩
  · simp only [Post, triv_ok (G := G) (b := x) (s := s) ⟨not_any_take.1 h, rfl⟩]
    exact ⟨1, 0, le_refl _, le_refl _, rfl⟩

theorem spends_batch (q : BatchOp) : Spends 32 1 (batch G q) := by
  intro s
  by_cases h : true ∈ s.env.ctxDraws.take 32
  · simp only [Post, batch_ctx h]
    exact ⟨trivial, 32, 1, _, le_refl _, le_refl _, rfl⟩
  · by_cases h' : true ∈ s.env.workerDraws.take 8
    · simp only [Post, batch_worker h h']
      exact ⟨trivial, 32, 1, _, le_refl _, le_refl _, rfl⟩
    · simp only [Post, batch_ok (G := G) (q := q) (s := s) ⟨not_any_take.1 h, not_any_take.1 h'⟩]
      exact ⟨32, 1, le_refl _, le_refl _, rfl⟩

theorem spends_shR (x : Word) (n : Nat) : Spends n 0 (shR G x n) := by
  have h := spends_bind (spends_collect (n := n) (f := fun _ => triv G false) fun _ => spends_triv _) fun zeros =>
    spends_pure (Vector.ofFn fun i : Fin 32 => if h : i.val < n then zeros[i.val] else x[i.val - n])
  exact h.cast (by omega) (by omega)

theorem spends_ssig0 (x : Word) : Spends 67 2 (ssig0 G x) := by
  have h : Spends _ _ (ssig0 G x) :=
    spends_bind (spends_batch _) fun _ => spends_bind (spends_shR _ _) fun _ => spends_batch _
  exact h.cast (by norm_num) (by norm_num)

theorem spends_ssig1 (x : Word) : Spends 74 2 (ssig1 G x) := by
  have h : Spends _ _ (ssig1 G x) :=
    spends_bind (spends_batch _) fun _ => spends_bind (spends_shR _ _) fun _ => spends_batch _
  exact h.cast (by norm_num) (by norm_num)

theorem spends_bsig0 (x : Word) : Spends 64 2 (bsig0 G x) := by
  have h : Spends _ _ (bsig0 G x) := spends_bind (spends_batch _) fun _ => spends_batch _
  exact h.cast (by norm_num) (by norm_num)

theorem spends_bsig1 (x : Word) : Spends 64 2 (bsig1 G x) := by
  have h : Spends _ _ (bsig1 G x) := spends_bind (spends_batch _) fun _ => spends_batch _
  exact h.cast (by norm_num) (by norm_num)

theorem spends_ch (x y z : Word) : Spends 128 4 (ch G x y z) := by
  have h : Spends _ _ (ch G x y z) :=
    spends_bind (spends_batch _) fun _ => spends_bind (spends_batch _) fun _ => spends_bind (spends_batch _) fun _ => spends_batch _
  exact h.cast (by norm_num) (by norm_num)

theorem spends_maj (x y z : Word) : Spends 160 5 (maj G x y z) := by
  have h : Spends _ _ (maj G x y z) :=
    spends_bind (spends_batch _) fun _ => spends_bind (spends_batch _) fun _ => spends_bind (spends_batch _) fun _ =>
    spends_bind (spends_batch _) fun _ => spends_batch _
  exact h.cast (by norm_num) (by norm_num)

/-- The exact state after a failure in work that touches nothing but the draws. -/
theorem Spends.faults {C B : Nat} {α : Type} {m : Micro α} (hs : Spends C B m) {s u : State} {c : FaultCode}
    (h : m s = .error .faulted (u.takeFault c)) :
    ∃ k b, k ≤ C ∧ b ≤ B ∧ m s = .error .faulted ((s.afterCalls k b).takeFault c) := by
  obtain ⟨-, k, b, c', hk, hb, hu⟩ := (hs s).of_error h
  have hc : c = c' := by
    have := congrArg (fun t : State => t.status.fault) hu
    simpa [State.takeFault] using this
  subst hc
  exact ⟨k, b, hk, hb, by rw [h, hu]⟩

/-! The cause of a fault lies among the draws used. -/

/-- However the work ends, it has used some of the draws, the oldest first; if in `F_CTX`, a failed call was among them, and if in
`F_WORKER` a failed worker (R262, R264). -/
def Uses {α : Type} (m : Micro α) : Prop :=
  ∀ s, Post m s (fun _ t => ∃ c w, t.env.ctxDraws = s.env.ctxDraws.drop c ∧ t.env.workerDraws = s.env.workerDraws.drop w) fun e t =>
    ∃ c w, t.env.ctxDraws = s.env.ctxDraws.drop c ∧ t.env.workerDraws = s.env.workerDraws.drop w ∧
      (e = .faulted → (t.status.fault = some .fCtx → true ∈ s.env.ctxDraws.take c) ∧
        (t.status.fault = some .fWorker → true ∈ s.env.workerDraws.take w))

theorem uses_pure {α : Type} (a : α) : Uses (pure a : Micro α) := fun _ => ⟨0, 0, rfl, rfl⟩

theorem mem_take_of_drop {l : List Bool} {c k : Nat} (h : true ∈ (l.drop c).take k) : true ∈ l.take (c + k) := by
  rw [List.take_add]
  exact List.mem_append_right _ h

theorem uses_bind {α β : Type} {m : Micro α} {f : α → Micro β} (hm : Uses m) (hf : ∀ a, Uses (f a)) : Uses (m >>= f) := by
  intro s
  refine Post.bind ((hm s).mono (fun a t ht => ?_) fun e t ht => ht)
  obtain ⟨c, w, h1, h2⟩ := ht
  refine (hf a t).mono (fun _ u hu => ?_) fun e u hu => ?_
  · obtain ⟨c', w', k1, k2⟩ := hu
    exact ⟨c + c', w + w', by rw [k1, h1, List.drop_drop], by rw [k2, h2, List.drop_drop]⟩
  · obtain ⟨c', w', k1, k2, k3⟩ := hu
    rw [h1] at k1 k3
    rw [h2] at k2 k3
    refine ⟨c + c', w + w', by rw [k1, List.drop_drop], by rw [k2, List.drop_drop], fun he => ?_⟩
    exact ⟨fun h => mem_take_of_drop ((k3 he).1 h), fun h => mem_take_of_drop ((k3 he).2 h)⟩

theorem uses_forRange {lo : Nat} {body : Nat → Micro Unit} (hb : ∀ i, Uses (body i)) : ∀ n, Uses (forRange lo n body)
  | 0 => uses_pure ()
  | n + 1 => uses_bind (uses_forRange hb n) fun _ => hb _

theorem uses_collect {α : Type} : ∀ {n : Nat} {f : Fin n → Micro α}, (∀ i, Uses (f i)) → Uses (collect n f)
  | 0, _, _ => uses_pure _
  | _ + 1, _, hf => uses_bind (uses_collect fun i => hf i.castSucc) fun _ => uses_bind (hf _) fun _ => uses_pure _

theorem uses_update {f : State → State} (hf : ∀ s, (f s).env.ctxDraws = s.env.ctxDraws ∧ (f s).env.workerDraws = s.env.workerDraws) :
    Uses (update f) := fun s => ⟨0, 0, (hf s).1, (hf s).2⟩

theorem uses_read (x : State → Option Word) : Uses (readElement x) := by
  intro s
  unfold Post readElement
  cases x s with
  | none => exact ⟨0, 0, rfl, rfl, fun _ => ⟨fun h => by simp [State.takeFault] at h, fun h => by simp [State.takeFault] at h⟩⟩
  | some w => exact ⟨0, 0, rfl, rfl⟩

theorem uses_frame {α : Type} (shape : Frame → Option α) : Uses (takeFrame shape) := by
  intro s
  unfold Post takeFrame
  cases s.dinq with
  | nil => exact ⟨0, 0, rfl, rfl, fun h => by cases h⟩
  | cons f q =>
    cases h : shape f with
    | some x => simp only [h]; exact ⟨0, 0, rfl, rfl⟩
    | none =>
      simp only [h]
      exact ⟨0, 0, rfl, rfl, fun _ => ⟨fun h => by simp [State.takeFault] at h, fun h => by simp [State.takeFault] at h⟩⟩

theorem uses_triv (x : Bool) : Uses (triv G x) := by
  intro s
  by_cases h : true ∈ s.env.ctxDraws.take 1
  · simp only [Post, triv_bad h]
    exact ⟨1, 0, rfl, rfl, fun _ => ⟨fun _ => h, fun h => by simp [State.takeFault] at h⟩⟩
  · simp only [Post, triv_ok (G := G) (b := x) (s := s) ⟨not_any_take.1 h, rfl⟩]
    exact ⟨1, 0, rfl, rfl⟩

theorem uses_gate (k : GateKind) (x y : Ct) : Uses (gate G k x y) := by
  intro s
  by_cases h : true ∈ s.env.ctxDraws.take 1
  · simp only [Post, gate_bad h]
    exact ⟨1, 0, rfl, rfl, fun _ => ⟨fun _ => h, fun h => by simp [State.takeFault] at h⟩⟩
  · simp only [Post, gate_ok (G := G) (k := k) (a := x) (b := y) (s := s) ⟨not_any_take.1 h, rfl⟩]
    exact ⟨1, 0, rfl, rfl⟩

theorem uses_batch (q : BatchOp) : Uses (batch G q) := by
  intro s
  by_cases h : true ∈ s.env.ctxDraws.take 32
  · simp only [Post, batch_ctx h]
    exact ⟨32, 8, rfl, rfl, fun _ => ⟨fun _ => h, fun h => by simp [State.takeFault] at h⟩⟩
  · by_cases h' : true ∈ s.env.workerDraws.take 8
    · simp only [Post, batch_worker h h']
      exact ⟨32, 8, rfl, rfl, fun _ => ⟨fun h => by simp [State.takeFault] at h, fun _ => h'⟩⟩
    · simp only [Post, batch_ok (G := G) (q := q) (s := s) ⟨not_any_take.1 h, not_any_take.1 h'⟩]
      exact ⟨32, 8, rfl, rfl⟩

theorem uses_trivW (v : U32) : Uses (trivW G v) := uses_collect fun _ => uses_triv _

theorem uses_shR (x : Word) (n : Nat) : Uses (shR G x n) := uses_bind (uses_collect fun _ => uses_triv _) fun _ => uses_pure _

theorem uses_ssig0 (x : Word) : Uses (ssig0 G x) := uses_bind (uses_batch _) fun _ => uses_bind (uses_shR _ _) fun _ => uses_batch _

theorem uses_ssig1 (x : Word) : Uses (ssig1 G x) := uses_bind (uses_batch _) fun _ => uses_bind (uses_shR _ _) fun _ => uses_batch _

theorem uses_bsig0 (x : Word) : Uses (bsig0 G x) := uses_bind (uses_batch _) fun _ => uses_batch _

theorem uses_bsig1 (x : Word) : Uses (bsig1 G x) := uses_bind (uses_batch _) fun _ => uses_batch _

theorem uses_ch (x y z : Word) : Uses (ch G x y z) :=
  uses_bind (uses_batch _) fun _ => uses_bind (uses_batch _) fun _ => uses_bind (uses_batch _) fun _ => uses_batch _

theorem uses_maj (x y z : Word) : Uses (maj G x y z) :=
  uses_bind (uses_batch _) fun _ => uses_bind (uses_batch _) fun _ => uses_bind (uses_batch _) fun _ =>
    uses_bind (uses_batch _) fun _ => uses_batch _

theorem uses_carryFrom (p g : Word) : ∀ (m : Nat) (h : m < 32) (x : Ct), Uses (carryFrom G p g m h x)
  | 0, _, _ => uses_pure _
  | m + 1, _, _ => uses_bind (uses_update fun _ => ⟨rfl, rfl⟩) fun _ => uses_bind (uses_gate _ _ _) fun _ =>
      uses_bind (uses_gate _ _ _) fun ci => uses_bind (uses_carryFrom p g m _ ci) fun _ => uses_pure _

theorem uses_add (x y : Word) : Uses (add G x y) :=
  uses_bind (uses_batch _) fun _ => uses_bind (uses_update fun _ => ⟨rfl, rfl⟩) fun _ =>
    uses_bind (uses_batch _) fun _ => uses_bind (uses_update fun _ => ⟨rfl, rfl⟩) fun _ =>
      uses_bind (uses_triv _) fun _ => uses_bind (uses_carryFrom _ _ _ _ _) fun _ =>
        uses_bind (uses_update fun _ => ⟨rfl, rfl⟩) fun _ => uses_bind (uses_batch _) fun _ =>
          uses_bind (uses_update fun _ => ⟨rfl, rfl⟩) fun _ => uses_pure _

theorem uses_scheduleStep (i : Nat) : Uses (scheduleStep G i) := by
  unfold scheduleStep
  exact uses_bind (uses_update fun _ => ⟨rfl, rfl⟩) fun _ => uses_bind (uses_read _) fun _ => uses_bind (uses_ssig1 _) fun _ =>
    uses_bind (uses_read _) fun _ => uses_bind (uses_add _ _) fun _ => uses_bind (uses_read _) fun _ => uses_bind (uses_ssig0 _) fun _ =>
    uses_bind (uses_add _ _) fun _ => uses_bind (uses_read _) fun _ => uses_bind (uses_add _ _) fun _ => uses_update fun _ => ⟨rfl, rfl⟩

theorem uses_roundStep (i : Nat) : Uses (roundStep G i) := by
  unfold roundStep
  exact uses_bind (uses_update fun _ => ⟨rfl, rfl⟩) fun _ => uses_bind (uses_collect fun _ => uses_read _) fun _ =>
    uses_bind (uses_bsig1 _) fun _ => uses_bind (uses_add _ _) fun _ => uses_bind (uses_ch _ _ _) fun _ => uses_bind (uses_add _ _) fun _ =>
    uses_bind (uses_trivW _) fun _ => uses_bind (uses_add _ _) fun _ => uses_bind (uses_read _) fun _ => uses_bind (uses_add _ _) fun _ =>
    uses_bind (uses_update fun _ => ⟨rfl, rfl⟩) fun _ => uses_bind (uses_bsig0 _) fun _ => uses_bind (uses_maj _ _ _) fun _ =>
    uses_bind (uses_add _ _) fun _ => uses_bind (uses_update fun _ => ⟨rfl, rfl⟩) fun _ => uses_bind (uses_add _ _) fun _ =>
    uses_bind (uses_add _ _) fun _ => uses_update fun _ => ⟨rfl, rfl⟩

theorem uses_compress : Uses (compress G) := by
  have copy : ∀ i, Uses (copyBlockWord i) := fun _ => uses_bind (uses_read _) fun _ => uses_update fun _ => ⟨rfl, rfl⟩
  have load : ∀ i, Uses (loadWorking i) := fun _ => uses_bind (uses_read _) fun _ => uses_update fun _ => ⟨rfl, rfl⟩
  have word : ∀ k, Uses (feedForwardWord G k) := fun _ => uses_bind (uses_update fun _ => ⟨rfl, rfl⟩) fun _ =>
    uses_bind (uses_read _) fun _ => uses_bind (uses_read _) fun _ => uses_add _ _
  have sched : Uses (schedulePhase G) := uses_bind (uses_forRange copy 16) fun _ => uses_forRange uses_scheduleStep 48
  have rounds : Uses (roundPhase G) := uses_bind (uses_forRange load 8) fun _ => uses_forRange uses_roundStep 64
  have last : Uses (feedForwardPhase G) := uses_bind (uses_collect word) fun _ => uses_bind (uses_update fun _ => ⟨rfl, rfl⟩) fun _ =>
    uses_update fun _ => ⟨rfl, rfl⟩
  exact uses_bind (uses_collect fun _ => uses_read _) fun _ => uses_bind (uses_collect fun _ => uses_read _) fun _ =>
    uses_bind (uses_update fun _ => ⟨rfl, rfl⟩) fun _ => uses_bind sched fun _ => uses_bind (uses_update fun _ => ⟨rfl, rfl⟩) fun _ =>
    uses_bind rounds fun _ => uses_bind (uses_update fun _ => ⟨rfl, rfl⟩) fun _ => uses_bind last fun _ => uses_update fun _ => ⟨rfl, rfl⟩

theorem uses_initHash : Uses (initHash G) := uses_bind (uses_collect fun _ => uses_trivW _) fun _ => uses_update fun _ => ⟨rfl, rfl⟩

theorem uses_loadBlock : Uses loadBlock := uses_bind (uses_frame _) fun _ => uses_update fun _ => ⟨rfl, rfl⟩

theorem uses_emitDigest : Uses emitDigest := by
  have frame : ∀ w, Uses (doutWordFrame w) := fun w => uses_update (f := fun s => s.emit w) fun _ => ⟨rfl, rfl⟩
  have reads : Uses (collect 8 readHS) := uses_collect fun _ => uses_read _
  exact uses_bind reads fun _ => uses_forRange (fun _ => frame _) 8

theorem uses_hashBlocks : ∀ n, Uses (hashBlocks G n)
  | 0 => uses_pure ()
  | n + 1 => uses_bind (uses_update fun _ => ⟨rfl, rfl⟩) fun _ => uses_bind uses_loadBlock fun _ => uses_bind uses_compress fun _ =>
      uses_bind (uses_update fun _ => ⟨rfl, rfl⟩) fun _ => uses_hashBlocks n

theorem uses_hashRest : Uses (hashRest G) := by
  intro s
  have h : Uses (hashBlocks G s.seq.blkLeft.toNat >>= fun _ => update (fun s => s.setPhase .out) >>= fun _ =>
      emitDigest >>= fun _ => update fun s => s.setPhase .none) :=
    uses_bind (uses_hashBlocks _) fun _ => uses_bind (uses_update fun _ => ⟨rfl, rfl⟩) fun _ =>
      uses_bind uses_emitDigest fun _ => uses_update fun _ => ⟨rfl, rfl⟩
  have := h s
  unfold Post at this ⊢
  rwa [hashRest_run]

theorem uses_hashAll (imm : U32) : Uses (hashAll G imm) :=
  uses_bind (uses_update (f := fun s => s.setBlkLeft imm) fun _ => ⟨rfl, rfl⟩) fun _ =>
    uses_bind (uses_update (f := fun s => s.setPhase .hinit) fun _ => ⟨rfl, rfl⟩) fun _ =>
      uses_bind uses_initHash fun _ => uses_hashRest

/-- Every command's work uses draws in order, and a fault's cause lies among those used. -/
theorem exec_uses (i : Instr) (s : State) : ∃ m : Micro Unit, Uses m ∧ exec i s = runCommand m s := by
  have one {f : Word → Micro Word} {rs rd : Reg} (h : ∀ x, Uses (f x)) :
      Uses (do let x ← readR rs; let w ← f x; writeR rd w) :=
    uses_bind (uses_read _) fun _ => uses_bind (h _) fun _ => uses_update fun _ => ⟨rfl, rfl⟩
  have two {f : Word → Word → Micro Word} {rs1 rs2 rd : Reg} (h : ∀ x y, Uses (f x y)) :
      Uses (do let x ← readR rs1; let y ← readR rs2; let w ← f x y; writeR rd w) :=
    uses_bind (uses_read _) fun _ => one fun _ => h _ _
  have three {f : Word → Word → Word → Micro Word} {rs1 rs2 rs3 rd : Reg} (h : ∀ x y z, Uses (f x y z)) :
      Uses (do let x ← readR rs1; let y ← readR rs2; let z ← readR rs3; let w ← f x y z; writeR rd w) :=
    uses_bind (uses_read _) fun _ => two fun _ _ => h _ _ _
  cases i with
  | xorw rd rs1 rs2 => exact ⟨_, two fun a b => uses_batch (.xor a b), rfl⟩
  | andw rd rs1 rs2 => exact ⟨_, two fun a b => uses_batch (.and a b), rfl⟩
  | notw rd rs1 => exact ⟨_, one fun a => uses_batch (.not a), rfl⟩
  | trivw rd imm => exact ⟨_, uses_bind (uses_trivW imm) fun w => uses_update (f := fun s => s.setR rd w) fun _ => ⟨rfl, rfl⟩, rfl⟩
  | rotr rd rs1 n => exact ⟨_, uses_bind (uses_read _) fun x => uses_update (f := fun s => s.setR rd (rotR x n.toNat)) fun _ => ⟨rfl, rfl⟩, rfl⟩
  | shr rd rs1 n => exact ⟨_, one fun x => uses_shR x n.toNat, rfl⟩
  | ssig0 rd rs1 => exact ⟨_, one uses_ssig0, rfl⟩
  | ssig1 rd rs1 => exact ⟨_, one uses_ssig1, rfl⟩
  | bsig0 rd rs1 => exact ⟨_, one uses_bsig0, rfl⟩
  | bsig1 rd rs1 => exact ⟨_, one uses_bsig1, rfl⟩
  | ch rd rs1 rs2 rs3 => exact ⟨_, three uses_ch, rfl⟩
  | maj rd rs1 rs2 rs3 => exact ⟨_, three uses_maj, rfl⟩
  | add rd rs1 rs2 => exact ⟨_, two uses_add, rfl⟩
  | compress => exact ⟨_, uses_compress, rfl⟩
  | hinit => exact ⟨_, uses_initHash, rfl⟩
  | hash imm =>
    by_cases hp : s.seq.phase = .load
    · exact ⟨_, uses_hashRest, by show execHash imm s = _; rw [execHash, if_pos hp]⟩
    · exact ⟨_, uses_hashAll imm, by show execHash imm s = _; rw [execHash, if_neg hp]⟩
  | ldw rd => exact ⟨_, uses_bind (uses_frame _) fun w => uses_update (f := fun s => s.setR rd w) fun _ => ⟨rfl, rfl⟩, rfl⟩
  | stw rs1 => exact ⟨_, uses_bind (uses_read _) fun w => uses_update (f := fun s => s.emit w) fun _ => ⟨rfl, rfl⟩, rfl⟩
  | ldblk => exact ⟨_, uses_loadBlock, rfl⟩
  | rdh => exact ⟨_, uses_emitDigest, rfl⟩

/-- The draws of calls used on the way are the first ones (R15). -/
theorem ctxUsed_of_drop {s t : State} {c : Nat} (h : t.env.ctxDraws = s.env.ctxDraws.drop c) : s.ctxUsed t = s.env.ctxDraws.take c := by
  rw [State.ctxUsed, h, List.length_drop, Nat.sub_sub_eq_min, Nat.min_comm, ← List.take_eq_take_min]

/-- The draws of workers used on the way are the first ones (R15). -/
theorem workersUsed_of_drop {s t : State} {c : Nat} (h : t.env.workerDraws = s.env.workerDraws.drop c) :
    s.workersUsed t = s.env.workerDraws.take c := by
  rw [State.workersUsed, h, List.length_drop, Nat.sub_sub_eq_min, Nat.min_comm, ← List.take_eq_take_min]

end Sys2Proof.Machine
end

