-- ==== Sys2Proof/Laws/PerInstr.lean ====
section
/-!
SUPPORT. For every instruction: its command word selects the instruction's own row, which builds it back (R82, R83, R90).
-/

namespace Sys2Proof.Laws.Row

/-- The row of the operation table an instruction's command word selects builds that instruction. -/
def Statement (i : Instr) : Prop := ∃ r ∈ opTable, r.selects (encode i) = true ∧ r.build (fieldsOf (encode i)) = i

/-- A row given by its place, with the field conditions of R83. -/
theorem of_row {i : Instr} (k : Fin 20) (hs : (opTable[k.val]'(k.isLt)).selects (encode i) = true)
    (hb : (opTable[k.val]'(k.isLt)).build i.fields = i) : Statement i :=
  ⟨_, List.getElem_mem _, hs, by rw [encode, fieldsOf_ofFields]; exact hb⟩

theorem xorw (rd rs1 rs2 : Reg) : Statement (.xorw rd rs1 rs2) := by
  refine of_row 0 ((selects_iff _ _).2 ?_) ?_
  · rw [encode, fieldsOf_ofFields]
    simp [opTable, gateRows, wordRows, hashRows, transferRows, Instr.fields, fieldsOf]
  · simp [opTable, gateRows, wordRows, hashRows, transferRows, Instr.fields]

theorem andw (rd rs1 rs2 : Reg) : Statement (.andw rd rs1 rs2) := by
  refine of_row 1 ((selects_iff _ _).2 ?_) ?_
  · rw [encode, fieldsOf_ofFields]
    simp [opTable, gateRows, wordRows, hashRows, transferRows, Instr.fields, fieldsOf]
  · simp [opTable, gateRows, wordRows, hashRows, transferRows, Instr.fields]

theorem notw (rd rs1 : Reg) : Statement (.notw rd rs1) := by
  refine of_row 2 ((selects_iff _ _).2 ?_) ?_
  · rw [encode, fieldsOf_ofFields]
    simp [opTable, gateRows, wordRows, hashRows, transferRows, Instr.fields, fieldsOf]
  · simp [opTable, gateRows, wordRows, hashRows, transferRows, Instr.fields]

theorem trivw (rd : Reg) (imm : U32) : Statement (.trivw rd imm) := by
  refine of_row 3 ((selects_iff _ _).2 ?_) ?_
  · rw [encode, fieldsOf_ofFields]
    simp [opTable, gateRows, wordRows, hashRows, transferRows, Instr.fields, fieldsOf]
  · simp [opTable, gateRows, wordRows, hashRows, transferRows, Instr.fields]

theorem rotr (rd rs1 : Reg) (n : BitVec 8) : Statement (.rotr rd rs1 n) := by
  refine of_row 4 ((selects_iff _ _).2 ?_) ?_
  · rw [encode, fieldsOf_ofFields]
    simp [opTable, gateRows, wordRows, hashRows, transferRows, Instr.fields, fieldsOf]
  · simp [opTable, gateRows, wordRows, hashRows, transferRows, Instr.fields]

theorem shr (rd rs1 : Reg) (n : BitVec 8) : Statement (.shr rd rs1 n) := by
  refine of_row 5 ((selects_iff _ _).2 ?_) ?_
  · rw [encode, fieldsOf_ofFields]
    simp [opTable, gateRows, wordRows, hashRows, transferRows, Instr.fields, fieldsOf]
  · simp [opTable, gateRows, wordRows, hashRows, transferRows, Instr.fields]

theorem ssig0 (rd rs1 : Reg) : Statement (.ssig0 rd rs1) := by
  refine of_row 6 ((selects_iff _ _).2 ?_) ?_
  · rw [encode, fieldsOf_ofFields]
    simp [opTable, gateRows, wordRows, hashRows, transferRows, Instr.fields, fieldsOf]
  · simp [opTable, gateRows, wordRows, hashRows, transferRows, Instr.fields]

theorem ssig1 (rd rs1 : Reg) : Statement (.ssig1 rd rs1) := by
  refine of_row 7 ((selects_iff _ _).2 ?_) ?_
  · rw [encode, fieldsOf_ofFields]
    simp [opTable, gateRows, wordRows, hashRows, transferRows, Instr.fields, fieldsOf]
  · simp [opTable, gateRows, wordRows, hashRows, transferRows, Instr.fields]

theorem bsig0 (rd rs1 : Reg) : Statement (.bsig0 rd rs1) := by
  refine of_row 8 ((selects_iff _ _).2 ?_) ?_
  · rw [encode, fieldsOf_ofFields]
    simp [opTable, gateRows, wordRows, hashRows, transferRows, Instr.fields, fieldsOf]
  · simp [opTable, gateRows, wordRows, hashRows, transferRows, Instr.fields]

theorem bsig1 (rd rs1 : Reg) : Statement (.bsig1 rd rs1) := by
  refine of_row 9 ((selects_iff _ _).2 ?_) ?_
  · rw [encode, fieldsOf_ofFields]
    simp [opTable, gateRows, wordRows, hashRows, transferRows, Instr.fields, fieldsOf]
  · simp [opTable, gateRows, wordRows, hashRows, transferRows, Instr.fields]

theorem ch (rd rs1 rs2 rs3 : Reg) : Statement (.ch rd rs1 rs2 rs3) := by
  refine of_row 10 ((selects_iff _ _).2 ?_) ?_
  · rw [encode, fieldsOf_ofFields]
    simp [opTable, gateRows, wordRows, hashRows, transferRows, Instr.fields, fieldsOf]
  · simp [opTable, gateRows, wordRows, hashRows, transferRows, Instr.fields]

theorem maj (rd rs1 rs2 rs3 : Reg) : Statement (.maj rd rs1 rs2 rs3) := by
  refine of_row 11 ((selects_iff _ _).2 ?_) ?_
  · rw [encode, fieldsOf_ofFields]
    simp [opTable, gateRows, wordRows, hashRows, transferRows, Instr.fields, fieldsOf]
  · simp [opTable, gateRows, wordRows, hashRows, transferRows, Instr.fields]

theorem add (rd rs1 rs2 : Reg) : Statement (.add rd rs1 rs2) := by
  refine of_row 12 ((selects_iff _ _).2 ?_) ?_
  · rw [encode, fieldsOf_ofFields]
    simp [opTable, gateRows, wordRows, hashRows, transferRows, Instr.fields, fieldsOf]
  · simp [opTable, gateRows, wordRows, hashRows, transferRows, Instr.fields]

theorem compress : Statement (.compress) := by
  refine of_row 13 ((selects_iff _ _).2 ?_) ?_
  · rw [encode, fieldsOf_ofFields]
    simp [opTable, gateRows, wordRows, hashRows, transferRows, Instr.fields, fieldsOf]
  · simp [opTable, gateRows, wordRows, hashRows, transferRows, Instr.fields]

theorem hinit : Statement (.hinit) := by
  refine of_row 14 ((selects_iff _ _).2 ?_) ?_
  · rw [encode, fieldsOf_ofFields]
    simp [opTable, gateRows, wordRows, hashRows, transferRows, Instr.fields, fieldsOf]
  · simp [opTable, gateRows, wordRows, hashRows, transferRows, Instr.fields]

theorem hash (imm : U32) : Statement (.hash imm) := by
  refine of_row 15 ((selects_iff _ _).2 ?_) ?_
  · rw [encode, fieldsOf_ofFields]
    simp [opTable, gateRows, wordRows, hashRows, transferRows, Instr.fields, fieldsOf]
  · simp [opTable, gateRows, wordRows, hashRows, transferRows, Instr.fields]

theorem ldw (rd : Reg) : Statement (.ldw rd) := by
  refine of_row 16 ((selects_iff _ _).2 ?_) ?_
  · rw [encode, fieldsOf_ofFields]
    simp [opTable, gateRows, wordRows, hashRows, transferRows, Instr.fields, fieldsOf]
  · simp [opTable, gateRows, wordRows, hashRows, transferRows, Instr.fields]

theorem stw (rs1 : Reg) : Statement (.stw rs1) := by
  refine of_row 17 ((selects_iff _ _).2 ?_) ?_
  · rw [encode, fieldsOf_ofFields]
    simp [opTable, gateRows, wordRows, hashRows, transferRows, Instr.fields, fieldsOf]
  · simp [opTable, gateRows, wordRows, hashRows, transferRows, Instr.fields]

theorem ldblk : Statement (.ldblk) := by
  refine of_row 18 ((selects_iff _ _).2 ?_) ?_
  · rw [encode, fieldsOf_ofFields]
    simp [opTable, gateRows, wordRows, hashRows, transferRows, Instr.fields, fieldsOf]
  · simp [opTable, gateRows, wordRows, hashRows, transferRows, Instr.fields]

theorem rdh : Statement (.rdh) := by
  refine of_row 19 ((selects_iff _ _).2 ?_) ?_
  · rw [encode, fieldsOf_ofFields]
    simp [opTable, gateRows, wordRows, hashRows, transferRows, Instr.fields, fieldsOf]
  · simp [opTable, gateRows, wordRows, hashRows, transferRows, Instr.fields]

end Sys2Proof.Laws.Row
end

