-- ==== Sys2Proof/Tests/Slice0.lean ====
section
/-!
SUPPORT. The model's own tests. Expected results come from 95_test_vectors.md (and, for the digest, 96); words are
written out from the formats of R81, R82 and R90. Then a witness for the hypotheses of each obligation that has any.
Ciphertexts are opaque, so a test on values speaks of every key that fits and of words whose plain values are the vector's.
-/

namespace Sys2Proof.Tests

open Sys2Proof.Machine

-- One theorem at a time: their evaluations side by side would need too many threads.
set_option Elab.async false

/-! Helpers. -/

/-- The next state of an outcome. -/
def nextOf (o : Host.Outcome State Fault Refusal) : Option State :=
  match o with
  | .next t => some t
  | .fault _ => none
  | .refused _ => none

/-- A word that spells a plain value: trivial encryptions of its digits. -/
def wordOf (v : U32) : Word := Vector.ofFn fun i => Config.G.triv (bitOf v i)

/-- The word spells it under every key. -/
theorem val_wordOf (v : U32) : ∀ dec, Config.G.Fits dec → val dec (wordOf v) = v :=
  fun _ h => val_triv h fun i => by simp only [wordOf, Fin.getElem_fin, Vector.getElem_ofFn]

/-- A micro-step, run with no failure to come, ends with a word of this plain value under every key. -/
def Yields (m : Micro Word) (v : U32) : Prop :=
  ∀ dec, Config.G.Fits dec → ∃ w s, m State.reset = .ok w s ∧ val dec w = v

theorem reset_noFailure (calls batches : Nat) : State.reset.NoFailure calls batches := by
  simp [State.NoFailure, State.reset, Env.silent]

/-- A state in which every register holds a word and the host has one act to do. -/
def loaded : State := { State.reset with r := Vector.replicate 16 (some (wordOf 0x6a09e667)) }

/-- The same with the words of `HS` and `BLK` there too. -/
def ready : State := (loaded.setHS (Vector.replicate 8 (wordOf 1))).setBLK (Vector.replicate 16 (wordOf 2))

/-- The word in execution. -/
def busy (s : State) (i : Instr) : State := s.accept (encode i)

/-- The same state with these draws. -/
def State.draws (s : State) (ctx workers : List Bool) : State :=
  { s with env := { s.env with ctxDraws := ctx, workerDraws := workers } }

/-- The same state with these frames waiting. -/
def State.frames (s : State) (q : List Frame) : State := { s with dinq := q }

/-- A word frame of n cells. -/
def wordFrame (n : Nat) : Frame := .word (List.replicate n (Config.G.triv true))

/-- A block of 16 words and its frame. -/
def block : Vector Word 16 := Vector.replicate 16 (wordOf 0x80000000)

def blockFrame : Frame := .block (block.toList.map Vector.toList)

/-! WellFormed: its one check refuses. -/

theorem test_shr_33_ill_formed : (Instr.shr 2 1 33).wellFormed = false := by decide
theorem test_shr_32_well_formed : (Instr.shr 2 1 32).wellFormed = true := by decide

/-! Decoding (95 section 2.1). -/

theorem test_decode_gate :
    decode 0x1031200000000000 = some (.xorw 3 1 2) ∧ decode 0x1131200000000000 = some (.andw 3 1 2) ∧
    decode 0x10FFF00000000000 = some (.xorw 15 15 15) ∧ decode 0x1221000000000000 = some (.notw 2 1) ∧
    decode 0x13F00000FFFFFFFF = some (.trivw 15 0xFFFFFFFF) := by decide

theorem test_decode_word_amounts :
    decode 0x2021000700000000 = some (.rotr 2 1 7) ∧ decode 0x20FF00FF00000000 = some (.rotr 15 15 255) ∧
    decode 0x2121000300000000 = some (.shr 2 1 3) ∧ decode 0x2121002000000000 = some (.shr 2 1 32) := by decide

theorem test_decode_word_functions :
    decode 0x2221000000000000 = some (.ssig0 2 1) ∧ decode 0x2321000000000000 = some (.ssig1 2 1) ∧
    decode 0x2421000000000000 = some (.bsig0 2 1) ∧ decode 0x2521000000000000 = some (.bsig1 2 1) ∧
    decode 0x2641230000000000 = some (.ch 4 1 2 3) ∧ decode 0x2741230000000000 = some (.maj 4 1 2 3) := by decide

theorem test_decode_hash :
    decode 0x3031200000000000 = some (.add 3 1 2) ∧ decode 0x4000000000000000 = some .compress ∧
    decode 0x5000000000000000 = some .hinit ∧ decode 0x51000000FFFFFFFF = some (.hash 0xFFFFFFFF) := by decide

theorem test_decode_transfer :
    decode 0x6010000000000000 = some (.ldw 1) ∧ decode 0x6103000000000000 = some (.stw 3) ∧
    decode 0x6200000000000000 = some .ldblk ∧ decode 0x6300000000000000 = some .rdh := by decide

/-- Unknown opcodes, at both ends of the gaps of the map. -/
theorem test_illegal_opcodes :
    [0x0000000000000000, 0x0F00000000000000, 0x1400000000000000, 0x1F00000000000000, 0x2800000000000000].map decode ++
    [0x2F00000000000000, 0x3100000000000000, 0x3F00000000000000, 0x4100000000000000, 0x4F00000000000000].map decode ++
    [0x5200000000000000, 0x5F00000000000000, 0x6400000000000000, 0xFFFFFFFFFFFFFFFF].map decode =
    List.replicate 14 none := by decide

/-- Dead fields that are not zero, in each format. -/
theorem test_illegal_dead_fields :
    [0x1031200000000001, 0x1031210000000000, 0x1031200100000000, 0x1221300000000000, 0x1311000000000000].map decode ++
    [0x1310000100000000, 0x2021300700000000, 0x2021000700000001, 0x2641230100000000, 0x4000000000000001].map decode ++
    [0x5010000000000000, 0x5100000100000000, 0x5101000000000000, 0x6011000000000000, 0x6110000000000000].map decode ++
    [0x6300000000000001, 0x2121002100000000, 0x212100FF00000000].map decode = List.replicate 18 none := by decide

/-- R56: stored most significant byte first. -/
theorem test_stored_bytes :
    decodeBytes [0x30, 0x31, 0x20, 0, 0, 0, 0, 0] = some (.add 3 1 2) ∧
    decodeBytes [0x13, 0x10, 0, 0, 0x6a, 0x09, 0xe6, 0x67] = some (.trivw 1 0x6a09e667) ∧
    decodeBytes [0x30, 0x31, 0x20] = none := by decide

theorem test_text : (Instr.rotr 2 1 7).text = "ROTR r2, r1, 7" ∧ (Instr.stw 3).text = "STW r3" := by decide

/-- What the host asks: the table's numbering of a word, and the first step after reset. -/
theorem test_table_word :
    decodeTableWord 64 0x2741230000000000 = some (.maj 4 1 2 3) ∧ decodeTableWord 64 0 = none := by decide

theorem test_first_step_runs_the_word :
    (nextOf (step (State.reset.withFetchWord 64 0x1031200000000000))).map State.statusPort =
      some (0x22, 0x1031200000000000, 0x00200408) := by decide

/-! GateEngine (95 section 2.2). -/

theorem test_batches :
    Yields (batch Config.G (.xor (wordOf 0x0f0f0f0f) (wordOf 0x00ff00ff))) 0x0ff00ff0 ∧
    Yields (batch Config.G (.and (wordOf 0x0f0f0f0f) (wordOf 0x00ff00ff))) 0x000f000f ∧
    Yields (batch Config.G (.not (wordOf 0x0f0f0f0f))) 0xf0f0f0f0 := by
  refine ⟨fun dec h => ?_, fun dec h => ?_, fun dec h => ?_⟩
  · obtain ⟨w, hw, hr⟩ := batch_xor_ok h (reset_noFailure 32 1) (wordOf 0x0f0f0f0f) (wordOf 0x00ff00ff)
    exact ⟨w, _, hr, by rw [hw, val_wordOf _ dec h, val_wordOf _ dec h]; decide⟩
  · obtain ⟨w, hw, hr⟩ := batch_and_ok h (reset_noFailure 32 1) (wordOf 0x0f0f0f0f) (wordOf 0x00ff00ff)
    exact ⟨w, _, hr, by rw [hw, val_wordOf _ dec h, val_wordOf _ dec h]; decide⟩
  · obtain ⟨w, hw, hr⟩ := batch_not_ok h (reset_noFailure 32 1) (wordOf 0x0f0f0f0f)
    exact ⟨w, _, hr, by rw [hw, val_wordOf _ dec h]; decide⟩

/-- G10: a failed call; a failed worker; both. -/
theorem test_xorw_failed_call :
    (nextOf (exec (.xorw 3 1 2) (busy (State.draws loaded [false, false, false, false, false, true] []) (.xorw 3 1 2)))).map
      State.statusPort = some (0x12, 0x1031200000000000, 0x00200408) := by decide +kernel

theorem test_xorw_both_failures :
    (nextOf (exec (.xorw 3 1 2) (busy (State.draws loaded [true] [false, false, true]) (.xorw 3 1 2)))).map
      (fun t => t.status.fault) = some (some .fCtx) := by decide +kernel

theorem test_andw_failed_worker :
    (nextOf (exec (.andw 3 1 2) (busy (State.draws loaded [] [false, false, true]) (.andw 3 1 2)))).map
      State.statusPort = some (0x32, 0x1131200000000000, 0x00200408) := by decide +kernel

theorem test_notw_empty_source :
    (nextOf (exec (.notw 2 1) (busy State.reset (.notw 2 1)))).map State.statusPort =
      some (0x22, 0x1221000000000000, 0x00200408) := by decide +kernel

/-- G10 (d): the seventh call fails; six draws and the seventh are gone. -/
theorem test_trivw_seventh_call_fails :
    (nextOf (exec (.trivw 1 5) (busy (State.draws State.reset (List.replicate 6 false ++ [true, true]) []) (.trivw 1 5)))).map
      (fun t => (t.statusPort.1, t.fcmd, t.env.ctxDraws)) = some (0x12, 0x1310000000000005, [true]) := by decide +kernel

theorem test_trivial_word : Yields (trivW Config.G 0x80000001) 0x80000001 := by
  intro dec h
  obtain ⟨w, hw, hr⟩ := trivW_ok (G := Config.G) (reset_noFailure 32 0) 0x80000001
  exact ⟨w, _, hr, val_triv h hw⟩

/-! WordOps (95 section 2.3). -/

theorem test_rotr_cells :
    ∃ w, (nextOf (exec (.rotr 2 1 39) (busy loaded (.rotr 2 1 39)))).map (fun t => t.r[2]) = some (some w) ∧
      ∀ dec, Config.G.Fits dec → val dec w = 0xced413cc :=
  ⟨rotR (wordOf 0x6a09e667) 39, rfl, fun dec h => by rw [val_rotR, val_wordOf _ dec h]; decide⟩

theorem test_rotr_255 :
    ∃ w, (nextOf (exec (.rotr 1 1 255) (busy loaded (.rotr 1 1 255)))).map (fun t => t.r[1]) = some (some w) ∧
      ∀ dec, Config.G.Fits dec → val dec w = 0xd413ccce :=
  ⟨rotR (wordOf 0x6a09e667) 255, rfl, fun dec h => by rw [val_rotR, val_wordOf _ dec h]; decide⟩

theorem test_shr_values :
    Yields (shR Config.G (wordOf 0x6a09e667) 3) 0x0d413ccc ∧ Yields (shR Config.G (wordOf 0xffffffff) 31) 1 ∧
    Yields (shR Config.G (wordOf 0xffffffff) 32) 0 := by
  have run (n : Nat) (hn : n ≤ 32) (v : U32) : Yields (shR Config.G (wordOf v) n) (v >>> n) := fun dec h => by
    obtain ⟨w, hw, -, hr⟩ := shR_ok h hn (reset_noFailure n 0) (wordOf v)
    exact ⟨w, _, hr, by rw [hw, val_wordOf _ dec h]⟩
  exact ⟨run 3 (by decide) 0x6a09e667, run 31 (by decide) 0xffffffff, run 32 (by decide) 0xffffffff⟩

/-- X5: by 32 the source is checked all the same. -/
theorem test_shr_32_empty_source :
    (nextOf (exec (.shr 2 1 32) (busy State.reset (.shr 2 1 32)))).map State.statusPort =
      some (0x22, 0x2121002000000000, 0x00200408) := by decide +kernel

theorem test_small_sigmas :
    Yields (ssig0 Config.G (wordOf 0x6a09e667)) 0xba0cf582 ∧ Yields (ssig1 Config.G (wordOf 0x6a09e667)) 0xcfe5da3c := by
  refine ⟨fun dec h => ?_, fun dec h => ?_⟩
  · obtain ⟨w, hw, hr⟩ := ssig0_ok h (reset_noFailure 67 2) (wordOf 0x6a09e667)
    exact ⟨w, _, hr, by rw [hw, val_wordOf _ dec h]; decide⟩
  · obtain ⟨w, hw, hr⟩ := ssig1_ok h (reset_noFailure 74 2) (wordOf 0x6a09e667)
    exact ⟨w, _, hr, by rw [hw, val_wordOf _ dec h]; decide⟩

theorem test_big_sigmas :
    Yields (bsig0 Config.G (wordOf 0x6a09e667)) 0xce20b47e ∧ Yields (bsig1 Config.G (wordOf 0x510e527f)) 0x3587272b := by
  refine ⟨fun dec h => ?_, fun dec h => ?_⟩
  · obtain ⟨w, hw, hr⟩ := bsig0_ok h (reset_noFailure 64 2) (wordOf 0x6a09e667)
    exact ⟨w, _, hr, by rw [hw, val_wordOf _ dec h]; decide⟩
  · obtain ⟨w, hw, hr⟩ := bsig1_ok h (reset_noFailure 64 2) (wordOf 0x510e527f)
    exact ⟨w, _, hr, by rw [hw, val_wordOf _ dec h]; decide⟩

theorem test_ch_truth_table :
    Yields (ch Config.G (wordOf 0xf0f0f0f0) (wordOf 0xcccccccc) (wordOf 0xaaaaaaaa)) 0xcacacaca := by
  intro dec h
  obtain ⟨w, hw, hr⟩ := ch_ok h (reset_noFailure 128 4) (wordOf 0xf0f0f0f0) (wordOf 0xcccccccc) (wordOf 0xaaaaaaaa)
  exact ⟨w, _, hr, by rw [hw, val_wordOf _ dec h, val_wordOf _ dec h, val_wordOf _ dec h]; decide⟩

theorem test_maj_truth_table :
    Yields (maj Config.G (wordOf 0xf0f0f0f0) (wordOf 0xcccccccc) (wordOf 0xaaaaaaaa)) 0xe8e8e8e8 := by
  intro dec h
  obtain ⟨w, hw, hr⟩ := maj_ok h (reset_noFailure 160 5) (wordOf 0xf0f0f0f0) (wordOf 0xcccccccc) (wordOf 0xaaaaaaaa)
  exact ⟨w, _, hr, by rw [hw, val_wordOf _ dec h, val_wordOf _ dec h, val_wordOf _ dec h]; decide⟩

/-- R333: the first step with a failure decides, here a worker of the first batch before a call of the second. -/
theorem test_ssig0_first_failure :
    (nextOf (exec (.ssig0 2 1) (busy (State.draws loaded (List.replicate 36 false ++ [true]) [false, true]) (.ssig0 2 1)))).map
      State.statusPort = some (0x32, 0x2221000000000000, 0x00200408) := by decide +kernel

/-! Adder (95 section 2.4). -/

theorem test_add_value : Yields (add Config.G (wordOf 0x12345678) (wordOf 0x9abcdef0)) 0xacf13568 := by
  intro dec h
  obtain ⟨w, hw, hr⟩ := add_ok h (reset_noFailure 159 3) (wordOf 0x12345678) (wordOf 0x9abcdef0)
  exact ⟨w, _, hr, by rw [hw, val_wordOf _ dec h, val_wordOf _ dec h]; decide⟩

/-- X6 for the ADD alone: the 66th call fails, the first gate of the carry chain. -/
theorem test_add_66th_call_fails :
    (nextOf (exec (.add 3 1 2) (busy (State.draws loaded (List.replicate 65 false ++ [true, true]) []) (.add 3 1 2)))).map
      (fun t => (t.statusPort.1, t.fcmd, t.env.ctxDraws)) = some (0x12, 0x3031200000000000, [true]) := by decide +kernel

/-! Compressor and HashDriver (95 sections 2.5, 2.6; 96). -/

theorem test_compress_after_reset :
    (nextOf (exec .compress (busy State.reset .compress))).map State.statusPort =
      some (0x22, 0x4000000000000000, 0x00200408) := by decide +kernel

/-- V3: the block of "abc" on the initial value. -/
theorem test_plain_compress_abc :
    Plain.compress Plain.iv #v[0x61626380, 0, 0, 0, 0, 0, 0, 0, 0, 0, 0, 0, 0, 0, 0, 0x18] =
      #v[0xba7816bf, 0x8f01cfea, 0x414140de, 0x5dae2223, 0xb00361a3, 0x96177a9c, 0xb410ff61, 0xf20015ad] := by
  decide +kernel

/-- The padding of "abc" is one block, with these first and last words. -/
theorem test_plain_padding :
    let bits := Plain.pad (Plain.bitsOfBytes [0x61, 0x62, 0x63])
    bits.length = 512 ∧ Plain.wordAt bits 0 = 0x61626380 ∧ Plain.wordAt bits 15 = 0x18 := by decide +kernel

theorem test_hinit_last_call_fails :
    (nextOf (exec .hinit (busy (State.draws State.reset (List.replicate 255 false ++ [true]) []) .hinit))).map
      (fun t => (t.statusPort.1, t.fcmd, t.hs)) = some (0x12, 0x5000000000000000, State.reset.hs) := by decide +kernel

/-- HASH 1 with no frame waits in phase LOAD, BUSY, one block left. -/
theorem test_hash_waits :
    (nextOf (exec (.hash 1) (busy State.reset (.hash 1)))).map (fun t => (t.statusPort, t.seq.phase, t.seq.blkLeft)) =
      some ((1, 0, 0x00200408), .load, 1) := by decide +kernel

/-- HASH 2 with a block frame of 15 words: rejected when it is taken. -/
theorem test_hash_short_block :
    (nextOf (exec (.hash 2) (busy (State.frames State.reset [.block (List.replicate 15 (List.replicate 32 (Config.G.triv false)))])
      (.hash 2)))).map (fun t => (t.statusPort, t.dinq)) = some ((0x22, 0x5100000000000002, 0x00200408), []) := by
  decide +kernel

/-! Transfers (95 section 2.7). -/

/-- T1: cell i of the register is cell i of the frame. -/
theorem test_ldw :
    (nextOf (exec (.ldw 1) (busy (State.frames State.reset [.word (wordOf 0x6a09e667).toList]) (.ldw 1)))).map
      (fun t => (t.r[1], t.dinq)) = some (some (wordOf 0x6a09e667), []) := rfl

/-- T7 to T10: 31 cells, 33 cells, no cell, a block frame. -/
theorem test_ldw_bad_frames :
    ∀ f ∈ [wordFrame 31, wordFrame 33, wordFrame 0, blockFrame],
      (nextOf (exec (.ldw 1) (busy (State.frames State.reset [f]) (.ldw 1)))).map
        (fun t => (t.statusPort.1, t.fcmd, t.dinq, t.r[1])) = some (0x22, 0x6010000000000000, [], none) := by decide +kernel

theorem test_stw :
    (nextOf (exec (.stw 3) (busy loaded (.stw 3)))).map (fun t => t.env.dout) = some [wordOf 0x6a09e667] := rfl

/-- T14. -/
theorem test_stw_after_reset :
    (nextOf (exec (.stw 0) (busy State.reset (.stw 0)))).map (fun t => (t.statusPort.1, t.env.dout)) = some (0x22, []) := by
  decide +kernel

/-- T11 to T13: a word frame, 17 words, a ninth word of 31 cells. -/
theorem test_ldblk_bad_frames :
    ∀ f ∈ [wordFrame 32, .block (List.replicate 17 (List.replicate 32 (Config.G.triv false))),
      .block (List.replicate 8 (List.replicate 32 (Config.G.triv false)) ++ [List.replicate 31 (Config.G.triv false)] ++
        List.replicate 7 (List.replicate 32 (Config.G.triv false)))],
      (nextOf (exec .ldblk (busy (State.frames State.reset [f]) .ldblk))).map (fun t => (t.statusPort.1, t.fcmd, t.blk)) =
        some (0x22, 0x6200000000000000, State.reset.blk) := by decide +kernel

theorem test_ldblk :
    (nextOf (exec .ldblk (busy (State.frames State.reset [blockFrame]) .ldblk))).map (fun t => t.blk) =
      some (filled block) := rfl

/-- T15, and the frames of a hash state in index order. -/
theorem test_rdh_after_reset :
    (nextOf (exec .rdh (busy State.reset .rdh))).map (fun t => (t.statusPort, t.env.dout)) =
      some ((0x22, 0x6300000000000000, 0x00200408), []) := by decide +kernel

theorem test_rdh_order :
    (nextOf (exec .rdh (busy (State.reset.setHS (Vector.ofFn fun k => wordOf (BitVec.ofNat 32 k))) .rdh))).map
      (fun t => t.env.dout) = some [wordOf 0, wordOf 1, wordOf 2, wordOf 3, wordOf 4, wordOf 5, wordOf 6, wordOf 7] := rfl

/-! The sequencer (95 section 2.8). -/

/-- X3, X4: an illegal word is told before its `empty` source. -/
theorem test_illegal_before_shape :
    [0x1031200000000001, 0x2121002100000000].map (fun w => (nextOf (step (State.reset.withFetchWord 64 w))).map State.statusPort) =
      [some (0x42, 0x1031200000000001, 0x00200408), some (0x42, 0x2121002100000000, 0x00200408)] := by decide +kernel

/-- T6: LDW with nothing offered is BUSY, no fault. -/
theorem test_ldw_waits :
    (nextOf (step (State.reset.withFetchWord 64 0x6010000000000000))).map State.statusPort = some (1, 0, 0x00200408) := by
  decide +kernel

/-! Witnesses: for each obligation with hypotheses, a concrete state and operands that meet them together. -/

/-- The machine idle, with these acts of the host to come. -/
def hostDoes (es : List HostEvent) : State := State.reset.setHost es

/-- A machine in FATAL, with these acts of the host to come. -/
def fatalWith (es : List HostEvent) : State := ((busy State.reset .rdh).takeFault .fShape).setHost es

/-- LDW r1 waiting for its frame, with these acts of the host to come. -/
def waiting (es : List HostEvent) : State := (busy State.reset (.ldw 1)).setHost es

theorem noFailure_silent (s : State) (h : s.env = Env.silent) (calls batches : Nat) : s.NoFailure calls batches := by
  simp [State.NoFailure, h, Env.silent]

theorem witness_ResetEventEffect :
    (hostDoes [.reset]).env.host = .reset :: [] ∧ ((hostDoes [.reset]).status.state = .busy → (hostDoes [.reset]).dinq = []) ∧
    (waiting [.reset]).env.host = .reset :: [] ∧ (waiting [.reset]).dinq = [] ∧
    ∃ m, (waiting [.resetDuring ⟨0, 3, 0⟩]).env.host = .resetDuring m :: [] := ⟨rfl, fun _ => rfl, rfl, rfl, _, rfl⟩

/-- A STW cut short after its frame, a LDW that goes on, and a XORW of 32 calls cut short after five of them. -/
theorem witness_ResetAbandonsCommand :
    let s := loaded.setHost [.command (encode (.stw 3)), .resetDuring ⟨1, 0, 0⟩]
    let c := State.frames (waiting [.resetDuring ⟨0, 0, 0⟩]) [wordFrame 32]
    let x := (State.draws loaded (List.replicate 40 false) []).setHost [.command (encode (.xorw 3 1 2)), .resetDuring ⟨0, 5, 0⟩]
    (decode (encode (.stw 3)) = some (.stw 3) ∧ s.status.state = .idle ∧
      s.env.host = .command (encode (.stw 3)) :: .resetDuring ⟨1, 0, 0⟩ :: [] ∧
      exec (.stw 3) ((s.setHost [.resetDuring ⟨1, 0, 0⟩]).accept (encode (.stw 3))) =
        .next ((((s.setHost [.resetDuring ⟨1, 0, 0⟩]).accept (encode (.stw 3))).emit (wordOf 0x6a09e667)).complete)) ∧
    (decode c.seq.cmd = some (.ldw 1) ∧ c.status.state = .busy ∧ c.dinq ≠ [] ∧ c.env.host = .resetDuring ⟨0, 0, 0⟩ :: [] ∧
      ∃ u, exec (.ldw 1) c = .next u) ∧
    (decode (encode (.xorw 3 1 2)) = some (.xorw 3 1 2) ∧ x.status.state = .idle ∧
      ∃ u, exec (.xorw 3 1 2) ((x.setHost [.resetDuring ⟨0, 5, 0⟩]).accept (encode (.xorw 3 1 2))) = .next u) := by
  refine ⟨⟨by decide, rfl, rfl, rfl⟩, ⟨by decide, rfl, List.cons_ne_nil _ _, rfl, _, rfl⟩, by decide, rfl, _, rfl⟩

/-- R302: five of XORW's calls are not made again after the reset; the draws that follow meet the next command. -/
theorem test_reset_gives_no_draw_back :
    (nextOf (step ((State.draws loaded (List.replicate 5 false ++ [true]) []).setHost
      [.command (encode (.xorw 3 1 2)), .resetDuring ⟨0, 5, 0⟩]))).map (fun t => (t.statusPort.1, t.env.ctxDraws)) =
      some (0, [true]) := by decide +kernel

/-- An illegal word with a reset striking it, from IDLE and as the word held in BUSY. -/
theorem witness_ResetAbandonsCommand_illegal :
    let s := hostDoes [.command 0, .resetDuring ⟨2, 0, 0⟩]
    let c := State.frames ((State.reset.accept 0).setHost [.resetDuring ⟨2, 0, 0⟩]) [wordFrame 32]
    decode 0 = none ∧ (s.status.state = .idle ∧ s.env.host = .command 0 :: .resetDuring ⟨2, 0, 0⟩ :: []) ∧
    c.status.state = .busy ∧ c.seq.cmd = 0 ∧ c.dinq ≠ [] ∧ c.env.host = .resetDuring ⟨2, 0, 0⟩ :: [] :=
  ⟨by decide, ⟨rfl, rfl⟩, rfl, rfl, List.cons_ne_nil _ _, rfl⟩

theorem witness_StepRunsAcceptedCommand :
    let s := hostDoes [.command 0x6300000000000000, .reset]
    s.status.state = .idle ∧ s.env.host = .command 0x6300000000000000 :: [.reset] ∧
    (∀ e ∈ [HostEvent.reset].head?, e.strikes = false) ∧ decode 0x6300000000000000 = some .rdh := by decide

theorem witness_OfferedWordRuns : (Instr.shr 15 0 32).wellFormed = true ∧ (Instr.hash 0xFFFFFFFF).wellFormed = true := by decide

theorem witness_IllegalWordFaults :
    let s := hostDoes [.command 0x0F00000000000000]
    s.status.state = .idle ∧ s.env.host = .command 0x0F00000000000000 :: [] ∧
    (∀ e ∈ ([] : List HostEvent).head?, e.strikes = false) ∧ decode 0x0F00000000000000 = none := by decide

theorem witness_HeldCommandResumes :
    let s := State.frames (waiting []) [wordFrame 32]
    (s.status.state = .busy ∧ decode s.seq.cmd = some (.ldw 1) ∧ s.dinq ≠ [] ∧ (∀ e ∈ s.env.host.head?, e.strikes = false)) ∧
    (waiting []).status.state = .busy ∧ (waiting []).dinq = [] ∧ (waiting []).env.host = [] := by decide +kernel

/-- In IDLE, in FATAL and in a wait. -/
theorem witness_FramesWaitInOrder :
    let act := HostEvent.frame (wordFrame 32)
    ∀ s ∈ [hostDoes [act], fatalWith [act], waiting [act]],
      s.env.host = .frame (wordFrame 32) :: [] ∧ (s.status.state = .busy → s.dinq = []) := by
  intro act s hs
  simp only [List.mem_cons, List.not_mem_nil, or_false] at hs
  rcases hs with rfl | rfl | rfl <;> exact ⟨rfl, fun _ => rfl⟩

theorem witness_CommandNotAccepted :
    ((fatalWith [.command 0]).env.host = .command 0 :: [] ∧ (fatalWith [.command 0]).status.state = .fatal) ∧
    (waiting [.command 0]).env.host = .command 0 :: [] ∧ (waiting [.command 0]).status.state = .busy ∧
      (waiting [.command 0]).dinq = [] := by decide +kernel

/-- IDLE after reset, FATAL, and a wait meet the invariant. -/
theorem witness_invariant : State.reset.Inv ∧ (fatalWith []).Inv ∧ (waiting []).Inv := by
  refine ⟨⟨by decide, by decide, by decide, by decide, ?_, .inl (by decide), .inl (by decide)⟩,
    ⟨by decide, by decide, by decide, by decide, ?_, .inl (by decide), .inl (by decide)⟩,
    ⟨by decide, by decide, by decide, by decide, fun _ => .inl ⟨1, by decide, by decide⟩, .inl (by decide), .inl (by decide)⟩⟩
  · exact fun h => absurd h (by decide)
  · exact fun h => absurd h (by decide)

theorem witness_StatusWordFields : State.reset.Inv ∧ (fatalWith []).Inv ∧ (waiting []).Inv := witness_invariant

theorem witness_StepKeepsInvariant : (waiting []).Inv ∧ step (waiting []) = .next (waiting []) := ⟨witness_invariant.2.2, rfl⟩

theorem witness_FcmdRecordsWord :
    State.reset.Inv ∧ State.reset.status.fault = none ∧
    (∃ t, step (hostDoes [.command 0]) = .next t ∧ (hostDoes [.command 0]).status.state ≠ .fatal ∧ t.status.state = .fatal) ∧
    (∃ t, step (State.frames (waiting []) [wordFrame 31]) = .next t ∧ t.status.state = .fatal) ∧
    (∃ t, step (fatalWith [.command 0]) = .next t ∧ t.status.state = .fatal) ∧
    (∃ t, step (fatalWith [.reset]) = .next t ∧ t.status.state = .idle) := by
  refine ⟨witness_invariant.1, rfl, ⟨_, rfl, by decide, by decide⟩, ⟨_, rfl, by decide⟩, ⟨_, rfl, rfl⟩, ⟨_, rfl, rfl⟩⟩

/-- A command word, and a reset, in FATAL. -/
theorem witness_FatalLeftOnlyByReset :
    (fatalWith [.command 0]).status.state = .fatal ∧ (∃ t, step (fatalWith [.command 0]) = .next t ∧ t.status.state = .fatal) ∧
    (fatalWith [.reset]).status.state = .fatal ∧ (∃ t, step (fatalWith [.reset]) = .next t ∧ t.status.state = .idle) :=
  ⟨rfl, ⟨_, rfl, rfl⟩, rfl, ⟨_, rfl, rfl⟩⟩

/-- IDLE to BUSY, IDLE to FATAL, BUSY to IDLE by a frame and by a reset, FATAL to IDLE. -/
theorem witness_StateTransitions :
    (∃ t, step (hostDoes [.command 0x6010000000000000]) = .next t ∧ t.status.state = .busy) ∧
    (∃ t, step (hostDoes [.command 0]) = .next t ∧ t.status.state = .fatal) ∧
    (∃ t, step (State.frames (waiting []) [wordFrame 32]) = .next t ∧ t.status.state = .idle) ∧
    (∃ t, step (waiting [.reset]) = .next t ∧ t.status.state = .idle) ∧
    (∃ t, step (fatalWith [.reset]) = .next t ∧ t.status.state = .idle) :=
  ⟨⟨_, rfl, rfl⟩, ⟨_, rfl, rfl⟩, ⟨_, rfl, rfl⟩, ⟨_, rfl, rfl⟩, ⟨_, rfl, rfl⟩⟩

theorem witness_FaultWritesNothing :
    (busy State.reset (.xorw 3 1 2)).status.state = .busy ∧
    exec (.xorw 3 1 2) (busy State.reset (.xorw 3 1 2)) = .next ((busy State.reset (.xorw 3 1 2)).takeFault .fShape) ∧
    ((busy State.reset (.xorw 3 1 2)).takeFault .fShape).status.state = .fatal ∧ ∀ imm, Instr.xorw 3 1 2 ≠ .hash imm :=
  ⟨rfl, rfl, rfl, fun _ h => by cases h⟩

theorem witness_FaultsHaveCauses :
    let s := busy (State.draws loaded [true] []) (.notw 2 1)
    let s' := busy (State.draws loaded [] [false, true]) (.notw 2 1)
    s.status.state = .busy ∧ (∃ t, exec (.notw 2 1) s = .next t ∧ t.status = ⟨.fatal, some .fCtx⟩) ∧
    s'.status.state = .busy ∧ (∃ t, exec (.notw 2 1) s' = .next t ∧ t.status = ⟨.fatal, some .fWorker⟩) :=
  ⟨rfl, ⟨_, rfl, rfl⟩, rfl, ⟨_, rfl, rfl⟩⟩

theorem witness_DecodeOfEncode : (Instr.shr 15 15 0).wellFormed = true ∧ (Instr.shr 15 15 32).wellFormed = true ∧
    (Instr.rotr 15 15 255).wellFormed = true := by decide

theorem witness_EncodeOfDecode : decode 0x2121002000000000 = some (.shr 2 1 32) := by decide

theorem witness_StoredBytesDecode : ([0x10, 0x31, 0x20, 0, 0, 0, 0] : List Byte).length ≠ 8 ∧
    ([0x10, 0x31, 0x20, 0, 0, 0, 0, 0, 0] : List Byte).length ≠ 8 := by decide

/-- The four cases of a batch command: an `empty` source, no failure, a failed call (the last of 32), a failed worker
(the last of 8). -/
def BatchCases : Prop :=
  (State.reset.r[(1 : Reg)] = none ∨ State.reset.r[(2 : Reg)] = none) ∧
  (loaded.r[(1 : Reg)] = some (wordOf 0x6a09e667) ∧ loaded.r[(2 : Reg)] = some (wordOf 0x6a09e667)) ∧
  (State.draws loaded (List.replicate 32 false ++ [true]) (List.replicate 8 false ++ [true])).NoFailure 32 1 ∧
  true ∈ (State.draws loaded (List.replicate 31 false ++ [true]) []).env.ctxDraws.take 32 ∧
  true ∉ (State.draws loaded [] (List.replicate 7 false ++ [true])).env.ctxDraws.take 32 ∧
  true ∈ (State.draws loaded [] (List.replicate 7 false ++ [true])).env.workerDraws.take 8

theorem batch_cases : BatchCases := ⟨.inl rfl, ⟨rfl, rfl⟩, ⟨rfl, rfl⟩, by decide, by decide, by decide⟩

theorem witness_XorwLaw : BatchCases := batch_cases

theorem witness_AndwLaw : BatchCases := batch_cases

theorem witness_NotwLaw : BatchCases := batch_cases

/-- A key that the machine's capability fits. -/
theorem witness_key : ∃ dec, Config.G.Fits dec := Config.some_key

theorem witness_TrivwLaw : State.reset.NoFailure 32 0 ∧
    true ∈ (State.draws State.reset (List.replicate 31 false ++ [true]) []).env.ctxDraws.take 32 := ⟨⟨rfl, rfl⟩, by decide⟩

/-- One worker, eight and thirty-two; the lanes backwards. -/
theorem witness_BatchScheduleIndependent :
    (1 ∣ 32 ∧ IsSchedule 1 (List.finRange 32).reverse) ∧ (8 ∣ 32 ∧ IsSchedule 8 (List.finRange 32).reverse) ∧
    (32 ∣ 32 ∧ IsSchedule 32 (List.finRange 32).reverse) := by
  refine ⟨⟨by decide, ?_⟩, ⟨by decide, ?_⟩, ⟨by decide, ?_⟩⟩ <;> unfold IsSchedule <;> decide +kernel

theorem witness_RotrLaw : State.reset.r[(1 : Reg)] = none ∧ loaded.r[(1 : Reg)] = some (wordOf 0x6a09e667) ∧
    ∃ dec, Config.G.Fits dec := ⟨rfl, rfl, witness_key⟩

/-- No cell dropped, and all. -/
theorem witness_ShrLaw :
    (0 : BitVec 8).toNat ≤ 32 ∧ (32 : BitVec 8).toNat ≤ 32 ∧ State.reset.r[(1 : Reg)] = none ∧
    loaded.r[(1 : Reg)] = some (wordOf 0x6a09e667) ∧ loaded.NoFailure (32 : BitVec 8).toNat 0 ∧
    (State.draws loaded [true] []).NoFailure (0 : BitVec 8).toNat 0 ∧
    true ∈ (State.draws loaded [true] []).env.ctxDraws.take (1 : BitVec 8).toNat := by
  refine ⟨by decide, by decide, rfl, rfl, ⟨rfl, rfl⟩, ⟨rfl, rfl⟩, by decide⟩

/-- Sources, draws and a key for the functions of one, two and three words. -/
def FunctionCases : Prop :=
  (State.reset.r[(1 : Reg)] = none ∧ State.reset.r[(2 : Reg)] = none ∧ State.reset.r[(3 : Reg)] = none) ∧
  (loaded.r[(1 : Reg)] = some (wordOf 0x6a09e667) ∧ loaded.r[(2 : Reg)] = some (wordOf 0x6a09e667) ∧
    loaded.r[(3 : Reg)] = some (wordOf 0x6a09e667)) ∧
  (∀ calls batches, loaded.NoFailure calls batches) ∧ ∃ dec, Config.G.Fits dec

theorem function_cases : FunctionCases := ⟨⟨rfl, rfl, rfl⟩, ⟨rfl, rfl, rfl⟩, noFailure_silent _ rfl, witness_key⟩

/-- Draws in which the first batch has a failed worker and the second a failed call. -/
def mixed : State := State.draws loaded (List.replicate 36 false ++ [true]) [false, true]

theorem witness_Ssig0Law : FunctionCases ∧ mixed.firstFault (Instr.ssig0 2 1).capSteps = some .fWorker :=
  ⟨function_cases, by decide⟩

theorem witness_Ssig1Law : FunctionCases ∧ mixed.firstFault (Instr.ssig1 2 1).capSteps = some .fWorker :=
  ⟨function_cases, by decide⟩

theorem witness_Bsig0Law : FunctionCases ∧ mixed.firstFault (Instr.bsig0 2 1).capSteps = some .fWorker :=
  ⟨function_cases, by decide⟩

theorem witness_Bsig1Law : FunctionCases ∧ mixed.firstFault (Instr.bsig1 2 1).capSteps = some .fWorker :=
  ⟨function_cases, by decide⟩

theorem witness_ChLaw : FunctionCases ∧ mixed.firstFault (Instr.ch 4 1 2 3).capSteps = some .fWorker :=
  ⟨function_cases, by decide⟩

theorem witness_MajLaw : FunctionCases ∧ mixed.firstFault (Instr.maj 4 1 2 3).capSteps = some .fWorker :=
  ⟨function_cases, by decide⟩

theorem witness_PseudoInstructions : FunctionCases := function_cases

theorem witness_AddLaw : FunctionCases ∧ mixed.firstFault (Instr.add 3 1 2).capSteps = some .fWorker :=
  ⟨function_cases, by decide⟩

/-- 3 + 1. -/
theorem witness_CarryWord :
    ∃ dec, Config.G.Fits dec ∧ val dec (wordOf 2) = val dec (wordOf 3) ^^^ val dec (wordOf 1) ∧
      val dec (wordOf 1) = val dec (wordOf 3) &&& val dec (wordOf 1) ∧ dec (Config.G.triv false) = false ∧
      State.reset.NoFailure 62 0 := by
  obtain ⟨dec, h⟩ := witness_key
  refine ⟨dec, h, ?_, ?_, h.dec_triv false, reset_noFailure 62 0⟩ <;> simp only [val_wordOf _ dec h] <;> decide

theorem witness_CompressLaw :
    (State.reset.LacksHS ∧ State.reset.LacksBLK) ∧ ready.HoldsHS (Vector.replicate 8 (wordOf 1)) ∧
    ready.HoldsBLK (Vector.replicate 16 (wordOf 2)) ∧ ready.NoFailure 130840 2824 ∧ (∃ dec, Config.G.Fits dec) ∧
    (State.draws ready (List.replicate 36 false ++ [true]) [false, true]).firstFault Instr.compress.capSteps = some .fWorker :=
  ⟨⟨⟨0, rfl⟩, ⟨15, rfl⟩⟩, rfl, rfl, noFailure_silent _ rfl _ _, witness_key, rfl⟩

theorem witness_HinitLaw : State.reset.NoFailure 256 0 ∧
    true ∈ (State.draws State.reset (List.replicate 255 false ++ [true]) []).env.ctxDraws.take 256 :=
  ⟨⟨rfl, rfl⟩, by decide +kernel⟩

/-- Draws in which the last call of HINIT's work fails, and in which the first call of the first block does. -/
def hinitFails (s : State) : State := State.draws s (List.replicate 255 false ++ [true]) []

def blockFails (s : State) : State := State.draws s (List.replicate 256 false ++ [true]) []

/-- What those draws decide for HASH of no block and of one. -/
theorem hash_draws : (hinitFails State.reset).firstFault (Instr.hash 0).capSteps = some .fCtx ∧
    (blockFails (State.frames State.reset [blockFrame])).firstFault (Instr.hash 1).capSteps = some .fCtx ∧
    (blockFails (State.frames State.reset [blockFrame])).firstFault (CapStep.hinit ++ CapStep.blocks [block].length) = some .fCtx := by
  decide +kernel

/-- No block, with a frame left over; and one block. -/
theorem witness_HashLaw :
    (State.reset.seq.phase = .none ∧ (State.frames State.reset [wordFrame 1]).dinq =
        (([] : List (Vector Word 16)).map fun b => Frame.block (b.toList.map Vector.toList)) ++ [wordFrame 1] ∧
      ([] : List (Vector Word 16)).length = (0 : U32).toNat ∧
      (State.frames State.reset [wordFrame 1]).NoFailure (256 + 130840 * (0 : U32).toNat) (2824 * (0 : U32).toNat)) ∧
    (State.frames State.reset [blockFrame]).dinq =
        ([block].map fun b => Frame.block (b.toList.map Vector.toList)) ++ [] ∧
      [block].length = (1 : U32).toNat ∧
      (State.frames State.reset [blockFrame]).NoFailure (256 + 130840 * (1 : U32).toNat) (2824 * (1 : U32).toNat) ∧
    (hinitFails State.reset).firstFault (Instr.hash 0).capSteps = some .fCtx ∧
    (blockFails (State.frames State.reset [blockFrame])).firstFault (Instr.hash 1).capSteps = some .fCtx :=
  ⟨⟨rfl, rfl, rfl, noFailure_silent _ rfl _ _⟩, rfl, rfl, noFailure_silent _ rfl _ _, hash_draws.1, hash_draws.2.1⟩

/-- No frame at all, and one of two. -/
theorem witness_HashWaitsForFrames :
    (busy State.reset (.hash 1)).status.state = .busy ∧ (busy State.reset (.hash 1)).seq.phase = .none ∧
    (busy State.reset (.hash 1)).dinq = (([] : List (Vector Word 16)).map fun b => Frame.block (b.toList.map Vector.toList)) ∧
    ([] : List (Vector Word 16)).length < (1 : U32).toNat ∧
    (busy (State.frames State.reset [blockFrame]) (.hash 2)).dinq = ([block].map fun b => Frame.block (b.toList.map Vector.toList)) ∧
    [block].length < (2 : U32).toNat ∧
    (∀ calls batches, (busy (State.frames State.reset [blockFrame]) (.hash 2)).NoFailure calls batches) ∧
    (blockFails (State.frames State.reset [blockFrame])).firstFault (CapStep.hinit ++ CapStep.blocks [block].length) = some .fCtx :=
  ⟨rfl, rfl, rfl, by decide, rfl, by decide, noFailure_silent _ rfl, hash_draws.2.2⟩

/-- HASH waiting with its last block to come. -/
def hashWaiting : State := State.frames (((busy ready (.hash 2)).setPhase .load).setBlkLeft 1) [blockFrame, wordFrame 1]

/-- The same with two blocks left: no block, and one, with no frame after; and one with a bad frame after. -/
def hashWaiting2 (q : List Frame) : State := State.frames (((busy ready (.hash 2)).setPhase .load).setBlkLeft 2) q

theorem witness_HashWaitsForFrames_resumed :
    (∀ q, (hashWaiting2 q).status.state = .busy ∧ (hashWaiting2 q).seq.phase = .load ∧
      (hashWaiting2 q).HoldsHS (Vector.replicate 8 (wordOf 1)) ∧ ∀ calls batches, (hashWaiting2 q).NoFailure calls batches) ∧
    (hashWaiting2 []).dinq = (([] : List (Vector Word 16)).map fun b => Frame.block (b.toList.map Vector.toList)) ∧
    ([] : List (Vector Word 16)).length < (hashWaiting2 []).seq.blkLeft.toNat ∧
    (hashWaiting2 [blockFrame]).dinq = ([block].map fun b => Frame.block (b.toList.map Vector.toList)) ∧
    [block].length < (hashWaiting2 [blockFrame]).seq.blkLeft.toNat ∧
    (State.draws (hashWaiting2 [blockFrame]) (List.replicate 31 false ++ [true]) []).firstFault (CapStep.blocks [block].length) = some .fCtx :=
  ⟨fun _ => ⟨rfl, rfl, rfl, noFailure_silent _ rfl⟩, rfl, (by decide : 0 < (2 : U32).toNat), rfl, (by decide : 1 < (2 : U32).toNat), rfl⟩

theorem witness_HashBadFrame_resumed :
    (hashWaiting2 [blockFrame, wordFrame 32]).seq.phase = .load ∧
    (hashWaiting2 [blockFrame, wordFrame 32]).HoldsHS (Vector.replicate 8 (wordOf 1)) ∧
    (hashWaiting2 [blockFrame, wordFrame 32]).dinq =
      ([block].map fun b => Frame.block (b.toList.map Vector.toList)) ++ wordFrame 32 :: [] ∧
    (∀ b : Vector Word 16, wordFrame 32 ≠ .block (b.toList.map Vector.toList)) ∧
    [block].length < (hashWaiting2 [blockFrame, wordFrame 32]).seq.blkLeft.toNat ∧
    (hashWaiting2 [blockFrame, wordFrame 32]).NoFailure (130840 * 1) (2824 * 1) :=
  ⟨rfl, rfl, rfl, (fun _ h => by cases h), (by decide : 1 < (2 : U32).toNat), noFailure_silent _ rfl _ _⟩

theorem witness_HashGoesOn :
    hashWaiting.seq.phase = .load ∧ hashWaiting.HoldsHS (Vector.replicate 8 (wordOf 1)) ∧
    [block].length = hashWaiting.seq.blkLeft.toNat ∧
    hashWaiting.dinq = ([block].map fun b => Frame.block (b.toList.map Vector.toList)) ++ [wordFrame 1] ∧
    hashWaiting.NoFailure (130840 * [block].length) (2824 * [block].length) ∧
    (State.draws hashWaiting (List.replicate 31 false ++ [true]) []).firstFault (CapStep.blocks [block].length) = some .fCtx :=
  ⟨rfl, rfl, rfl, rfl, noFailure_silent _ rfl _ _, rfl⟩

theorem witness_HashBadFrame :
    (State.frames State.reset [blockFrame, wordFrame 32]).seq.phase = .none ∧
    (State.frames State.reset [blockFrame, wordFrame 32]).dinq =
      ([block].map fun b => Frame.block (b.toList.map Vector.toList)) ++ wordFrame 32 :: [] ∧
    (∀ b : Vector Word 16, wordFrame 32 ≠ .block (b.toList.map Vector.toList)) ∧ [block].length < (2 : U32).toNat ∧
    (State.frames State.reset [blockFrame, wordFrame 32]).NoFailure (256 + 130840 * 1) (2824 * 1) ∧
    (blockFails (State.frames State.reset [blockFrame, wordFrame 32])).firstFault (CapStep.hinit ++ CapStep.blocks [block].length) =
      some .fCtx :=
  ⟨rfl, rfl, (fun _ h => by cases h), by decide, noFailure_silent _ rfl _ _, hash_draws.2.2⟩

theorem witness_HashIsExplicitSequence :
    (State.frames State.reset [blockFrame]).status.state = .idle ∧
    (State.frames State.reset [blockFrame]).dinq = ([block].map fun b => Frame.block (b.toList.map Vector.toList)) ++ [] ∧
    [block].length = (1 : U32).toNat ∧
    (State.frames State.reset [blockFrame]).NoFailure (256 + 130840 * (1 : U32).toNat) (2824 * (1 : U32).toNat) :=
  ⟨rfl, rfl, rfl, noFailure_silent _ rfl _ _⟩

/-- The padded empty message, trivially encrypted by the machine's own capability. -/
def emptyMessageBlock : Vector Word 16 :=
  Vector.ofFn fun k => Vector.ofFn fun i => Config.G.triv (decide (k.val = 0 ∧ i.val = 0))

def emptyMessageState : State := State.frames State.reset [.block (emptyMessageBlock.toList.map Vector.toList)]

theorem pad_empty : Plain.pad [] = true :: List.replicate 511 false := by decide +kernel

theorem pad_empty_bit (k : Fin 16) (i : Fin 32) :
    (Plain.pad [])[32 * k.val + i.val]? = some (decide (k.val = 0 ∧ i.val = 0)) := by
  rw [pad_empty]
  by_cases h : 32 * k.val + i.val = 0
  · have : k.val = 0 ∧ i.val = 0 := by omega
    rw [h, decide_eq_true this, List.getElem?_cons_zero]
  · obtain ⟨m, hm⟩ : ∃ m, 32 * k.val + i.val = m + 1 := ⟨_, (Nat.succ_pred h).symm⟩
    have hk : ¬ (k.val = 0 ∧ i.val = 0) := by omega
    rw [hm, List.getElem?_cons_succ, List.getElem?_replicate, if_pos (by omega), decide_eq_false hk]

theorem witness_DigestOfMessage :
    ∃ dec, Config.G.Fits dec ∧ emptyMessageState.seq.phase = .none ∧
      512 * [emptyMessageBlock].length = (Plain.pad []).length ∧ [emptyMessageBlock].length = (1 : U32).toNat ∧
      (∀ (b : Fin [emptyMessageBlock].length) (k : Fin 16) (i : Fin 32),
        (Plain.pad [])[512 * b.val + 32 * k.val + i.val]? = some (dec ([emptyMessageBlock][b])[k][i])) ∧
      emptyMessageState.dinq = ([emptyMessageBlock].map fun b => Frame.block (b.toList.map Vector.toList)) ++ [] ∧
      emptyMessageState.NoFailure (256 + 130840 * (1 : U32).toNat) (2824 * (1 : U32).toNat) := by
  obtain ⟨dec, h⟩ : ∃ dec, Config.G.Fits dec := Config.some_key
  have cell (b : Fin [emptyMessageBlock].length) (k : Fin 16) (i : Fin 32) :
      (Plain.pad [])[512 * b.val + 32 * k.val + i.val]? = some (dec ([emptyMessageBlock][b])[k][i]) := by
    have hb : b.val = 0 := Nat.lt_one_iff.1 b.isLt
    have hc : ([emptyMessageBlock][b])[k][i] = Config.G.triv (decide (k.val = 0 ∧ i.val = 0)) := by
      simp [emptyMessageBlock]
    rw [hc, h.dec_triv, hb, Nat.mul_zero, Nat.zero_add, pad_empty_bit]
  exact ⟨dec, h, rfl, by rw [pad_empty, List.length_singleton, List.length_cons, List.length_replicate], rfl, cell, rfl, noFailure_silent _ rfl _ _⟩

/-- No frame; a word; a frame of 33 cells. -/
theorem witness_LdwLaw :
    State.reset.dinq = [] ∧ (State.frames State.reset [.word (wordOf 5).toList]).dinq = .word (wordOf 5).toList :: [] ∧
    (State.frames State.reset [wordFrame 33]).dinq = wordFrame 33 :: [] ∧ ∀ w : Word, wordFrame 33 ≠ .word w.toList := by
  refine ⟨rfl, rfl, rfl, fun w h => ?_⟩
  have := congrArg (fun f => match f with | Frame.word cells => cells.length | Frame.block _ => 0) h
  simp [wordFrame] at this

theorem witness_StwLaw : State.reset.r[(0 : Reg)] = none ∧ loaded.r[(15 : Reg)] = some (wordOf 0x6a09e667) := ⟨rfl, rfl⟩

/-- No frame; a block; a frame of 15 words. -/
theorem witness_LdblkLaw :
    State.reset.dinq = [] ∧ (State.frames State.reset [blockFrame]).dinq = .block (block.toList.map Vector.toList) :: [] ∧
    (State.frames State.reset [.block (List.replicate 15 [])]).dinq = .block (List.replicate 15 []) :: [] ∧
    ∀ b : Vector Word 16, Frame.block (List.replicate 15 []) ≠ .block (b.toList.map Vector.toList) := by
  refine ⟨rfl, rfl, rfl, fun b h => ?_⟩
  have := congrArg (fun f => match f with | Frame.word _ => 0 | Frame.block ws => ws.length) h
  simp at this

theorem witness_RdhLaw : State.reset.LacksHS ∧ ready.HoldsHS (Vector.replicate 8 (wordOf 1)) := ⟨⟨7, rfl⟩, rfl⟩

/-- Completion, with the register not the destination. -/
theorem witness_RegistersFrame :
    (∃ t, exec (.rotr 2 1 7) (busy loaded (.rotr 2 1 7)) = .next t ∧ t.status.state = .idle) ∧
    (Instr.rotr 2 1 7).dest ≠ some 1 := ⟨⟨_, rfl, rfl⟩, by decide⟩

theorem witness_StorageFrame :
    (∃ t, exec (.stw 3) (busy ready (.stw 3)) = .next t ∧ t.status.state ≠ .fatal) ∧
    (∃ t, exec (.ldw 3) (busy (State.frames ready [wordFrame 32]) (.ldw 3)) = .next t ∧ t.status.state ≠ .fatal) ∧
    Instr.stw 3 ≠ .hinit ∧ Instr.stw 3 ≠ .compress ∧ Instr.stw 3 ≠ .ldblk ∧ (∀ imm, Instr.stw 3 ≠ .hash imm) ∧
    (∀ rd, Instr.stw 3 ≠ .ldw rd) ∧ (∀ rd rs1 rs2, Instr.stw 3 ≠ .add rd rs1 rs2) ∧
    (∀ rs1, Instr.ldw 3 ≠ .stw rs1) ∧ Instr.ldw 3 ≠ .rdh ∧ ∀ imm, Instr.ldw 3 ≠ .hash imm := by
  refine ⟨⟨_, rfl, by decide⟩, ⟨_, rfl, by decide⟩, ?_⟩
  simp

/-- A destination that is also the source. -/
theorem witness_DestinationMayBeSource :
    (busy loaded (.rotr 2 1 7)).status.state = .busy ∧
    (∃ t, exec (.rotr 2 1 7) (busy loaded (.rotr 2 1 7)) = .next t ∧ t.status.state = .idle) ∧
    (Instr.rotr 2 1 7).dest.isSome ∧ Instr.withDest 1 (.rotr 2 1 7) = .rotr 1 1 7 := ⟨rfl, ⟨_, rfl, rfl⟩, rfl, rfl⟩

/-- The last of three sources is the `empty` one. -/
theorem witness_EmptySourceFaults :
    let s := (State.reset.setR 1 (wordOf 0)).setR 2 (wordOf 0)
    (3 : Reg) ∈ (Instr.ch 4 1 2 3).sources ∧ s.r[(3 : Reg)] = none ∧ s.r[(1 : Reg)] ≠ none ∧ s.r[(2 : Reg)] ≠ none := by
  decide

theorem witness_CompletionHadNoFailure :
    (busy loaded (.rotr 2 1 7)).status.state = .busy ∧ (busy loaded (.rotr 2 1 7)).seq.phase = .none ∧
    ∃ t, exec (.rotr 2 1 7) (busy loaded (.rotr 2 1 7)) = .next t ∧ t.status.state = .idle := ⟨rfl, rfl, _, rfl, rfl⟩

/-- Two states that hold different ciphertexts in the same places, and frames of one outline. -/
theorem witness_CiphertextsUnobserved :
    let s := State.frames loaded [wordFrame 3]
    let t := State.frames (loaded.setR 2 (wordOf 7)) [.word (List.replicate 3 (Config.G.triv false))]
    s.Alike t ∧ s ≠ t := by
  refine ⟨?_, fun h => ?_⟩
  · constructor <;> first | rfl | (unfold SamePlaces; decide)
  · obtain ⟨dec, hd⟩ := witness_key
    have hq : wordFrame 3 = .word (List.replicate 3 (Config.G.triv false)) := (List.cons.inj (congrArg State.dinq h)).1
    have hc : Config.G.triv true = Config.G.triv false := (List.cons.inj (Frame.word.inj hq)).1
    have := congrArg dec hc
    rw [hd.dec_triv, hd.dec_triv] at this
    cases this

end Sys2Proof.Tests
end

section
/-!
PROOF. No ciphertext is looked at (R12): two runs from states that are alike go on alike, update by update,
micro-step by micro-step, command by command, and so step by step.
-/

namespace Sys2Proof.Machine

/-! Storage elements `empty` in the same places. -/

theorem SamePlaces.refl {n : Nat} (xs : Vector (Option Word) n) : SamePlaces xs xs := fun _ => rfl

theorem SamePlaces.set {n : Nat} {xs ys : Vector (Option Word) n} (h : SamePlaces xs ys) (k : Fin n) (w w' : Word) :
    SamePlaces (xs.set k.val (some w)) (ys.set k.val (some w')) := by
  intro j
  by_cases hk : k.val = j.val
  · simp [hk]
  · simpa [Vector.getElem_set, hk] using h j

theorem samePlaces_filled {n : Nat} (ws ws' : Vector Word n) : SamePlaces (filled ws) (filled ws') := fun k => by simp

/-! The shape of a frame decides whether it is a word or a block (R61). -/

theorem toWord_isSome (cells : List Ct) : (toWord cells).isSome ↔ cells.length = 32 := by
  by_cases h : cells.length = 32 <;> simp [toWord, h]

theorem toWords_isSome (fs : List (List Ct)) : (toWords fs).isSome ↔ ∀ f ∈ fs, f.length = 32 := by
  induction fs with
  | nil => simp [toWords]
  | cons f fs ih =>
    rw [List.forall_mem_cons, ← toWord_isSome, ← ih, toWords]
    cases toWord f <;> cases toWords fs <;> simp

theorem toBlock_isSome (fs : List (List Ct)) : (toBlock fs).isSome ↔ fs.map List.length = List.replicate 16 32 := by
  rw [List.eq_replicate_iff, List.length_map, List.forall_mem_map, ← toWords_isSome, toBlock]
  cases h : toWords fs with
  | none => simp
  | some ws =>
    have hlength : fs.length = ws.length := by rw [toWords_eq_some h, List.length_map]
    by_cases hw : ws.length = 16 <;> simp [hlength, hw]

theorem asWord_isSome (f : Frame) : f.asWord.isSome ↔ f.outline = (false, [32]) := by
  cases f with
  | word cells => simp [Frame.asWord, Frame.outline, toWord_isSome]
  | block words => simp [Frame.asWord, Frame.outline]

theorem asBlock_isSome (f : Frame) : f.asBlock.isSome ↔ f.outline = (true, List.replicate 16 32) := by
  cases f with
  | word cells => simp [Frame.asBlock, Frame.outline]
  | block words => simpa only [Frame.asBlock, Frame.outline, Prod.mk.injEq, true_and] using toBlock_isSome words

/-! A host act without its ciphertexts is the act, but for the cells of a frame. -/

theorem outline_eq_command {e : HostEvent} {cw : CmdWord} : e.outline = (HostEvent.command cw).outline ↔ e = .command cw := by
  cases e <;> simp [HostEvent.outline]

theorem outline_eq_frame {e : HostEvent} {f : Frame} :
    e.outline = (HostEvent.frame f).outline ↔ ∃ g, e = .frame g ∧ g.outline = f.outline := by
  cases e <;> simp [HostEvent.outline]

theorem outline_eq_reset {e : HostEvent} : e.outline = HostEvent.reset.outline ↔ e = .reset := by
  cases e <;> simp [HostEvent.outline]

theorem outline_eq_resetDuring {e : HostEvent} {m : Moment} :
    e.outline = (HostEvent.resetDuring m).outline ↔ e = .resetDuring m := by
  cases e <;> simp [HostEvent.outline]

/-! Each update of the state keeps two states alike, whatever ciphertexts it puts in. -/

namespace State.Alike

variable {s t : State} (h : s.Alike t)
include h

theorem setR (k : Reg) (w w' : Word) : (s.setR k w).Alike (t.setR k w') := { h with r := h.r.set k w w' }

theorem setHS (ws ws' : Vector Word 8) : (s.setHS ws).Alike (t.setHS ws') := { h with hs := samePlaces_filled ws ws' }

theorem setBLK (ws ws' : Vector Word 16) : (s.setBLK ws).Alike (t.setBLK ws') := { h with blk := samePlaces_filled ws ws' }

theorem setW (k : Fin 64) (w w' : Word) : (s.setW k w).Alike (t.setW k w') := { h with w := h.w.set k w w' }

theorem setV (k : Fin 8) (w w' : Word) : (s.setV k w).Alike (t.setV k w') := { h with v := h.v.set k w w' }

theorem setAllV (ws ws' : Vector Word 8) : (s.setAllV ws).Alike (t.setAllV ws') := { h with v := samePlaces_filled ws ws' }

theorem setT1 (w w' : Word) : (s.setT1 w).Alike (t.setT1 w') := { h with t1 := rfl }

theorem setT2 (w w' : Word) : (s.setT2 w).Alike (t.setT2 w') := { h with t2 := rfl }

theorem setAP (w w' : Word) : (s.setAP w).Alike (t.setAP w') := { h with ap := rfl }

theorem setAG (w w' : Word) : (s.setAG w).Alike (t.setAG w') := { h with ag := rfl }

theorem setAC (w w' : Word) : (s.setAC w).Alike (t.setAC w') := { h with ac := rfl }

theorem clearAdder : s.clearAdder.Alike t.clearAdder := { h with ap := rfl, ag := rfl, ac := rfl }

theorem clearRounds : s.clearRounds.Alike t.clearRounds :=
  { h with w := .refl _, v := .refl _, t1 := rfl, t2 := rfl }

theorem setPhase (p : Phase) : (s.setPhase p).Alike (t.setPhase p) :=
  { h with seq := congrArg (fun q : Seq => { q with phase := p }) h.seq }

theorem setT (i : Fin 64) : (s.setT i).Alike (t.setT i) := { h with seq := congrArg (fun q : Seq => { q with t := i }) h.seq }

theorem setBlkLeft (n : U32) : (s.setBlkLeft n).Alike (t.setBlkLeft n) :=
  { h with seq := congrArg (fun q : Seq => { q with blkLeft := n }) h.seq }

theorem countBlock : (s.setBlkLeft (s.seq.blkLeft - 1)).Alike (t.setBlkLeft (t.seq.blkLeft - 1)) :=
  h.seq ▸ h.setBlkLeft _

theorem setCI (i : Fin 32) : (s.setCI i).Alike (t.setCI i) := { h with seq := congrArg (fun q : Seq => { q with ci := i }) h.seq }

theorem setDinq {q q' : List Frame} (hq : q.map Frame.outline = q'.map Frame.outline) : (s.setDinq q).Alike (t.setDinq q') :=
  { h with dinq := hq }

theorem setHost {es es' : List HostEvent} (he : es.map HostEvent.outline = es'.map HostEvent.outline) :
    (s.setHost es).Alike (t.setHost es') :=
  { h with host := he }

theorem emit (w w' : Word) : (s.emit w).Alike (t.emit w') :=
  { h with dout := by simp [State.emit, h.dout] }

theorem dropCtx (n : Nat) : (s.dropCtx n).Alike (t.dropCtx n) := { h with ctxDraws := congrArg (List.drop n) h.ctxDraws }

theorem dropWorkers (n : Nat) : (s.dropWorkers n).Alike (t.dropWorkers n) :=
  { h with workerDraws := congrArg (List.drop n) h.workerDraws }

theorem accept (cw : CmdWord) : (s.accept cw).Alike (t.accept cw) :=
  { h with status := congrArg (fun q : Status => { q with state := .busy }) h.status, seq := rfl }

theorem complete : s.complete.Alike t.complete :=
  { h with status := congrArg (fun q : Status => { q with state := .idle }) h.status, seq := rfl }

theorem takeFault (c : FaultCode) : (s.takeFault c).Alike (t.takeFault c) :=
  { h with status := rfl, fcmd := congrArg Seq.cmd h.seq }

/-- The reset event keeps of each state its environment only. -/
theorem resetEvent : s.resetEvent.Alike t.resetEvent where
  r := .refl _
  hs := .refl _
  blk := .refl _
  w := .refl _
  v := .refl _
  t1 := rfl
  t2 := rfl
  ap := rfl
  ag := rfl
  ac := rfl
  status := rfl
  fcmd := rfl
  seq := rfl
  dinq := rfl
  host := h.host
  dout := h.dout
  ctxDraws := h.ctxDraws
  workerDraws := h.workerDraws

/-! What one state has next, a frame or an act of the host, the other has next too. -/

theorem dinq_nil : s.dinq = [] ↔ t.dinq = [] := by
  rw [← List.map_eq_nil_iff (f := Frame.outline), h.dinq, List.map_eq_nil_iff]

theorem dinq_cons {f : Frame} {q : List Frame} (hs : s.dinq = f :: q) :
    ∃ g q', t.dinq = g :: q' ∧ f.outline = g.outline ∧ q.map Frame.outline = q'.map Frame.outline := by
  obtain ⟨g, q', ht, hg, hq⟩ := List.map_eq_cons_iff.1 (h.dinq.symm.trans (congrArg (List.map Frame.outline) hs))
  exact ⟨g, q', ht, hg.symm, hq.symm⟩

theorem host_nil (hs : s.env.host = []) : t.env.host = [] := by
  simpa [hs] using h.host.symm

theorem host_cons {e : HostEvent} {es : List HostEvent} (hs : s.env.host = e :: es) :
    ∃ e' es', t.env.host = e' :: es' ∧ e'.outline = e.outline ∧ es.map HostEvent.outline = es'.map HostEvent.outline := by
  obtain ⟨e', es', ht, he, hes⟩ := List.map_eq_cons_iff.1 (h.host.symm.trans (congrArg (List.map HostEvent.outline) hs))
  exact ⟨e', es', ht, he, hes.symm⟩

end State.Alike

/-! Two runs of the sequencer's work, whose operands may differ in ciphertexts. -/

/-- Two runs end the same way, in states that are alike. What they yield is not compared: it is made of ciphertexts. -/
inductive SameEnd {α : Type} : EStateM.Result Stop State α → EStateM.Result Stop State α → Prop where
  | ok {a b : α} {s t : State} (h : s.Alike t) : SameEnd (.ok a s) (.ok b t)
  | error {e : Stop} {s t : State} (h : s.Alike t) : SameEnd (.error e s) (.error e t)

/-- From states that are alike, the two pieces of work end the same way. -/
def Blind {α : Type} (m m' : Micro α) : Prop := ∀ s t : State, s.Alike t → SameEnd (m s) (m' t)

theorem blind_pure {α : Type} (a b : α) : Blind (pure a : Micro α) (pure b) := fun _ _ h => .ok h

theorem blind_raise {α : Type} (c : FaultCode) : Blind (raise c : Micro α) (raise c) := fun _ _ h => .error (h.takeFault c)

theorem blind_update {f g : State → State} (hf : ∀ {s t}, s.Alike t → (f s).Alike (g t)) : Blind (update f) (update g) :=
  fun _ _ h => .ok (hf h)

theorem blind_bind {α β : Type} {m m' : Micro α} {f f' : α → Micro β} (hm : Blind m m') (hf : ∀ a b, Blind (f a) (f' b)) :
    Blind (m >>= f) (m' >>= f') := by
  intro s t h
  have hend := hm s t h
  generalize hx : m s = x at hend
  generalize hy : m' t = y at hend
  cases hend with
  | ok h' =>
    rw [bind_ok hx, bind_ok hy]
    exact hf _ _ _ _ h'
  | error h' =>
    rw [bind_error hx, bind_error hy]
    exact .error h'

theorem blind_forRange {lo : Nat} {body body' : Nat → Micro Unit} (hb : ∀ i, Blind (body i) (body' i)) :
    ∀ n, Blind (forRange lo n body) (forRange lo n body')
  | 0 => blind_pure _ _
  | n + 1 => blind_bind (blind_forRange hb n) fun _ _ => hb _

theorem blind_collect {α : Type} : ∀ {n : Nat} {f f' : Fin n → Micro α}, (∀ i, Blind (f i) (f' i)) →
    Blind (collect n f) (collect n f')
  | 0, _, _, _ => blind_pure _ _
  | _ + 1, _, _, hf => blind_bind (blind_collect fun i => hf i.castSucc) fun _ _ => blind_bind (hf _) fun _ _ => blind_pure _ _

/-- What is read of the whole state may differ in ciphertexts only. -/
theorem blind_get {α : Type} {k k' : State → Micro α} (hk : ∀ s t, s.Alike t → Blind (k s) (k' t)) :
    Blind (get >>= k) (get >>= k') :=
  fun s t h => hk s t h s t h

/-! The draws are no ciphertexts: both runs see the same ones. -/

theorem blind_drawCtx {α : Type} {n : Nat} {k k' : Bool → Micro α} (hk : ∀ b, Blind (k b) (k' b)) :
    Blind (drawCtx n >>= k) (drawCtx n >>= k') := by
  intro s t h
  have hdraw : drawCtx n t = .ok ((s.env.ctxDraws.take n).any id) (t.dropCtx n) := by rw [h.ctxDraws]; rfl
  rw [bind_ok (rfl : drawCtx n s = .ok _ _), bind_ok hdraw]
  exact hk _ _ _ (h.dropCtx n)

theorem blind_drawWorkers {α : Type} {n : Nat} {k k' : Bool → Micro α} (hk : ∀ b, Blind (k b) (k' b)) :
    Blind (drawWorkers n >>= k) (drawWorkers n >>= k') := by
  intro s t h
  have hdraw : drawWorkers n t = .ok ((s.env.workerDraws.take n).any id) (t.dropWorkers n) := by rw [h.workerDraws]; rfl
  rw [bind_ok (rfl : drawWorkers n s = .ok _ _), bind_ok hdraw]
  exact hk _ _ _ (h.dropWorkers n)

theorem blind_ite {α : Type} {b : Bool} {m₁ m₁' m₂ m₂' : Micro α} (h₁ : Blind m₁ m₁') (h₂ : Blind m₂ m₂') :
    Blind (if b then m₁ else m₂) (if b then m₁' else m₂') := by
  cases b
  · exact h₂
  · exact h₁

/-! The primitives, the operands and the frames. -/

variable {G : Capability}

theorem blind_triv (b b' : Bool) : Blind (triv G b) (triv G b') :=
  blind_drawCtx fun _ => blind_ite (blind_raise _) (blind_pure _ _)

theorem blind_gate (k : GateKind) (a b a' b' : Ct) : Blind (gate G k a b) (gate G k a' b') :=
  blind_drawCtx fun _ => blind_ite (blind_raise _) (blind_pure _ _)

theorem blind_batch (q q' : BatchOp) : Blind (batch G q) (batch G q') :=
  blind_drawCtx fun _ => blind_drawWorkers fun _ =>
    blind_ite (blind_raise _) (blind_ite (blind_raise _) (blind_pure _ _))

theorem none_or_some_of_isSome_eq {α : Type} {a b : Option α} (h : a.isSome = b.isSome) :
    (a = none ∧ b = none) ∨ ∃ x y, a = some x ∧ b = some y := by
  cases a <;> cases b <;> simp_all

theorem blind_readElement {x : State → Option Word} (hx : ∀ {s t : State}, s.Alike t → (x s).isSome = (x t).isSome) :
    Blind (readElement x) (readElement x) := by
  intro s t h
  obtain ⟨hs, ht⟩ | ⟨w, w', hs, ht⟩ := none_or_some_of_isSome_eq (hx h)
  · rw [readElement_none hs, readElement_none ht]
    exact .error (h.takeFault _)
  · rw [readElement_some hs, readElement_some ht]
    exact .ok h

theorem blind_readR (k : Reg) : Blind (readR k) (readR k) := blind_readElement fun h => h.r k

theorem blind_readHS (k : Fin 8) : Blind (readHS k) (readHS k) := blind_readElement fun h => h.hs k

theorem blind_readBLK (k : Fin 16) : Blind (readBLK k) (readBLK k) := blind_readElement fun h => h.blk k

theorem blind_readW (k : Fin 64) : Blind (readW k) (readW k) := blind_readElement fun h => h.w k

theorem blind_readV (k : Fin 8) : Blind (readV k) (readV k) := blind_readElement fun h => h.v k

theorem blind_writeR (k : Reg) (w w' : Word) : Blind (writeR k w) (writeR k w') := blind_update fun h => h.setR k w w'

theorem blind_doutWordFrame (w w' : Word) : Blind (doutWordFrame w) (doutWordFrame w') := blind_update fun h => h.emit w w'

/-- Taking a frame: there or not, and of the wanted shape or not, in both runs. -/
theorem blind_takeFrame {α : Type} {shape : Frame → Option α}
    (hshape : ∀ {f g : Frame}, f.outline = g.outline → (shape f).isSome = (shape g).isSome) :
    Blind (takeFrame shape) (takeFrame shape) := by
  intro s t h
  unfold takeFrame
  cases hs : s.dinq with
  | nil => simpa only [h.dinq_nil.1 hs] using .error h
  | cons f q =>
    obtain ⟨g, q', ht, hfg, hq⟩ := h.dinq_cons hs
    have htaken := h.setDinq hq
    simp only [ht]
    obtain ⟨hf, hg⟩ | ⟨x, y, hf, hg⟩ := none_or_some_of_isSome_eq (hshape hfg)
    · simpa only [hf, hg] using .error (htaken.takeFault _)
    · simpa only [hf, hg] using .ok htaken

theorem blind_dinWordFrame : Blind dinWordFrame dinWordFrame :=
  blind_takeFrame fun h => by rw [Bool.eq_iff_iff, asWord_isSome, asWord_isSome, h]

theorem blind_dinBlockFrame : Blind dinBlockFrame dinBlockFrame :=
  blind_takeFrame fun h => by rw [Bool.eq_iff_iff, asBlock_isSome, asBlock_isSome, h]

/-! The word functions. -/

theorem blind_trivW (v : U32) : Blind (trivW G v) (trivW G v) := blind_collect fun _ => blind_triv _ _

theorem blind_shR (x x' : Word) (n : Nat) : Blind (shR G x n) (shR G x' n) :=
  blind_bind (blind_collect fun _ => blind_triv _ _) fun _ _ => blind_pure _ _

theorem blind_ssig0 (x x' : Word) : Blind (ssig0 G x) (ssig0 G x') :=
  blind_bind (blind_batch _ _) fun _ _ => blind_bind (blind_shR _ _ _) fun _ _ => blind_batch _ _

theorem blind_ssig1 (x x' : Word) : Blind (ssig1 G x) (ssig1 G x') :=
  blind_bind (blind_batch _ _) fun _ _ => blind_bind (blind_shR _ _ _) fun _ _ => blind_batch _ _

theorem blind_bsig0 (x x' : Word) : Blind (bsig0 G x) (bsig0 G x') :=
  blind_bind (blind_batch _ _) fun _ _ => blind_batch _ _

theorem blind_bsig1 (x x' : Word) : Blind (bsig1 G x) (bsig1 G x') :=
  blind_bind (blind_batch _ _) fun _ _ => blind_batch _ _

theorem blind_ch (x y z x' y' z' : Word) : Blind (ch G x y z) (ch G x' y' z') :=
  blind_bind (blind_batch _ _) fun _ _ => blind_bind (blind_batch _ _) fun _ _ =>
    blind_bind (blind_batch _ _) fun _ _ => blind_batch _ _

theorem blind_maj (x y z x' y' z' : Word) : Blind (maj G x y z) (maj G x' y' z') :=
  blind_bind (blind_batch _ _) fun _ _ => blind_bind (blind_batch _ _) fun _ _ =>
    blind_bind (blind_batch _ _) fun _ _ => blind_bind (blind_batch _ _) fun _ _ => blind_batch _ _

theorem blind_carryFrom (p g p' g' : Word) : ∀ (m : Nat) (hm : m < 32) (c c' : Ct),
    Blind (carryFrom G p g m hm c) (carryFrom G p' g' m hm c')
  | 0, _, _, _ => blind_pure _ _
  | m + 1, _, _, _ => blind_bind (blind_update fun h => h.setCI _) fun _ _ => blind_bind (blind_gate _ _ _ _ _) fun _ _ =>
      blind_bind (blind_gate _ _ _ _ _) fun _ _ => blind_bind (blind_carryFrom p g p' g' m _ _ _) fun _ _ => blind_pure _ _

theorem blind_add (a b a' b' : Word) : Blind (add G a b) (add G a' b') :=
  blind_bind (blind_batch _ _) fun _ _ => blind_bind (blind_update fun h => h.setAP _ _) fun _ _ =>
    blind_bind (blind_batch _ _) fun _ _ => blind_bind (blind_update fun h => h.setAG _ _) fun _ _ =>
      blind_bind (blind_triv _ _) fun _ _ => blind_bind (blind_carryFrom _ _ _ _ _ _ _ _) fun _ _ =>
        blind_bind (blind_update fun h => h.setAC _ _) fun _ _ => blind_bind (blind_batch _ _) fun _ _ =>
          blind_bind (blind_update fun h => h.clearAdder) fun _ _ => blind_pure _ _

/-! The phases of COMPRESS. -/

theorem blind_copyBlockWord (i : Nat) : Blind (copyBlockWord i) (copyBlockWord i) :=
  blind_bind (blind_readBLK _) fun _ _ => blind_update fun h => h.setW _ _ _

theorem blind_scheduleStep (i : Nat) : Blind (scheduleStep G i) (scheduleStep G i) := by
  unfold scheduleStep
  exact blind_bind (blind_update fun h => h.setT _) fun _ _ => blind_bind (blind_readW _) fun _ _ =>
    blind_bind (blind_ssig1 _ _) fun _ _ => blind_bind (blind_readW _) fun _ _ => blind_bind (blind_add _ _ _ _) fun _ _ =>
    blind_bind (blind_readW _) fun _ _ => blind_bind (blind_ssig0 _ _) fun _ _ => blind_bind (blind_add _ _ _ _) fun _ _ =>
    blind_bind (blind_readW _) fun _ _ => blind_bind (blind_add _ _ _ _) fun _ _ => blind_update fun h => h.setW _ _ _

theorem blind_schedulePhase : Blind (schedulePhase G) (schedulePhase G) :=
  blind_bind (blind_forRange blind_copyBlockWord 16) fun _ _ => blind_forRange blind_scheduleStep 48

theorem blind_loadWorking (k : Nat) : Blind (loadWorking k) (loadWorking k) :=
  blind_bind (blind_readHS _) fun _ _ => blind_update fun h => h.setV _ _ _

theorem blind_roundStep (i : Nat) : Blind (roundStep G i) (roundStep G i) := by
  unfold roundStep
  exact blind_bind (blind_update fun h => h.setT _) fun _ _ => blind_bind (blind_collect blind_readV) fun _ _ =>
    blind_bind (blind_bsig1 _ _) fun _ _ => blind_bind (blind_add _ _ _ _) fun _ _ => blind_bind (blind_ch _ _ _ _ _ _) fun _ _ =>
    blind_bind (blind_add _ _ _ _) fun _ _ => blind_bind (blind_trivW _) fun _ _ => blind_bind (blind_add _ _ _ _) fun _ _ =>
    blind_bind (blind_readW _) fun _ _ => blind_bind (blind_add _ _ _ _) fun _ _ =>
    blind_bind (blind_update fun h => h.setT1 _ _) fun _ _ => blind_bind (blind_bsig0 _ _) fun _ _ =>
    blind_bind (blind_maj _ _ _ _ _ _) fun _ _ => blind_bind (blind_add _ _ _ _) fun _ _ =>
    blind_bind (blind_update fun h => h.setT2 _ _) fun _ _ => blind_bind (blind_add _ _ _ _) fun _ _ =>
    blind_bind (blind_add _ _ _ _) fun _ _ => blind_update fun h => h.setAllV _ _

theorem blind_roundPhase : Blind (roundPhase G) (roundPhase G) :=
  blind_bind (blind_forRange blind_loadWorking 8) fun _ _ => blind_forRange blind_roundStep 64

theorem blind_feedForwardWord (k : Fin 8) : Blind (feedForwardWord G k) (feedForwardWord G k) :=
  blind_bind (blind_update fun h => h.setT _) fun _ _ => blind_bind (blind_readHS k) fun _ _ =>
    blind_bind (blind_readV k) fun _ _ => blind_add _ _ _ _

theorem blind_feedForwardPhase : Blind (feedForwardPhase G) (feedForwardPhase G) :=
  blind_bind (blind_collect blind_feedForwardWord) fun _ _ => blind_bind (blind_update fun h => h.setHS _ _) fun _ _ =>
    blind_update fun h => h.clearRounds

theorem blind_compress : Blind (compress G) (compress G) :=
  blind_bind (blind_collect blind_readHS) fun _ _ => blind_bind (blind_collect blind_readBLK) fun _ _ =>
    blind_bind (blind_update fun h => h.setPhase _) fun _ _ => blind_bind blind_schedulePhase fun _ _ =>
    blind_bind (blind_update fun h => h.setPhase _) fun _ _ => blind_bind blind_roundPhase fun _ _ =>
    blind_bind (blind_update fun h => h.setPhase _) fun _ _ => blind_bind blind_feedForwardPhase fun _ _ =>
    blind_update fun h => h.setPhase _

/-! Transfers and HASH. -/

theorem blind_loadBlock : Blind loadBlock loadBlock :=
  blind_bind blind_dinBlockFrame fun _ _ => blind_update fun h => h.setBLK _ _

theorem blind_emitDigest : Blind emitDigest emitDigest :=
  blind_bind (blind_collect blind_readHS) fun _ _ => blind_forRange (fun _ => blind_doutWordFrame _ _) 8

theorem blind_initHash : Blind (initHash G) (initHash G) :=
  blind_bind (blind_collect fun _ => blind_trivW _) fun _ _ => blind_update fun h => h.setHS _ _

theorem blind_hashBlocks : ∀ n, Blind (hashBlocks G n) (hashBlocks G n)
  | 0 => blind_pure _ _
  | n + 1 => blind_bind (blind_update fun h => h.setPhase _) fun _ _ => blind_bind blind_loadBlock fun _ _ =>
      blind_bind blind_compress fun _ _ => blind_bind (blind_update fun h => h.countBlock) fun _ _ => blind_hashBlocks n

/-- Both runs have the same blocks left. -/
theorem blind_hashRest : Blind (hashRest G) (hashRest G) :=
  blind_get fun s t h => by
    rw [h.seq]
    exact blind_bind (blind_hashBlocks _) fun _ _ => blind_bind (blind_update fun h => h.setPhase _) fun _ _ =>
      blind_bind blind_emitDigest fun _ _ => blind_update fun h => h.setPhase _

theorem blind_hashAll (imm : U32) : Blind (hashAll G imm) (hashAll G imm) :=
  blind_bind (blind_update fun h => h.setBlkLeft _) fun _ _ => blind_bind (blind_update fun h => h.setPhase _) fun _ _ =>
    blind_bind blind_initHash fun _ _ => blind_hashRest

/-! Instructions. -/

/-- Both runs answer a next state, and the two are alike. -/
def NextAlike (o o' : Host.Outcome State Fault Refusal) : Prop := ∃ s t, o = .next s ∧ o' = .next t ∧ s.Alike t

theorem State.Alike.next {s t : State} (h : s.Alike t) : NextAlike (.next s) (.next t) := ⟨s, t, rfl, rfl, h⟩

theorem Blind.runCommand {m m' : Micro Unit} (hm : Blind m m') {s t : State} (h : s.Alike t) :
    NextAlike (runCommand m s) (runCommand m' t) := by
  have hend := hm s t h
  generalize hx : m s = x at hend
  generalize hy : m' t = y at hend
  cases hend with
  | ok h' =>
    rw [runCommand_ok hx, runCommand_ok hy]
    exact h'.complete.next
  | error h' =>
    rw [runCommand_error hx, runCommand_error hy]
    exact h'.next

/-- A register is written after all else: a command in one, two or three source registers is blind as its word function is. -/
theorem blind_one {f : Word → Micro Word} (hf : ∀ x x', Blind (f x) (f x')) (rd rs : Reg) :
    Blind (do let x ← readR rs; let w ← f x; writeR rd w) (do let x ← readR rs; let w ← f x; writeR rd w) :=
  blind_bind (blind_readR rs) fun _ _ => blind_bind (hf _ _) fun _ _ => blind_writeR rd _ _

theorem blind_two {f : Word → Word → Micro Word} (hf : ∀ x y x' y', Blind (f x y) (f x' y')) (rd rs1 rs2 : Reg) :
    Blind (do let x ← readR rs1; let y ← readR rs2; let w ← f x y; writeR rd w)
      (do let x ← readR rs1; let y ← readR rs2; let w ← f x y; writeR rd w) :=
  blind_bind (blind_readR rs1) fun _ _ => blind_bind (blind_readR rs2) fun _ _ =>
    blind_bind (hf _ _ _ _) fun _ _ => blind_writeR rd _ _

theorem blind_three {f : Word → Word → Word → Micro Word} (hf : ∀ x y z x' y' z', Blind (f x y z) (f x' y' z'))
    (rd rs1 rs2 rs3 : Reg) :
    Blind (do let x ← readR rs1; let y ← readR rs2; let z ← readR rs3; let w ← f x y z; writeR rd w)
      (do let x ← readR rs1; let y ← readR rs2; let z ← readR rs3; let w ← f x y z; writeR rd w) :=
  blind_bind (blind_readR rs1) fun _ _ => blind_bind (blind_readR rs2) fun _ _ => blind_bind (blind_readR rs3) fun _ _ =>
    blind_bind (hf _ _ _ _ _ _) fun _ _ => blind_writeR rd _ _

/-- HASH starts or goes on alike, as the phase says (R223). -/
theorem execHash_alike (imm : U32) {s t : State} (h : s.Alike t) : NextAlike (execHash imm s) (execHash imm t) := by
  unfold execHash
  rw [h.seq]
  split
  · exact blind_hashRest.runCommand h
  · exact (blind_hashAll imm).runCommand h

theorem exec_alike (i : Instr) {s t : State} (h : s.Alike t) : NextAlike (exec i s) (exec i t) := by
  cases i with
  | xorw rd rs1 rs2 =>
    exact (blind_two (f := fun a b => batch Config.G (.xor a b)) (fun _ _ _ _ => blind_batch _ _) rd rs1 rs2).runCommand h
  | andw rd rs1 rs2 =>
    exact (blind_two (f := fun a b => batch Config.G (.and a b)) (fun _ _ _ _ => blind_batch _ _) rd rs1 rs2).runCommand h
  | notw rd rs1 => exact (blind_one (f := fun a => batch Config.G (.not a)) (fun _ _ => blind_batch _ _) rd rs1).runCommand h
  | trivw rd imm => exact (blind_bind (blind_trivW imm) fun _ _ => blind_writeR rd _ _).runCommand h
  | rotr rd rs1 n => exact (blind_bind (blind_readR rs1) fun _ _ => blind_writeR rd _ _).runCommand h
  | shr rd rs1 n => exact (blind_one (fun x x' => blind_shR x x' n.toNat) rd rs1).runCommand h
  | ssig0 rd rs1 => exact (blind_one blind_ssig0 rd rs1).runCommand h
  | ssig1 rd rs1 => exact (blind_one blind_ssig1 rd rs1).runCommand h
  | bsig0 rd rs1 => exact (blind_one blind_bsig0 rd rs1).runCommand h
  | bsig1 rd rs1 => exact (blind_one blind_bsig1 rd rs1).runCommand h
  | ch rd rs1 rs2 rs3 => exact (blind_three blind_ch rd rs1 rs2 rs3).runCommand h
  | maj rd rs1 rs2 rs3 => exact (blind_three blind_maj rd rs1 rs2 rs3).runCommand h
  | add rd rs1 rs2 => exact (blind_two blind_add rd rs1 rs2).runCommand h
  | compress => exact blind_compress.runCommand h
  | hinit => exact blind_initHash.runCommand h
  | hash imm => exact execHash_alike imm h
  | ldw rd => exact (blind_bind blind_dinWordFrame fun _ _ => blind_writeR rd _ _).runCommand h
  | stw rs1 => exact (blind_bind (blind_readR rs1) fun _ _ => blind_doutWordFrame _ _).runCommand h
  | ldblk => exact blind_loadBlock.runCommand h
  | rdh => exact blind_emitDigest.runCommand h

/-! The step. -/

theorem runWord_alike (cw : CmdWord) {s t : State} (h : s.Alike t) : NextAlike (runWord cw s) (runWord cw t) := by
  unfold runWord
  cases decode cw with
  | none => exact (h.takeFault _).next
  | some i => exact exec_alike i h

/-- What an act of the host does, it does alike when its frame has other ciphertexts. -/
theorem hostAct_alike {e e' : HostEvent} (he : e'.outline = e.outline) {s t : State} (h : s.Alike t) :
    (hostAct e s).Alike (hostAct e' t) := by
  cases e with
  | command cw =>
    obtain rfl := outline_eq_command.1 he
    exact h
  | frame f =>
    obtain ⟨g, rfl, hg⟩ := outline_eq_frame.1 he
    exact h.setDinq (by simp [h.dinq, hg])
  | reset =>
    obtain rfl := outline_eq_reset.1 he
    exact h.resetEvent
  | resetDuring m =>
    obtain rfl := outline_eq_resetDuring.1 he
    exact h.resetEvent

theorem hostNext_alike {s t : State} (h : s.Alike t) : (hostNext s).Alike (hostNext t) := by
  unfold hostNext
  cases hs : s.env.host with
  | nil => rwa [h.host_nil hs]
  | cons e es =>
    obtain ⟨e', es', ht, he, hes⟩ := h.host_cons hs
    rw [ht]
    exact hostAct_alike he (h.setHost hes)

/-- How many draws are left depends on whether a frame is out, not on what it holds. -/
theorem drawsLeft_of_length {frames frames' : List Word} (h : frames.length = frames'.length) (n : Nat) (before after : List Bool) :
    drawsLeft frames n before after = drawsLeft frames' n before after := by
  have hempty : frames.isEmpty = frames'.isEmpty := by
    rw [Bool.eq_iff_iff, List.isEmpty_iff_length_eq_zero, h, ← List.isEmpty_iff_length_eq_zero]
  rw [drawsLeft, drawsLeft, hempty]

theorem abandon_alike {s t s' t' : State} (h : s.Alike t) (h' : s'.Alike t') (m : Moment) {es es' : List HostEvent}
    (hes : es.map HostEvent.outline = es'.map HostEvent.outline) : (abandon s s' m es).Alike (abandon t t' m es') := by
  have hframes : ((s'.env.dout.drop s.env.dout.length).take m.emitted).length =
      ((t'.env.dout.drop t.env.dout.length).take m.emitted).length := by simp [h.dout, h'.dout]
  refine State.Alike.resetEvent { h with host := hes, dout := ?_, ctxDraws := ?_, workerDraws := ?_ }
  · rw [List.length_append, List.length_append, hframes, h.dout]
  · simp only [drawsLeft_of_length hframes, h.ctxDraws, h'.ctxDraws]
  · simp only [drawsLeft_of_length hframes, h.workerDraws, h'.workerDraws]

/-- A reset strikes both runs or neither, and at the same moment (R301). -/
theorem work_alike (cw : CmdWord) {s t : State} (h : s.Alike t) : NextAlike (work cw s) (work cw t) := by
  have hrun := runWord_alike cw h
  unfold work
  cases hs : s.env.host with
  | nil => rwa [h.host_nil hs]
  | cons e es =>
    obtain ⟨e', es', ht, he, hes⟩ := h.host_cons hs
    rw [ht]
    cases e with
    | command cw' =>
      obtain rfl := outline_eq_command.1 he
      exact hrun
    | frame f =>
      obtain ⟨g, rfl, -⟩ := outline_eq_frame.1 he
      exact hrun
    | reset =>
      obtain rfl := outline_eq_reset.1 he
      exact hrun
    | resetDuring m =>
      obtain rfl := outline_eq_resetDuring.1 he
      obtain ⟨s', t', hs', ht', h'⟩ := hrun
      simp only [hs', ht']
      exact (abandon_alike h h' m hes).next

/-- IDLE: a command word is accepted in both runs or in neither (R59). -/
theorem stepIdle_alike {s t : State} (h : s.Alike t) (hidle : s.status.state = .idle) : NextAlike (step s) (step t) := by
  have hidle' : t.status.state = .idle := h.status ▸ hidle
  have hnext := (hostNext_alike h).next
  simp only [step, stepState, hidle, hidle']
  cases hs : s.env.host with
  | nil => rwa [h.host_nil hs]
  | cons e es =>
    obtain ⟨e', es', ht, he, hes⟩ := h.host_cons hs
    rw [ht]
    cases e with
    | command cw =>
      obtain rfl := outline_eq_command.1 he
      exact work_alike cw ((h.setHost hes).accept cw)
    | frame f =>
      obtain ⟨g, rfl, -⟩ := outline_eq_frame.1 he
      exact hnext
    | reset =>
      obtain rfl := outline_eq_reset.1 he
      exact hnext
    | resetDuring m =>
      obtain rfl := outline_eq_resetDuring.1 he
      exact hnext

theorem step_alike {s t : State} (h : s.Alike t) : NextAlike (step s) (step t) := by
  have hnext := (hostNext_alike h).next
  cases hst : s.status.state with
  | idle => exact stepIdle_alike h hst
  | busy =>
    have hst' : t.status.state = .busy := h.status ▸ hst
    simp only [step, stepState, hst, hst', h.dinq_nil]
    split
    · exact hnext
    · exact h.seq ▸ work_alike s.seq.cmd h
  | fatal =>
    have hst' : t.status.state = .fatal := h.status ▸ hst
    simpa only [step, stepState, hst, hst'] using hnext

/-- Settles O60: instructions command by command from `Blind`, steps by the state of the sequencer and the host's next act. -/
theorem ciphertextsUnobserved : Obligations.CiphertextsUnobserved := by
  unfold Obligations.CiphertextsUnobserved
  exact ⟨fun i _ _ h => exec_alike i h, fun _ _ h => step_alike h⟩

end Sys2Proof.Machine
end

section
/-!
PROOF. What a whole step can do, said once, and what it makes of the invariant, of STATUS and of FCMD
(R33 to R36, R39, R61, R269, R301).
-/

namespace Sys2Proof.Machine

/-! The host's acts. -/

/-- The reset event as the host may cause it, in the middle of work or not (R300, R301). -/
def HostEvent.IsReset (e : HostEvent) : Prop := e = .reset ∨ ∃ m, e = .resetDuring m

theorem setHost_self {s : State} {es : List HostEvent} (h : s.env.host = es) : s.setHost es = s := by
  subst h
  rfl

/-- How the host's next act can leave a machine that takes no command: with a frame more or the host's list shorter
at most, or as after reset. -/
theorem hostNext_cases (s : State) :
    (∃ q es, hostNext s = (s.setHost es).setDinq q) ∨
      ∃ e es, s.env.host = e :: es ∧ e.IsReset ∧ hostNext s = (s.setHost es).resetEvent := by
  unfold hostNext
  cases hs : s.env.host with
  | nil => exact .inl ⟨s.dinq, [], by rw [setHost_self hs]; rfl⟩
  | cons e es =>
    cases e with
    | command cw => exact .inl ⟨s.dinq, es, rfl⟩
    | frame f => exact .inl ⟨s.dinq ++ [f], es, rfl⟩
    | reset => exact .inr ⟨_, es, rfl, .inl rfl, rfl⟩
    | resetDuring m => exact .inr ⟨_, es, rfl, .inr ⟨m, rfl⟩, rfl⟩

/-! The cases of a step. -/

/-- The state in which the sequencer begins its work on a command word: in IDLE the word is accepted, in BUSY the held
command goes on, with a frame there (R59, R61). -/
inductive State.Begins (s : State) (cw : CmdWord) : State → Prop where
  | accepted (es : List HostEvent) (hidle : s.status.state = .idle) (hhost : s.env.host = .command cw :: es) :
    s.Begins cw ((s.setHost es).accept cw)
  | resumed (hbusy : s.status.state = .busy) (hcmd : s.seq.cmd = cw) (hframe : s.dinq ≠ []) : s.Begins cw s

/-- What one step can do. -/
inductive Stepped (s t : State) : Prop where
  /-- The host acts, the sequencer taking no command. -/
  | host (hidle : s.status.state = .idle → ∀ cw es, s.env.host ≠ .command cw :: es)
      (hbusy : s.status.state = .busy → s.dinq = []) (ht : t = hostNext s)
  /-- The sequencer works on a command word to its end, its fault or its wait. -/
  | ran (cw : CmdWord) (u : State) (hu : s.Begins cw u) (ht : runWord cw u = .next t)
  /-- A reset strikes in the middle of the work. -/
  | struck (cw : CmdWord) (u v : State) (hu : s.Begins cw u) (ht : t = v.resetEvent)

theorem stepped_of_work {s t u : State} {cw : CmdWord} (hu : s.Begins cw u) (h : work cw u = .next t) : Stepped s t := by
  unfold work at h
  split at h
  · split at h
    · cases h
      exact .struck cw u _ hu rfl
    · cases h
    · cases h
  · exact .ran cw u hu h

/-- Every step is one of these. -/
theorem step_stepped {s t : State} (h : step s = .next t) : Stepped s t := by
  unfold step stepState at h
  cases hst : s.status.state with
  | idle =>
    simp only [hst] at h
    split at h
    · next cw es hs => exact stepped_of_work (.accepted es hst hs) h
    · next hs =>
      cases h
      exact .host (fun _ => hs) (by simp [hst]) rfl
  | busy =>
    simp only [hst] at h
    split at h
    · next hd =>
      cases h
      exact .host (by simp [hst]) (fun _ => hd) rfl
    · next hd => exact stepped_of_work (.resumed hst rfl hd) h
  | fatal =>
    simp only [hst] at h
    cases h
    exact .host (by simp [hst]) (by simp [hst]) rfl

theorem runWord_cases {cw : CmdWord} {s t : State} (h : runWord cw s = .next t) :
    (∃ i, decode cw = some i ∧ Ending i s t) ∨ (decode cw = none ∧ t = s.takeFault .fIllegal) := by
  unfold runWord at h
  cases hd : decode cw with
  | none => simp only [hd] at h; cases h; exact .inr ⟨rfl, rfl⟩
  | some i => simp only [hd] at h; exact .inl ⟨i, rfl, exec_ending h⟩

theorem State.Begins.busy {s u : State} {cw : CmdWord} (h : s.Begins cw u) : u.status.state = .busy := by
  cases h with
  | accepted es hidle hhost => rfl
  | resumed hbusy hcmd hframe => exact hbusy

theorem State.Begins.cmd {s u : State} {cw : CmdWord} (h : s.Begins cw u) : u.seq.cmd = cw := by
  cases h with
  | accepted es hidle hhost => rfl
  | resumed hbusy hcmd hframe => exact hcmd


/-! How an instruction ends, said with less than `Ending`. -/

theorem allOrNone_filled {n : Nat} (ws : Vector Word n) : AllOrNone (filled ws) := .inr fun k => by simp

/-- What every instruction's work keeps, whatever the instruction, up to the line with which it ends. -/
structure Worked (s u : State) : Prop where
  status : u.status = s.status
  fcmd : u.fcmd = s.fcmd
  cmd : u.seq.cmd = s.seq.cmd
  host : u.env.host = s.env.host
  hs : AllOrNone s.hs → AllOrNone u.hs
  blk : AllOrNone s.blk → AllOrNone u.blk

theorem HashRun.worked {s u : State} (h : HashRun s u) : Worked s u := ⟨h.status, h.fcmd, h.cmd, h.host, h.hs', h.blk⟩

/-- The line with which an instruction's work ends: it completes, it waits, or it raises a fault (R34, R35, R61).
Unless it faults, the scratch storage is `empty` again (R29). -/
inductive Concludes (s t : State) : Prop where
  | completed (u : State) (h : Worked s u) (hsc : s.scratch = Scratch.empty → u.scratch = Scratch.empty) (ht : t = u.complete)
  | waits (h : Worked s t) (hsc : s.scratch = Scratch.empty → t.scratch = Scratch.empty)
  | faulted (c : FaultCode) (u : State) (h : Worked s u) (ht : t = u.takeFault c)

theorem Ending.concludes {i : Instr} {s t : State} (h : Ending i s t) : Concludes s t := by
  have hself : Worked s s := ⟨rfl, rfl, rfl, rfl, id, id⟩
  cases h with
  | wrote rd w u hd h ht => exact .completed (u.setR rd w) { h.inside.hashRun.worked with } (h.scratch ▸ id) ht
  | added rd rs1 rs2 w u hi h ht =>
    obtain ⟨hin, hsc⟩ := h
    exact .completed (u.setR rd w) { hin.hashRun.worked with } (fun h0 => hsc.trans (by rw [h0]; rfl)) ht
  | loaded rd w f q hi hd ht => exact .completed ((s.setDinq q).setR rd w) { hself with } id ht
  | stored rs1 w hi ht => exact .completed (s.emit w) { hself with } id ht
  | blockLoaded b f q hi hd ht =>
    exact .completed ((s.setDinq q).setBLK b) { hself with blk := fun _ => allOrNone_filled b } id ht
  | emitted ws hi hs ht =>
    refine .completed _ ?_ ?_ ht
    · exact { hself with }
    · exact id
  | initialised n u hi h ht =>
    exact .completed (u.setHS n) { h.inside.hashRun.worked with hs := fun _ => allOrNone_filled n } (h.scratch ▸ id) ht
  | compressed u hi h ht => exact .completed u h.hashRun.worked (fun _ => h.scratch) ht
  | hashed imm u ws hi h hs hsc ht =>
    refine .completed _ ?_ ?_ ht
    · exact { h.worked with }
    · exact fun h0 => hsc.elim (·.trans h0) id
  | waits hi hd ht =>
    subst ht
    exact .waits hself id
  | hashWaits imm hi h hsc hp hl hle hpres hd => exact .waits h.worked fun h0 => hsc.elim (·.trans h0) id
  | faulted c u hi h hc ht => exact .faulted c u h.inside.hashRun.worked ht
  | frameFaulted f q hi hd ht => exact .faulted .fShape (s.setDinq q) { hself with } ht
  | faultedInside c u hi h hc ht => exact .faulted c u h.hashRun.worked ht
  | hashFaulted imm c u hi h hc ht => exact .faulted c u h.worked ht

/-- A command word's work ends like an instruction's, also where the word decodes to none (R265). -/
theorem runWord_concludes {cw : CmdWord} {s t : State} (h : runWord cw s = .next t) : Concludes s t := by
  obtain ⟨i, -, h⟩ | ⟨-, rfl⟩ := runWord_cases h
  · exact h.concludes
  · exact .faulted .fIllegal s ⟨rfl, rfl, rfl, rfl, id, id⟩ rfl

/-- A fault records the command word in execution (R35). -/
theorem Concludes.fcmd_of_fatal {s t : State} (h : Concludes s t) (hs : s.status.state ≠ .fatal) (ht : t.status.state = .fatal) :
    t.fcmd = s.seq.cmd := by
  cases h with
  | completed u h hsc ht' => rw [ht'] at ht; cases ht
  | waits h hsc => exact absurd (h.status ▸ ht) hs
  | faulted c u h ht' => rw [ht']; exact h.cmd

/-- Without a fault, FAULT and FCMD are as they were. -/
theorem Concludes.fault_of_not_fatal {s t : State} (h : Concludes s t) (ht : t.status.state ≠ .fatal) :
    t.status.fault = s.status.fault ∧ t.fcmd = s.fcmd := by
  cases h with
  | completed u h hsc ht' => rw [ht', ← h.status]; exact ⟨rfl, h.fcmd⟩
  | waits h hsc => exact ⟨congrArg Status.fault h.status, h.fcmd⟩
  | faulted c u h ht' => rw [ht'] at ht; exact absurd rfl ht

theorem Concludes.host {s t : State} (h : Concludes s t) : t.env.host = s.env.host := by
  cases h with
  | completed u h hsc ht => rw [ht]; exact h.host
  | waits h hsc => exact h.host
  | faulted c u h ht => rw [ht]; exact h.host

/-- The registers after an instruction: as they were, or with a word in the destination (R24, R26). -/
theorem Ending.registers {i : Instr} {s t : State} (h : Ending i s t) :
    t.r = s.r ∨ ∃ rd w, i.dest = some rd ∧ t.r = s.r.set rd.val (some w) := by
  cases h with
  | wrote rd w u hd h ht => exact .inr ⟨rd, w, hd, by rw [ht, ← h.inside.r]; rfl⟩
  | added rd rs1 rs2 w u hi h ht => exact .inr ⟨rd, w, by rw [hi]; rfl, by rw [ht, ← h.1.r]; rfl⟩
  | loaded rd w f q hi hd ht => exact .inr ⟨rd, w, by rw [hi]; rfl, by rw [ht]; rfl⟩
  | stored rs1 w hi ht => exact .inl (by rw [ht]; rfl)
  | blockLoaded b f q hi hd ht => exact .inl (by rw [ht]; rfl)
  | emitted ws hi hs ht => exact .inl (by rw [ht]; rfl)
  | initialised n u hi h ht => exact .inl (by rw [ht]; exact h.inside.r)
  | compressed u hi h ht => exact .inl (by rw [ht]; exact h.r)
  | hashed imm u ws hi h hs hsc ht => exact .inl (by rw [ht]; exact h.r)
  | waits hi hd ht => exact .inl (by rw [ht])
  | hashWaits imm hi h hsc hp hl hle hpres hd => exact .inl h.r
  | faulted c u hi h hc ht => exact .inl (by rw [ht]; exact h.inside.r)
  | frameFaulted f q hi hd ht => exact .inl (by rw [ht]; rfl)
  | faultedInside c u hi h hc ht => exact .inl (by rw [ht]; exact h.r)
  | hashFaulted imm c u hi h hc ht => exact .inl (by rw [ht]; exact h.r)

/-- What an instruction leaves of the storage but for the registers, by what it is not (R20, R27, R28, R62). -/
structure StorageKept (i : Instr) (s t : State) : Prop where
  hs : i ≠ .hinit → i ≠ .compress → t.hs = s.hs
  blk : i ≠ .ldblk → t.blk = s.blk
  dout : (∀ rs1, i ≠ .stw rs1) → i ≠ .rdh → t.env.dout = s.env.dout
  dinq : (∀ rd, i ≠ .ldw rd) → i ≠ .ldblk → t.dinq = s.dinq
  scratch : (∀ rd rs1 rs2, i ≠ .add rd rs1 rs2) → i ≠ .compress → t.scratch = s.scratch

/-- HASH is left out: it writes all of it. -/
theorem Ending.storageKept {i : Instr} {s t : State} (h : Ending i s t) (hnot : ∀ imm, i ≠ .hash imm) : StorageKept i s t := by
  cases h with
  | wrote rd w u hd h ht =>
    have hin := h.inside
    subst ht
    exact ⟨fun _ _ => hin.hs, fun _ => hin.blk, fun _ _ => hin.dout, fun _ _ => hin.dinq, fun _ _ => h.scratch⟩
  | added rd rs1 rs2 w u hi h ht =>
    obtain ⟨hin, -⟩ := h
    subst ht
    exact ⟨fun _ _ => hin.hs, fun _ => hin.blk, fun _ _ => hin.dout, fun _ _ => hin.dinq, fun h _ => absurd hi (h rd rs1 rs2)⟩
  | loaded rd w f q hi hd ht =>
    subst ht
    exact ⟨fun _ _ => rfl, fun _ => rfl, fun _ _ => rfl, fun h _ => absurd hi (h rd), fun _ _ => rfl⟩
  | stored rs1 w hi ht =>
    subst ht
    exact ⟨fun _ _ => rfl, fun _ => rfl, fun h _ => absurd hi (h rs1), fun _ _ => rfl, fun _ _ => rfl⟩
  | blockLoaded b f q hi hd ht =>
    subst ht
    exact ⟨fun _ _ => rfl, fun h => absurd hi h, fun _ _ => rfl, fun _ h => absurd hi h, fun _ _ => rfl⟩
  | emitted ws hi hs ht =>
    subst ht
    exact ⟨fun _ _ => rfl, fun _ => rfl, fun _ h => absurd hi h, fun _ _ => rfl, fun _ _ => rfl⟩
  | initialised n u hi h ht =>
    have hin := h.inside
    subst ht
    exact ⟨fun h => absurd hi h, fun _ => hin.blk, fun _ _ => hin.dout, fun _ _ => hin.dinq, fun _ _ => h.scratch⟩
  | compressed u hi h ht =>
    subst ht
    exact ⟨fun _ h => absurd hi h, fun _ => h.blk, fun _ _ => h.dout, fun _ _ => h.dinq, fun _ h => absurd hi h⟩
  | hashed imm u ws hi h hs hsc ht => exact absurd hi (hnot imm)
  | waits hi hd ht =>
    subst ht
    exact ⟨fun _ _ => rfl, fun _ => rfl, fun _ _ => rfl, fun _ _ => rfl, fun _ _ => rfl⟩
  | hashWaits imm hi h hsc hp hl hle hpres hd => exact absurd hi (hnot imm)
  | faulted c u hi h hc ht =>
    have hin := h.inside
    subst ht
    exact ⟨fun _ _ => hin.hs, fun _ => hin.blk, fun _ _ => hin.dout, fun _ _ => hin.dinq, fun _ _ => h.scratch⟩
  | frameFaulted f q hi hd ht =>
    subst ht
    exact ⟨fun _ _ => rfl, fun _ => rfl, fun _ _ => rfl,
      fun h h' => hi.elim (fun ⟨rd, hrd⟩ => absurd hrd (h rd)) (fun hb => absurd hb h'), fun _ _ => rfl⟩
  | faultedInside c u hi h hc ht =>
    subst ht
    exact ⟨fun _ _ => h.hs, fun _ => h.blk, fun _ _ => h.dout, fun _ _ => h.dinq,
      fun ha hc => hi.elim (absurd · hc) fun ⟨rd, rs1, rs2, hadd⟩ => absurd hadd (ha rd rs1 rs2)⟩
  | hashFaulted imm c u hi h hc ht => exact absurd hi (hnot imm)

/-- Settles O55: the registers change in the destination only, by the ways an instruction can end. -/
theorem registersFrame : Obligations.RegistersFrame := by
  intro i s t k h hk
  obtain hr | ⟨rd, w, hd, hr⟩ := (exec_ending h).registers
  · rw [hr]
  · have hne : rd.val ≠ k.val := fun heq => hk (by rw [hd, Fin.ext heq])
    rw [hr]
    exact Vector.getElem_set_ne rd.isLt k.isLt hne

/-- Settles O56: `Ending.storageKept` for the storage, and the line with which an instruction ends for STATUS, FCMD and the host. -/
theorem storageFrame : Obligations.StorageFrame := by
  intro i s t h
  have hend := exec_ending h
  exact ⟨fun h1 h2 hn => (hend.storageKept hn).hs h1 h2, fun h1 hn => (hend.storageKept hn).blk h1,
    fun h1 h2 hn => (hend.storageKept hn).dout h1 h2, fun h1 h2 hn => (hend.storageKept hn).dinq h1 h2,
    fun h1 h2 hn => (hend.storageKept hn).scratch h1 h2, hend.concludes.fault_of_not_fatal, hend.concludes.host⟩

/-! The invariant. -/

/-- What is known of the machine where the sequencer begins its work on a command word, new or held. -/
structure State.Working (s : State) : Prop where
  busy : s.status.state = .busy
  fault : s.status.fault = none
  fcmd : s.fcmd = 0
  scratch : s.scratch = Scratch.empty
  seq : s.seq = { Seq.idle with cmd := s.seq.cmd } ∨ s.Held
  hs : AllOrNone s.hs
  blk : AllOrNone s.blk

theorem State.Inv.fault_none {s : State} (hs : s.Inv) (h : s.status.state ≠ .fatal) : s.status.fault = none := by
  rw [← Option.not_isSome_iff_eq_none, hs.fault_iff_fatal]
  exact h

theorem State.Begins.working {s u : State} {cw : CmdWord} (h : s.Begins cw u) (hs : s.Inv) : u.Working := by
  have hlive : s.status.state ≠ .fatal := by
    cases h with
    | accepted es hidle hhost => simp [hidle]
    | resumed hbusy hcmd hframe => simp [hbusy]
  have hfault := hs.fault_none hlive
  cases h with
  | accepted es hidle hhost =>
    exact ⟨rfl, hfault, hs.fcmd_zero hfault, hs.scratch_empty hlive, .inl rfl, hs.hs_group, hs.blk_group⟩
  | resumed hbusy hcmd hframe =>
    exact ⟨hbusy, hfault, hs.fcmd_zero hfault, hs.scratch_empty hlive, .inr (hs.busy_held hbusy), hs.hs_group, hs.blk_group⟩

/-- A command left waiting is held (R61): LDW and LDBLK as they began, HASH in phase LOAD with blocks left. -/
theorem Ending.held {i : Instr} {s t : State} (h : Ending i s t) (hi : decode s.seq.cmd = some i) (hs : s.Working)
    (ht : t.status.state = .busy) : t.Held := by
  have hphase : s.seq.phase = .load → s.Held := fun hp => hs.seq.resolve_left fun h0 => by rw [h0] at hp; cases hp
  cases h
  case waits hw hd hts =>
    subst hts
    refine hs.seq.elim (fun hseq => ?_) id
    obtain ⟨rd, rfl⟩ | rfl := hw
    · exact .inl ⟨rd, hi, hseq⟩
    · exact .inr (.inl ⟨hi, hseq⟩)
  case hashWaits imm hh h hsc hp hl hle hpres hd =>
    subst hh
    refine .inr (.inr ⟨imm, h.cmd ▸ hi, hp, hl, ?_⟩)
    by_cases hload : s.seq.phase = .load
    · rw [if_pos hload] at hle
      obtain ⟨rd, hrd, -⟩ | ⟨hblk, -⟩ | ⟨imm', himm, -, -, hle', hpres'⟩ := hphase hload
      · rw [hi] at hrd; cases hrd
      · rw [hi] at hblk; cases hblk
      · rw [hi] at himm; cases himm
        exact ⟨BitVec.le_trans hle hle', h.hs hpres'⟩
    · rw [if_neg hload] at hle
      exact ⟨hle, hpres.resolve_left hload⟩
  all_goals
    subst_vars
    cases ht

theorem runWord_held {cw : CmdWord} {s t : State} (h : runWord cw s = .next t) (hcw : s.seq.cmd = cw) (hs : s.Working)
    (ht : t.status.state = .busy) : t.Held := by
  obtain ⟨i, hi, hend⟩ | ⟨-, rfl⟩ := runWord_cases h
  · exact hend.held (hcw ▸ hi) hs ht
  · cases ht

/-- The work of a command leaves the invariant, however it concludes. -/
theorem Concludes.inv {s t : State} (h : Concludes s t) (hs : s.Working) (hheld : t.status.state = .busy → t.Held) : t.Inv := by
  cases h with
  | completed u h hsc ht =>
    subst ht
    have hfault : u.status.fault = none := (congrArg Status.fault h.status).trans hs.fault
    exact {
      fault_iff_fatal := by simp [hfault]
      fcmd_zero := fun _ => h.fcmd.trans hs.fcmd
      scratch_empty := fun _ => hsc hs.scratch
      seq_idle := fun _ => rfl
      busy_held := hheld
      hs_group := h.hs hs.hs
      blk_group := h.blk hs.blk }
  | waits h hsc =>
    have hbusy : t.status.state = .busy := (congrArg Status.state h.status).trans hs.busy
    exact {
      fault_iff_fatal := by simp [h.status, hs.fault, hs.busy]
      fcmd_zero := fun _ => h.fcmd.trans hs.fcmd
      scratch_empty := fun _ => hsc hs.scratch
      seq_idle := by simp [hbusy]
      busy_held := hheld
      hs_group := h.hs hs.hs
      blk_group := h.blk hs.blk }
  | faulted c u h ht =>
    subst ht
    exact {
      fault_iff_fatal := by simp
      fcmd_zero := by simp
      scratch_empty := by simp
      seq_idle := by simp
      busy_held := hheld
      hs_group := h.hs hs.hs
      blk_group := h.blk hs.blk }

theorem allOrNone_replicate_none (n : Nat) : AllOrNone (Vector.replicate n (none : Option Word)) := .inl fun k => by simp

/-- After the reset event the invariant holds, whatever was before (R39, R300). -/
theorem resetEvent_inv (s : State) : s.resetEvent.Inv where
  fault_iff_fatal := by simp
  fcmd_zero _ := rfl
  scratch_empty _ := rfl
  seq_idle _ := rfl
  busy_held := by simp
  hs_group := allOrNone_replicate_none 8
  blk_group := allOrNone_replicate_none 16

/-- The invariant does not speak of the frames to come or of the host. -/
theorem State.Inv.setQueues {s : State} (hs : s.Inv) (es : List HostEvent) (q : List Frame) : ((s.setHost es).setDinq q).Inv :=
  { hs with }

theorem hostNext_inv {s : State} (hs : s.Inv) : (hostNext s).Inv := by
  obtain ⟨q, es, h⟩ | ⟨e, es, -, -, h⟩ := hostNext_cases s
  · exact h ▸ hs.setQueues es q
  · exact h ▸ resetEvent_inv _

/-- Settles O19, by the cases of a step: the host's act, the sequencer's work, or a reset that cuts it off. -/
theorem stepKeepsInvariant : Obligations.StepKeepsInvariant := by
  intro s t hs h
  cases step_stepped h with
  | host hidle hbusy ht => exact ht ▸ hostNext_inv hs
  | ran cw u hu ht =>
    have hw := hu.working hs
    exact (runWord_concludes ht).inv hw (runWord_held ht hu.cmd hw)
  | struck cw u v hu ht => exact ht ▸ resetEvent_inv v

/-- Settles O2: the state after reset is what the reset event leaves. -/
theorem resetMeetsInvariant : Obligations.ResetMeetsInvariant := resetEvent_inv State.reset

/-! STATUS, FCMD, CFG and the values at reset. -/

/-- Settles O12, by the values of STATE and FAULT. -/
theorem statusWordFields : Obligations.StatusWordFields := by
  intro s hs
  have hport : s.statusPort.1 = Status.word ⟨s.status.state, s.status.fault⟩ := rfl
  rw [hport]
  cases hst : s.status.state with
  | idle => rw [hs.fault_none (by simp [hst])]; decide
  | busy => rw [hs.fault_none (by simp [hst])]; decide
  | fatal =>
    obtain ⟨c, hc⟩ := Option.isSome_iff_exists.1 (hs.fault_iff_fatal.2 hst)
    rw [hc]
    cases c <;> decide

/-- A step into FATAL records the word in execution: the one just accepted or the one held (R35). -/
theorem Stepped.fcmd_of_fatal {s t : State} (h : Stepped s t) (hs : s.status.state ≠ .fatal) (ht : t.status.state = .fatal) :
    (s.status.state = .idle ∧ ∃ es, s.env.host = .command t.fcmd :: es) ∨ (s.status.state = .busy ∧ t.fcmd = s.seq.cmd) := by
  cases h with
  | host hidle hbusy hts =>
    obtain ⟨q, es, h⟩ | ⟨e, es, -, -, h⟩ := hostNext_cases s
    · rw [hts, h] at ht; exact absurd ht hs
    · rw [hts, h] at ht; cases ht
  | ran cw u hu hrun =>
    have hcmd : t.fcmd = cw := ((runWord_concludes hrun).fcmd_of_fatal (by simp [hu.busy]) ht).trans hu.cmd
    cases hu with
    | accepted es hidle hhost => exact .inl ⟨hidle, es, hcmd ▸ hhost⟩
    | resumed hbusy hcw hframe => exact .inr ⟨hbusy, hcmd.trans hcw.symm⟩
  | struck cw u v hu hts => rw [hts] at ht; cases ht

/-- Where the sequencer takes no command, the host's act leaves STATUS and FCMD, or it is a reset. -/
theorem hostNext_status (s : State) : ((hostNext s).fcmd = s.fcmd ∧ (hostNext s).status = s.status) ∨
    (∃ e es, s.env.host = e :: es ∧ e.IsReset) ∧ (hostNext s).status.state = .idle ∧ (hostNext s).fcmd = 0 := by
  obtain ⟨q, es, h⟩ | ⟨e, es, hhost, he, h⟩ := hostNext_cases s
  · exact .inl (by rw [h]; exact ⟨rfl, rfl⟩)
  · exact .inr ⟨⟨e, es, hhost, he⟩, by rw [h]; exact ⟨rfl, rfl⟩⟩

/-- In FATAL only the host acts (R269). -/
theorem Stepped.eq_hostNext_of_fatal {s t : State} (h : Stepped s t) (hs : s.status.state = .fatal) : t = hostNext s := by
  have begins_not {cw u} (hu : s.Begins cw u) : False := by
    cases hu with
    | accepted es hidle hhost => rw [hs] at hidle; cases hidle
    | resumed hbusy hcmd hframe => rw [hs] at hbusy; cases hbusy
  cases h with
  | host hidle hbusy ht => exact ht
  | ran cw u hu ht => exact (begins_not hu).elim
  | struck cw u v hu ht => exact (begins_not hu).elim

/-- Settles O14: the invariant for FCMD without a fault, the sequencer's work for the fault, the host's acts for FATAL. -/
theorem fcmdRecordsWord : Obligations.FcmdRecordsWord :=
  ⟨fun _ hs => hs.fcmd_zero, fun _ _ h => (step_stepped h).fcmd_of_fatal,
    fun s _ h hs => (step_stepped h).eq_hostNext_of_fatal hs ▸ hostNext_status s⟩

/-- Settles O16, by the cases of a step. -/
theorem stateTransitions : Obligations.StateTransitions := by
  intro s t h
  have begun {cw u} (hu : s.Begins cw u) : (s.status.state = .idle ∧ ∃ es, s.env.host = .command cw :: es) ∨
      (s.status.state = .busy ∧ s.dinq ≠ []) := by
    cases hu with
    | accepted es hidle hhost => exact .inl ⟨hidle, es, hhost⟩
    | resumed hbusy hcmd hframe => exact .inr ⟨hbusy, hframe⟩
  cases step_stepped h with
  | host hidle hbusy ht =>
    subst ht
    obtain ⟨-, hsame⟩ | ⟨⟨e, es, hhost, he⟩, hidle', -⟩ := hostNext_status s
    · rw [hsame]
      exact ⟨fun h h' => absurd h h', fun h h' => absurd h h', fun h h' => absurd h h'⟩
    · exact ⟨fun _ h => absurd hidle' h, fun _ _ => .inr ⟨e, es, hhost, he, hidle'⟩,
        fun _ _ => ⟨⟨e, es, hhost, he⟩, hidle'⟩⟩
  | ran cw u hu ht => obtain ⟨hidle, es, hhost⟩ | ⟨hbusy, hframe⟩ := begun hu <;> simp [*]
  | struck cw u v hu ht => obtain ⟨hidle, es, hhost⟩ | ⟨hbusy, hframe⟩ := begun hu <;> simp [*]

/-- Settles O13: the port shows the constant `cfg` in every state. -/
theorem cfgWord : Obligations.CfgWord := fun s => by
  have hport : s.statusPort.2.2 = cfg := rfl
  rw [hport]
  decide

/-- Settles O1, element by element, and the tables by evaluation. -/
theorem resetValues : Obligations.ResetValues := by
  unfold Obligations.ResetValues
  refine ⟨?_, ?_, ?_, ?_, ?_, rfl, rfl, rfl, rfl, rfl, rfl, rfl, rfl, rfl, rfl, rfl, rfl, rfl, rfl, rfl, rfl, rfl, rfl⟩
  all_goals exact fun k => by simp [State.reset, Scratch.empty]

end Sys2Proof.Machine
end

section
/-!
PROOF. The register operands of an instruction: an `empty` source is F_SHAPE at once (R22), and what is written does not
depend on the destination (R23, R322).
-/

namespace Sys2Proof.Machine

/-! Sources. -/

/-- The work, from this state, is F_SHAPE with nothing done. -/
def ShapeFaults {α : Type} (s : State) (m : Micro α) : Prop := m s = .error .faulted (s.takeFault .fShape)

theorem ShapeFaults.runCommand {s : State} {m : Micro Unit} (h : ShapeFaults s m) :
    runCommand m s = .next (s.takeFault .fShape) := runCommand_error h

theorem shapeFaults_readR {α : Type} {s : State} {k : Reg} (hk : s.r[k] = none) (f : Word → Micro α) :
    ShapeFaults s (readR k >>= f) := bind_error (readR_empty hk)

/-- A source read first neither hides nor cures the fault of a later one. -/
theorem ShapeFaults.after_readR {α : Type} {s : State} (k : Reg) {f : Word → Micro α} (h : ∀ w, ShapeFaults s (f w)) :
    ShapeFaults s (readR k >>= f) := by
  cases hk : s.r[k] with
  | none => exact shapeFaults_readR hk f
  | some w => exact (bind_ok (readR_ok hk)).trans (h w)

theorem shapeFaults_one {s : State} {k rs1 : Reg} (hk : s.r[k] = none) (h : k ∈ [rs1]) (f : Word → Micro Unit) :
    ShapeFaults s (readR rs1 >>= f) := by
  obtain rfl := List.mem_singleton.1 h
  exact shapeFaults_readR hk f

theorem shapeFaults_two {s : State} {k rs1 rs2 : Reg} (hk : s.r[k] = none) (h : k ∈ [rs1, rs2]) (f : Word → Word → Micro Unit) :
    ShapeFaults s (readR rs1 >>= fun a => readR rs2 >>= f a) := by
  obtain rfl | h := List.mem_cons.1 h
  · exact shapeFaults_readR hk _
  · exact .after_readR rs1 fun a => shapeFaults_one hk h (f a)

theorem shapeFaults_three {s : State} {k rs1 rs2 rs3 : Reg} (hk : s.r[k] = none) (h : k ∈ [rs1, rs2, rs3])
    (f : Word → Word → Word → Micro Unit) :
    ShapeFaults s (readR rs1 >>= fun a => readR rs2 >>= fun b => readR rs3 >>= f a b) := by
  obtain rfl | h := List.mem_cons.1 h
  · exact shapeFaults_readR hk _
  · exact .after_readR rs1 fun a => shapeFaults_two hk h (f a)

/-- Settles O58, by the number of sources an instruction reads before it does anything else. -/
theorem emptySourceFaults : Obligations.EmptySourceFaults := by
  intro i s k h hk
  cases i with
  | xorw rd rs1 rs2 => exact (shapeFaults_two hk h _).runCommand
  | andw rd rs1 rs2 => exact (shapeFaults_two hk h _).runCommand
  | notw rd rs1 => exact (shapeFaults_one hk h _).runCommand
  | trivw rd imm => cases h
  | rotr rd rs1 n => exact (shapeFaults_one hk h _).runCommand
  | shr rd rs1 n => exact (shapeFaults_one hk h _).runCommand
  | ssig0 rd rs1 => exact (shapeFaults_one hk h _).runCommand
  | ssig1 rd rs1 => exact (shapeFaults_one hk h _).runCommand
  | bsig0 rd rs1 => exact (shapeFaults_one hk h _).runCommand
  | bsig1 rd rs1 => exact (shapeFaults_one hk h _).runCommand
  | ch rd rs1 rs2 rs3 => exact (shapeFaults_three hk h _).runCommand
  | maj rd rs1 rs2 rs3 => exact (shapeFaults_three hk h _).runCommand
  | add rd rs1 rs2 => exact (shapeFaults_two hk h _).runCommand
  | compress => cases h
  | hinit => cases h
  | hash imm => cases h
  | ldw rd => cases h
  | stw rs1 => exact (shapeFaults_one hk h _).runCommand
  | ldblk => cases h
  | rdh => cases h

/-! The destination. -/

/-- Work that leaves STATUS alone until it ends, and ends with a result, in a wait or with a fault. -/
abbrev Steady {α : Type} (m : Micro α) : Prop := Keeps True (fun s t => t.status = s.status) (fun _ _ => True) m

theorem steady_chains : Chains (fun s t : State => t.status = s.status) fun _ _ => True where
  refl _ := rfl
  trans h k := k.trans h
  back _ _ := trivial

theorem steady_bind {α β : Type} {m : Micro α} {f : α → Micro β} (hm : Steady m) (hf : ∀ a, Steady (f a)) : Steady (m >>= f) :=
  keeps_bind steady_chains hm hf

theorem steady_of_inside {α : Type} {m : Micro α} (h : Keeps True Inside (Caused fun _ => True) m) : Steady m :=
  h.weaken Inside.status fun _ => trivial

theorem steady_of_quiet {α : Type} {m : Micro α} (h : Keeps True Quiet (Caused fun _ => True) m) : Steady m :=
  steady_of_inside h.inside

theorem steady_batch (q : BatchOp) : Steady (batch Config.G q) := steady_of_quiet (keeps_batch trivial trivial q)

theorem steady_readR (k : Reg) : Steady (readR k) := keeps_readElement steady_chains (fun _ => trivial) _

theorem steady_dinWordFrame : Steady dinWordFrame := fun s =>
  post_frame (fun _ => ⟨trivial, rfl⟩) (fun _ _ _ _ _ => rfl) fun _ q _ _ => ⟨s.setDinq q, .fShape, rfl, trivial, rfl⟩

/-- The instruction is work that computes a word, whatever the destination, and then writes it there. -/
structure Computes (i : Instr) (m : Micro Word) : Prop where
  steady : Steady m
  exec_withDest : ∀ rd s, exec (i.withDest rd) s = runCommand (m >>= writeR rd) s

theorem computes_one {i : Instr} (rs1 : Reg) (f : Word → Micro Word) (hf : ∀ x, Steady (f x))
    (h : ∀ rd s, exec (i.withDest rd) s = runCommand (readR rs1 >>= fun x => f x >>= writeR rd) s) :
    Computes i (readR rs1 >>= f) :=
  ⟨steady_bind (steady_readR _) hf, fun rd s => by rw [bind_assoc]; exact h rd s⟩

theorem computes_two {i : Instr} (rs1 rs2 : Reg) (f : Word → Word → Micro Word) (hf : ∀ x y, Steady (f x y))
    (h : ∀ rd s, exec (i.withDest rd) s = runCommand (readR rs1 >>= fun x => readR rs2 >>= fun y => f x y >>= writeR rd) s) :
    Computes i (readR rs1 >>= fun x => readR rs2 >>= f x) :=
  computes_one rs1 _ (fun x => steady_bind (steady_readR _) (hf x)) fun rd s => by simp only [bind_assoc]; exact h rd s

theorem computes_three {i : Instr} (rs1 rs2 rs3 : Reg) (f : Word → Word → Word → Micro Word) (hf : ∀ x y z, Steady (f x y z))
    (h : ∀ rd s, exec (i.withDest rd) s =
      runCommand (readR rs1 >>= fun x => readR rs2 >>= fun y => readR rs3 >>= fun z => f x y z >>= writeR rd) s) :
    Computes i (readR rs1 >>= fun x => readR rs2 >>= fun y => readR rs3 >>= f x y) :=
  computes_two rs1 rs2 _ (fun x y => steady_bind (steady_readR _) (hf x y)) fun rd s => by simp only [bind_assoc]; exact h rd s

/-- Every instruction with a destination computes a word and writes it there (R23, R26). -/
theorem exists_computes {i : Instr} {rd : Reg} (hd : i.dest = some rd) : ∃ m, Computes i m := by
  cases i with
  | xorw _ rs1 rs2 =>
    exact ⟨_, computes_two rs1 rs2 (fun a b => batch Config.G (.xor a b)) (fun _ _ => steady_batch _) fun _ _ => rfl⟩
  | andw _ rs1 rs2 =>
    exact ⟨_, computes_two rs1 rs2 (fun a b => batch Config.G (.and a b)) (fun _ _ => steady_batch _) fun _ _ => rfl⟩
  | notw _ rs1 =>
    exact ⟨_, computes_one rs1 (fun a => batch Config.G (.not a)) (fun _ => steady_batch _) fun _ _ => rfl⟩
  | trivw _ imm => exact ⟨trivW Config.G imm, steady_of_quiet (keeps_trivW trivial imm), fun _ _ => rfl⟩
  | rotr _ rs1 n =>
    exact ⟨_, computes_one rs1 (fun x => pure (rotR x n.toNat)) (fun _ => keeps_pure steady_chains _) fun _ _ => rfl⟩
  | shr _ rs1 n =>
    exact ⟨_, computes_one rs1 (shR Config.G · n.toNat) (fun x => steady_of_quiet (keeps_shR trivial x _)) fun _ _ => rfl⟩
  | ssig0 _ rs1 =>
    exact ⟨_, computes_one rs1 (ssig0 Config.G) (fun x => steady_of_quiet (keeps_ssig0 trivial trivial x)) fun _ _ => rfl⟩
  | ssig1 _ rs1 =>
    exact ⟨_, computes_one rs1 (ssig1 Config.G) (fun x => steady_of_quiet (keeps_ssig1 trivial trivial x)) fun _ _ => rfl⟩
  | bsig0 _ rs1 =>
    exact ⟨_, computes_one rs1 (bsig0 Config.G) (fun x => steady_of_quiet (keeps_bsig0 trivial trivial x)) fun _ _ => rfl⟩
  | bsig1 _ rs1 =>
    exact ⟨_, computes_one rs1 (bsig1 Config.G) (fun x => steady_of_quiet (keeps_bsig1 trivial trivial x)) fun _ _ => rfl⟩
  | ch _ rs1 rs2 rs3 =>
    exact ⟨_, computes_three rs1 rs2 rs3 (ch Config.G) (fun x y z => steady_of_quiet (keeps_ch trivial trivial x y z)) fun _ _ => rfl⟩
  | maj _ rs1 rs2 rs3 =>
    exact ⟨_, computes_three rs1 rs2 rs3 (maj Config.G) (fun x y z => steady_of_quiet (keeps_maj trivial trivial x y z)) fun _ _ => rfl⟩
  | add _ rs1 rs2 =>
    exact ⟨_, computes_two rs1 rs2 (add Config.G) (fun x y => steady_of_inside (keeps_add trivial trivial x y)) fun _ _ => rfl⟩
  | ldw _ => exact ⟨dinWordFrame, steady_dinWordFrame, fun _ _ => rfl⟩
  | compress => cases hd
  | hinit => cases hd
  | hash imm => cases hd
  | stw rs1 => cases hd
  | ldblk => cases hd
  | rdh => cases hd

theorem withDest_of_dest {i : Instr} {rd : Reg} (h : i.dest = some rd) : i.withDest rd = i := by
  cases i <;> cases h <;> rfl

/-- Two destinations of one computed word: the runs end with the same status, and where they complete with the same word. -/
theorem Computes.destinations {i : Instr} {m : Micro Word} (hm : Computes i m) {s : State} (hs : s.status.state = .busy)
    (rd rd' : Reg) : ∃ t u, exec (i.withDest rd') s = .next t ∧ exec (i.withDest rd) s = .next u ∧ u.status = t.status ∧
      (t.status.state = .idle → u.r[rd] = t.r[rd']) := by
  rw [hm.exec_withDest, hm.exec_withDest]
  cases hms : m s with
  | ok w v =>
    have run (k : Reg) : runCommand (m >>= writeR k) s = .next (v.setR k w).complete := runCommand_ok (u := ()) (bind_ok hms)
    refine ⟨_, _, run rd', run rd, rfl, fun _ => ?_⟩
    simp
  | error e v =>
    have run (k : Reg) : runCommand (m >>= writeR k) s = .next v := runCommand_error (bind_error hms)
    refine ⟨v, v, run rd', run rd, rfl, fun hidle => ?_⟩
    have hstop := (hm.steady s).of_error hms
    cases e with
    | held =>
      obtain ⟨-, hv⟩ := hstop
      rw [hv, hs] at hidle
      cases hidle
    | faulted =>
      obtain ⟨x, c, -, -, rfl⟩ := hstop
      cases hidle

/-- Settles O57: the word is computed before the destination is named, so both runs write the same word. -/
theorem destinationMayBeSource : Obligations.DestinationMayBeSource := by
  intro i rd s t hs h hd
  obtain ⟨rd₀, hd₀⟩ := Option.isSome_iff_exists.1 hd
  obtain ⟨m, hm⟩ := exists_computes hd₀
  obtain ⟨t', u, ht', hu, hstatus, hword⟩ := hm.destinations hs rd rd₀
  rw [withDest_of_dest hd₀] at ht'
  obtain rfl := next_inj h ht'
  refine ⟨u, hu, hstatus, fun rd' hd' hidle => ?_⟩
  obtain rfl : rd₀ = rd' := Option.some.inj (hd₀.symm.trans hd')
  rw [hword hidle]
  exact ⟨rfl, fun _ _ => rfl⟩

end Sys2Proof.Machine
end

section
/-!
PROOF. How a command word comes to run, held commands, and what the host's acts leave (R59 to R61, R87, R269, R284):
one equation per way a step can go.
-/

namespace Sys2Proof

/-- Every instruction's command word selects the instruction's own row (R83, R90). -/
theorem row_of_instr (i : Instr) : Laws.Row.Statement i := by
  cases i with
  | xorw rd rs1 rs2 => exact Laws.Row.xorw rd rs1 rs2
  | andw rd rs1 rs2 => exact Laws.Row.andw rd rs1 rs2
  | notw rd rs1 => exact Laws.Row.notw rd rs1
  | trivw rd imm => exact Laws.Row.trivw rd imm
  | rotr rd rs1 n => exact Laws.Row.rotr rd rs1 n
  | shr rd rs1 n => exact Laws.Row.shr rd rs1 n
  | ssig0 rd rs1 => exact Laws.Row.ssig0 rd rs1
  | ssig1 rd rs1 => exact Laws.Row.ssig1 rd rs1
  | bsig0 rd rs1 => exact Laws.Row.bsig0 rd rs1
  | bsig1 rd rs1 => exact Laws.Row.bsig1 rd rs1
  | ch rd rs1 rs2 rs3 => exact Laws.Row.ch rd rs1 rs2 rs3
  | maj rd rs1 rs2 rs3 => exact Laws.Row.maj rd rs1 rs2 rs3
  | add rd rs1 rs2 => exact Laws.Row.add rd rs1 rs2
  | compress => exact Laws.Row.compress
  | hinit => exact Laws.Row.hinit
  | hash imm => exact Laws.Row.hash imm
  | ldw rd => exact Laws.Row.ldw rd
  | stw rs1 => exact Laws.Row.stw rs1
  | ldblk => exact Laws.Row.ldblk
  | rdh => exact Laws.Row.rdh

/-- The word of an instruction decodes to it, unless it is a SHR by more than 32 (R85, R87). -/
theorem decode_encode (i : Instr) : decode (encode i) = if i.wellFormed then some i else none := by
  obtain ⟨r, hr, hselects, hbuild⟩ := row_of_instr i
  rw [decode_of_selects hr hselects, hbuild]

/-- A command word is handed over whole (R56). -/
theorem tableWord_toNat (cw : CmdWord) : tableWord 64 cw.toNat = cw := by
  rw [tableWord, Nat.mod_eq_of_lt cw.isLt, BitVec.ofNat_toNat, BitVec.setWidth_eq]

end Sys2Proof

namespace Sys2Proof.Machine

/-! The equations of a step. -/

theorem runWord_of_decode {cw : CmdWord} {i : Instr} (h : decode cw = some i) (s : State) : runWord cw s = exec i s := by
  rw [runWord, h]

/-- No reset is about to strike the sequencer's work (R301). -/
abbrev State.Unstruck (s : State) : Prop := ∀ e ∈ s.env.host.head?, e.strikes = false

theorem work_of_unstruck {s : State} (h : s.Unstruck) (cw : CmdWord) : work cw s = runWord cw s := by
  unfold work
  split
  · next m es hhost => simp [State.Unstruck, hhost, HostEvent.strikes] at h
  · rfl

/-- Where the sequencer begins its work on a command word, the step is that work. -/
theorem State.Begins.step_eq_work {s u : State} {cw : CmdWord} (h : s.Begins cw u) : step s = work cw u := by
  cases h with
  | accepted es hidle hhost => simp only [step, stepState, hidle, hhost]
  | resumed hbusy hcmd hframe => simp only [step, stepState, hbusy, if_neg hframe, hcmd]

/-- Where nothing strikes that work and the word decodes, the step is the instruction. -/
theorem State.Begins.step_eq_exec {s u : State} {cw : CmdWord} {i : Instr} (h : s.Begins cw u) (hu : u.Unstruck)
    (hi : decode cw = some i) : step s = exec i u := by
  rw [h.step_eq_work, work_of_unstruck hu, runWord_of_decode hi]

/-- Where the sequencer has no command to take and none that can go on, the step is the host's act. -/
theorem step_eq_hostNext {s : State} (hidle : s.status.state = .idle → ∀ cw es, s.env.host ≠ .command cw :: es)
    (hbusy : s.status.state = .busy → s.dinq = []) : step s = .next (hostNext s) := by
  cases hst : s.status.state with
  | idle =>
    simp only [step, stepState, hst]
    split
    · next cw es hhost => exact absurd hhost (hidle hst cw es)
    · rfl
  | busy => simp only [step, stepState, hst, hbusy hst, if_true]
  | fatal => simp only [step, stepState, hst]

theorem hostNext_nil {s : State} (h : s.env.host = []) : hostNext s = s := by
  rw [hostNext, h]

theorem hostNext_cons {s : State} {e : HostEvent} {es : List HostEvent} (h : s.env.host = e :: es) :
    hostNext s = hostAct e (s.setHost es) := by
  rw [hostNext, h]

/-! The statements. -/

/-- Settles O8: with a frame there the work on the held word begins again; without one only the host could act. -/
theorem heldCommandResumes : Obligations.HeldCommandResumes := by
  intro s hbusy
  refine ⟨fun i hi hframe hhost => ?_, fun hdinq hhost => ?_⟩
  · exact (State.Begins.resumed hbusy rfl hframe).step_eq_exec hhost hi
  · rw [step_eq_hostNext (by simp [hbusy]) fun _ => hdinq, hostNext_nil hhost]

/-- Settles O5: acceptance begins the work on the word, and what it changes is seen element by element. -/
theorem stepRunsAcceptedCommand : Obligations.StepRunsAcceptedCommand := by
  intro s cw es i hidle hhost hes hi
  exact ⟨(State.Begins.accepted es hidle hhost).step_eq_exec hes hi, rfl, rfl, rfl, rfl, rfl, rfl, rfl, rfl, rfl⟩

/-- What is offered after the command does not strike it: such resets were dropped (assumption 7). -/
theorem strikes_head_dropWhile (es : List HostEvent) : ∀ e ∈ (es.dropWhile HostEvent.strikes).head?, e.strikes = false := by
  intro e he
  have hhead := List.head?_dropWhile_not HostEvent.strikes es
  rwa [Option.mem_def.1 he] at hhead

/-- Settles O6: the offered state is IDLE with the encoded word next, which decodes to the instruction. -/
theorem offeredWordRuns : Obligations.OfferedWordRuns := by
  intro s i hi
  rw [State.withFetchWord, tableWord_toNat]
  refine (State.Begins.accepted (s.env.host.dropWhile HostEvent.strikes) rfl rfl).step_eq_exec
    (strikes_head_dropWhile _) ?_
  rw [decode_encode, if_pos hi]

/-- Settles O9: the sequencer is not working, so the step is the host's act, the frame. -/
theorem framesWaitInOrder : Obligations.FramesWaitInOrder := by
  intro s f es hhost hbusy
  rw [step_eq_hostNext (by simp [hhost]) hbusy, hostNext_cons hhost]
  rfl

/-- Settles O10: out of IDLE the step is the host's act, and a command word is none on the CORE. -/
theorem commandNotAccepted : Obligations.CommandNotAccepted := by
  intro s cw es hhost hstate
  have hidle : s.status.state ≠ .idle := by
    obtain hfatal | ⟨hbusy, -⟩ := hstate <;> simp [*]
  have hdinq : s.status.state = .busy → s.dinq = [] := by
    obtain hfatal | ⟨-, hdinq⟩ := hstate <;> simp [*]
  rw [step_eq_hostNext (absurd · hidle) hdinq, hostNext_cons hhost]
  rfl

end Sys2Proof.Machine
end

section
/-!
PROOF. Command words stored as bytes, most significant byte first (R56).
-/

namespace Sys2Proof

/-- A stretch of a word and the byte below it are one stretch. -/
theorem append_byte_below (cw : CmdWord) (k n : Nat) :
    cw.extractLsb' (k + 8) n ++ cw.extractLsb' k 8 = cw.extractLsb' k (n + 8) :=
  BitVec.extractLsb'_append_extractLsb'_eq_extractLsb' rfl

/-- The eight bytes of a word, joined again, are the word (R56). -/
theorem cmdOfBytes_bytesOfCmd (cw : CmdWord) : cmdOfBytes (bytesOfCmd cw) = some cw := by
  simp only [bytesOfCmd, cmdOfBytes, append_byte_below]
  exact congrArg some BitVec.extractLsb'_eq_self

/-- Only eight bytes are a command word (R56, R80). -/
theorem length_of_cmdOfBytes {bs : List Byte} {cw : CmdWord} (h : cmdOfBytes bs = some cw) : bs.length = 8 := by
  unfold cmdOfBytes at h
  split at h
  · rfl
  · cases h

/-- Settles O24: joining the bytes gives the word back, and nothing but eight bytes can be joined. -/
theorem storedBytesDecode : Obligations.StoredBytesDecode := by
  refine ⟨fun cw => ?_, by decide, fun bs hlength => ?_⟩
  · rw [decodeBytes, cmdOfBytes_bytesOfCmd, Option.bind_some]
  · have hnone : cmdOfBytes bs = none := Option.eq_none_iff_forall_ne_some.2 fun _ h => hlength (length_of_cmdOfBytes h)
    rw [decodeBytes, hnone, Option.bind_none]

end Sys2Proof
end

section
/-!
PROOF. A batch at the granularity of its workers gives the word of the atomic batch (R69, R117): each lane writes its own
slot, the same whenever it is evaluated, and a schedule evaluates every lane.
-/

namespace Sys2Proof.Machine

/-- A lane's slot holds the lane's gate once the lane has been evaluated, however often and in whatever order (R116). -/
theorem getElem_foldl_laneStep (G : Capability) (q : BatchOp) (order : List (Fin 32)) (slots : Slots) (i : Fin 32) :
    (order.foldl (laneStep G q) slots)[i] = if i ∈ order then some (q.lane G i) else slots[i] := by
  induction order generalizing slots with
  | nil => simp
  | cons k order ih =>
    rw [List.foldl_cons, ih]
    by_cases hk : k = i
    · subst hk
      simp [laneStep]
    · have hval : k.val ≠ i.val := fun h => hk (Fin.ext h)
      simp [laneStep, hval, Ne.symm hk]

/-- The workers of a schedule cover the lanes between them: lane i is in chunk `i / (32 / n)` (R115). -/
theorem IsSchedule.mem {n : Nat} {order : List (Fin 32)} (h : IsSchedule n order) (hn : n ∣ 32) (i : Fin 32) : i ∈ order := by
  have hworker : i.val / (32 / n) < n := Nat.div_lt_of_lt_mul (by rw [Nat.div_mul_cancel hn]; exact i.isLt)
  have hchunk : i ∈ chunkLanes n (i.val / (32 / n)) := by simp [chunkLanes]
  exact (List.mem_filter.1 ((h _ hworker).mem_iff.2 hchunk)).1

/-- The join takes what the slots hold, once all are delivered (R113). -/
theorem join_eq_some {slots : Slots} {f : Fin 32 → Ct} (h : ∀ i : Fin 32, slots[i] = some (f i)) :
    join slots = some (Vector.ofFn f) := by
  simp [join, h]

/-- Settles O30: a schedule evaluates every lane, so every slot holds its lane's gate, and the join is the atomic batch's. -/
theorem batchScheduleIndependent : Obligations.BatchScheduleIndependent := by
  intro G q n order hn horder
  rw [joinSlots_workerSlots]
  refine join_eq_some fun i => ?_
  rw [runLanes, getElem_foldl_laneStep, if_pos (horder.mem hn i)]

end Sys2Proof.Machine
end

section
/-!
PROOF. Command words and instructions (R81 to R90): a row of the operation table takes a word exactly when the word is the
encoding of what the row builds, so decoding and encoding undo one another, and a known opcode leaves three ways to be illegal.
-/

namespace Sys2Proof

/-! Rows, word by word. -/

/-- A field under a mask that covers it. -/
theorem and_of_eq_allOnes {w : Nat} {m : BitVec w} (hm : m = BitVec.allOnes w) (x : BitVec w) : x &&& m = x := by
  rw [hm, BitVec.and_allOnes]

/-- Masks cover the opcode and the dead fields and nothing else, and patterns are zero there but for the opcode (R83, R90):
a row takes a word exactly when the instruction it builds has the word's fields. -/
theorem selects_iff_fields {r : OpRow} (hr : r ∈ opTable) (cw : CmdWord) :
    r.selects cw = true ↔ fieldsOf cw = (r.build (fieldsOf cw)).fields := by
  rw [selects_iff]
  obtain ⟨op, rd, rs1, rs2, rs3, n, imm⟩ := fieldsOf cw
  fin_cases hr <;> simp (disch := decide) [fieldsOf, Instr.fields, and_of_eq_allOnes]

/-- Only the row of its own opcode can take a word (R87). -/
theorem eq_row_of_op {r r' : OpRow} (hr : r ∈ opTable) (hr' : r' ∈ opTable) {cw : CmdWord}
    (hop : (fieldsOf r.pattern).op = (fieldsOf cw).op) (hs : r'.selects cw = true) : r' = r :=
  List.inj_on_of_nodup_map ops_distinct hr' hr ((op_of_selects hr' hs).trans hop.symm)

/-- A word with the opcode of a row is illegal when it is not the word of the instruction the row builds from it, or when
that instruction is ill formed (R89). -/
theorem decode_eq_none_iff_of_op {r : OpRow} (hr : r ∈ opTable) {cw : CmdWord}
    (hop : (fieldsOf r.pattern).op = (fieldsOf cw).op) :
    decode cw = none ↔
      fieldsOf cw ≠ (r.build (fieldsOf cw)).fields ∨ (r.build (fieldsOf cw)).wellFormed = false := by
  rw [ne_eq, ← selects_iff_fields hr]
  by_cases hs : r.selects cw = true
  · simp [decode_of_selects hr hs, hs]
  · refine iff_of_true (Option.eq_none_iff_forall_ne_some.2 fun i hi => ?_) (.inl hs)
    obtain ⟨r', hr', hs', -⟩ := row_of_decode hi
    exact hs (eq_row_of_op hr hr' hop hs' ▸ hs')

/-- Decoding answers the instruction that the word encodes, and no other. -/
theorem decode_eq_some_iff {cw : CmdWord} {i : Instr} : decode cw = some i ↔ encode i = cw ∧ i.wellFormed = true := by
  constructor
  · intro h
    obtain ⟨r, hr, hs, rfl, hwf⟩ := row_of_decode h
    refine ⟨?_, hwf⟩
    rw [encode, ← (selects_iff_fields hr cw).1 hs, ofFields_fieldsOf]
  · rintro ⟨rfl, hwf⟩
    rw [decode_encode, if_pos hwf]

/-- The opcodes of the map, row by row (R90). -/
theorem opTable_ops : (opTable.map fun r => (fieldsOf r.pattern).op) =
    [0x10, 0x11, 0x12, 0x13, 0x20, 0x21, 0x22, 0x23, 0x24, 0x25, 0x26, 0x27, 0x30, 0x40, 0x50, 0x51, 0x60, 0x61, 0x62,
      0x63] := by decide

/-- An opcode that no row has lies in one of the seven gaps of the map (R89 case (a)). -/
theorem op_in_gap {op : BitVec 8} (h : op ∉ opTable.map fun r => (fieldsOf r.pattern).op) :
    op.toNat ≤ 0x0F ∨ 0x14 ≤ op.toNat ∧ op.toNat ≤ 0x1F ∨ 0x28 ≤ op.toNat ∧ op.toNat ≤ 0x2F ∨
      0x31 ≤ op.toNat ∧ op.toNat ≤ 0x3F ∨ 0x41 ≤ op.toNat ∧ op.toNat ≤ 0x4F ∨ 0x52 ≤ op.toNat ∧ op.toNat ≤ 0x5F ∨
      0x64 ≤ op.toNat := by
  rw [opTable_ops] at h
  simp only [List.mem_cons, List.not_mem_nil, or_false, not_or] at h
  bv_omega

/-! The statements. -/

/-- Settles O21: the word of a well-formed instruction decodes to it. -/
theorem decodeOfEncode : Obligations.DecodeOfEncode := fun _ hwf => decode_eq_some_iff.2 ⟨rfl, hwf⟩

/-- Settles O22: the row that takes a word builds the instruction that has the word's fields, dead ones included. -/
theorem encodeOfDecode : Obligations.EncodeOfDecode := fun _ _ => decode_eq_some_iff.1

/-- Settles O23: an opcode is in a gap of the map or has a row; then the fields of what the row builds say which of the
word's fields are dead, and SHR alone can be ill formed. -/
theorem illegalWords : Obligations.IllegalWords := by
  intro cw
  dsimp only
  by_cases hop : (fieldsOf cw).op ∈ opTable.map fun r => (fieldsOf r.pattern).op
  · obtain ⟨r, hr, hrow⟩ := List.mem_map.1 hop
    rw [decode_eq_none_iff_of_op hr hrow]
    generalize fieldsOf cw = f at hrow ⊢
    obtain ⟨op, rd, rs1, rs2, rs3, n, imm⟩ := f
    subst hrow
    fin_cases hr <;> simp [fieldsOf, Instr.fields, Instr.wellFormed]
  · exact iff_of_true (decode_none_of_op hop) (.inl (op_in_gap hop))

/-- Settles O20: each word selects the row of its opcode, and the last two select none that is well formed. -/
theorem workedEncodingsDecode : Obligations.WorkedEncodingsDecode := by
  unfold Obligations.WorkedEncodingsDecode
  decide

end Sys2Proof

namespace Sys2Proof.Machine

/-! Amounts and pseudo-instructions. -/

/-- A rotation sees its amount modulo 32 (R85, R140). -/
theorem rotR_congr {n m : Nat} (h : n % 32 = m % 32) (x : Word) : rotR x n = rotR x m := by
  simp only [rotR, h]

@[simp] theorem rotR_zero (x : Word) : rotR x 0 = x := by
  ext i hi
  simp [rotR, Nat.mod_eq_of_lt hi]

/-- Settles O25: ROTR is always well formed and rotates by the amount modulo 32, which the wrap at 256 keeps; SHR is well
formed up to 32. -/
theorem amountField : Obligations.AmountField := by
  refine ⟨fun rd rs1 n => ?_, fun rd rs1 n s => ?_, fun rd rs1 n => ?_⟩
  · exact decodeOfEncode _ rfl
  · have hmod : n.toNat % 32 = (n + 32).toNat % 32 := by bv_omega
    change execRotr rd rs1 n s = execRotr rd rs1 (n + 32) s
    simp only [execRotr, rotR_congr hmod]
  · simp only [decode_encode, Instr.wellFormed, decide_eq_true_eq]

/-- Where the work of a command ends, the command completes (R34). -/
theorem completes_complete (u : State) : u.Completes u.complete := ⟨rfl, rfl⟩

theorem exec_rotr_ok (rd : Reg) {rs1 : Reg} (n : BitVec 8) {s : State} {x : Word} (hx : s.r[rs1] = some x) :
    exec (.rotr rd rs1 n) s = .next (s.setR rd (rotR x n.toNat)).complete :=
  runCommand_ok (bind_ok (readElement_some hx))

/-- TRIVW without a failed call: every cell is the trivial encryption of its digit (R123). -/
theorem exec_trivw_ok (rd : Reg) (imm : U32) {s : State} (h : s.NoFailure 32 0) :
    ∃ w : Word, (∀ i : Fin 32, w[i] = Config.G.triv (bitOf imm i)) ∧
      exec (.trivw rd imm) s = .next ((s.afterCalls 32 0).setR rd w).complete := by
  obtain ⟨w, hw, hrun⟩ := trivW_ok (G := Config.G) h imm
  exact ⟨w, hw, runCommand_ok (bind_ok hrun)⟩

/-- A TRIVW of 32 equal digits: every cell is a trivial encryption of that digit, under every key that fits (R92, R114). -/
theorem exec_trivw_constant (rd : Reg) {imm : U32} {b : Bool} (hb : ∀ i, bitOf imm i = b) {s : State}
    (h : s.NoFailure 32 0) :
    ∃ w t, exec (.trivw rd imm) s = .next t ∧ ((s.afterCalls 32 0).setR rd w).Completes t ∧
      ∀ i : Fin 32, w[i].tag = .trivial ∧ ∀ dec, Config.G.Fits dec → dec w[i] = b := by
  obtain ⟨w, hw, hrun⟩ := exec_trivw_ok rd imm h
  refine ⟨w, _, hrun, completes_complete _, fun i => ?_⟩
  rw [hw i, hb i]
  exact ⟨Config.tag_triv b, fun dec hG => hG.dec_triv b⟩

/-- Settles O40: MOV is a rotation by 0, ZEROW and ONESW are a TRIVW of equal digits. -/
theorem pseudoInstructions : Obligations.PseudoInstructions := by
  refine ⟨fun rd rs s x hx => ⟨_, exec_rotr_ok rd 0 hx, ?_⟩, fun rd s => ?_, fun rd s => ?_⟩
  · simpa using completes_complete (s.setR rd x)
  · exact exec_trivw_constant rd (by decide)
  · exact exec_trivw_constant rd (by decide)

end Sys2Proof.Machine
end

section
/-!
PROOF. The GateEngine (R112 to R123): the outcomes of a batch, of the commands that write a batch's word, and of TRIVW.
-/

namespace Sys2Proof.Machine

/-! The batch. -/

/-- What a key that fits reads in lane i: the gate on the plain bits of the operands' cells (R14, R113). -/
theorem dec_lane {G : Capability} {dec : Ct → Bool} (hG : G.Fits dec) (q : BatchOp) (i : Fin 32) :
    dec (q.lane G i) = match q with
      | .and a b => dec a[i] && dec b[i]
      | .xor a b => dec a[i] ^^ dec b[i]
      | .not a => !dec a[i] := by
  cases q with
  | and a b => exact hG.dec_and _ _
  | xor a b => exact hG.dec_xor _ _
  | not a => exact hG.dec_not _

/-- Settles O31, by the draws: a failed call, else a failed worker, else every lane's gate in its own cell. -/
theorem batchOutcomes : Obligations.BatchOutcomes := by
  intro G q s
  refine ⟨batch_ctx, batch_worker, fun hs => ⟨_, batch_ok hs, fun dec hG i => ?_⟩⟩
  rw [Fin.getElem_fin, Vector.getElem_ofFn]
  exact dec_lane hG q i

/-! The commands of one batch. -/

/-- From s, the instruction comes down to one batch, whose word it writes to rd. -/
def WritesBatch (i : Instr) (s : State) (q : BatchOp) (rd : Reg) : Prop :=
  exec i s = runCommand (batch Config.G q >>= writeR rd) s

/-- A source that is present is read without a trace. -/
theorem runCommand_readR {s : State} {k : Reg} {x : Word} (hx : s.r[k] = some x) (f : Word → Micro Unit) :
    runCommand (readR k >>= f) s = runCommand (f x) s := by
  simp only [runCommand, bind_ok (readR_ok hx)]

theorem writesBatch_xorw {s : State} (rd : Reg) {rs1 rs2 : Reg} {a b : Word} (ha : s.r[rs1] = some a)
    (hb : s.r[rs2] = some b) : WritesBatch (.xorw rd rs1 rs2) s (.xor a b) rd :=
  (runCommand_readR ha _).trans (runCommand_readR hb _)

theorem writesBatch_andw {s : State} (rd : Reg) {rs1 rs2 : Reg} {a b : Word} (ha : s.r[rs1] = some a)
    (hb : s.r[rs2] = some b) : WritesBatch (.andw rd rs1 rs2) s (.and a b) rd :=
  (runCommand_readR ha _).trans (runCommand_readR hb _)

theorem writesBatch_notw {s : State} (rd : Reg) {rs1 : Reg} {a : Word} (ha : s.r[rs1] = some a) :
    WritesBatch (.notw rd rs1) s (.not a) rd :=
  runCommand_readR ha _

/-- The three ends of such a command. `P` is what every key that fits knows of the batch's word. -/
theorem WritesBatch.outcomes {i : Instr} {s : State} {q : BatchOp} {rd : Reg} (h : WritesBatch i s q rd)
    {P : (Ct → Bool) → Word → Prop}
    (hP : ∀ dec, Config.G.Fits dec → P dec (Vector.ofFn fun l => q.lane Config.G l)) :
    (s.NoFailure 32 1 → ∃ w t, exec i s = .next t ∧ ((s.afterCalls 32 1).setR rd w).Completes t ∧
      ∀ dec, Config.G.Fits dec → P dec w) ∧
    (true ∈ s.env.ctxDraws.take 32 → ∃ k b, k ≤ 32 ∧ b ≤ 1 ∧
      exec i s = .next ((s.afterCalls k b).takeFault .fCtx)) ∧
    (true ∉ s.env.ctxDraws.take 32 → true ∈ s.env.workerDraws.take 8 → ∃ k b, k ≤ 32 ∧ b ≤ 1 ∧
      exec i s = .next ((s.afterCalls k b).takeFault .fWorker)) := by
  unfold WritesBatch at h
  rw [h]
  refine ⟨fun hs => ?_, fun hc => ?_, fun hc hw => ?_⟩
  · exact ⟨_, _, runCommand_ok (bind_ok (batch_ok hs)), completes_complete _, hP⟩
  · exact ⟨32, 1, le_refl _, le_refl _, runCommand_error (bind_error (batch_ctx hc))⟩
  · exact ⟨32, 1, le_refl _, le_refl _, runCommand_error (bind_error (batch_worker hc hw))⟩

/-- Either of the sources of a command with two being `empty` is F_SHAPE (R22). -/
theorem emptySourceFaults_two {i : Instr} {rs1 rs2 : Reg} (hi : i.sources = [rs1, rs2]) {s : State}
    (h : s.r[rs1] = none ∨ s.r[rs2] = none) : exec i s = .next (s.takeFault .fShape) := by
  obtain h | h := h
  · exact emptySourceFaults i s rs1 (by simp [hi]) h
  · exact emptySourceFaults i s rs2 (by simp [hi]) h

/-- Settles O26: one batch of XOR gates on the sources. -/
theorem xorwLaw : Obligations.XorwLaw := by
  intro rd rs1 rs2 s
  refine ⟨emptySourceFaults_two rfl, fun a b ha hb => ?_⟩
  exact (writesBatch_xorw rd ha hb).outcomes fun dec hG => val_xor hG a b

/-- Settles O27: one batch of AND gates on the sources. -/
theorem andwLaw : Obligations.AndwLaw := by
  intro rd rs1 rs2 s
  refine ⟨emptySourceFaults_two rfl, fun a b ha hb => ?_⟩
  exact (writesBatch_andw rd ha hb).outcomes fun dec hG => val_and hG a b

/-- Settles O28: one batch of NOT gates on the source; the complement is the difference from 32 ones. -/
theorem notwLaw : Obligations.NotwLaw := by
  intro rd rs1 s
  refine ⟨emptySourceFaults _ s rs1 (List.mem_singleton.2 rfl), fun a ha => ?_⟩
  exact (writesBatch_notw rd ha).outcomes fun dec hG =>
    ⟨val_not hG a, (val_not hG a).trans (BitVec.allOnes_sub_eq_not _).symm⟩

/-! TRIVW. -/

/-- Among calls only, the first failure is F_CTX. -/
theorem firstFault_calls {wk : List Bool} : ∀ {n : Nat} {ctx : List Bool}, true ∈ ctx.take n →
    firstFault (List.replicate n .call) ctx wk = some .fCtx
  | 0, _, h => by simp at h
  | n + 1, ctx, h => by
    rw [List.replicate_succ, firstFault]
    split
    · rfl
    · next hhead =>
      rw [Nat.add_comm, List.take_add, List.mem_append] at h
      exact firstFault_calls (h.resolve_left hhead)

/-- TRIVW with a failed call: F_CTX, after at most 32 calls and no batch (R114, R123). -/
theorem exec_trivw_ctx (rd : Reg) (imm : U32) {s : State} (h : true ∈ s.env.ctxDraws.take 32) :
    ∃ k, k ≤ 32 ∧ exec (.trivw rd imm) s = .next ((s.afterCalls k 0).takeFault .fCtx) := by
  obtain ⟨w, -, hsilent⟩ := trivW_ok (G := Config.G) (noFailure_withDraws_nil s 32 0) imm
  obtain ⟨u, hu⟩ := (follows_trivW imm).faults hsilent (firstFault_calls h)
  have hspends : Spends 32 0 (trivW Config.G imm) := spends_collect fun _ => spends_triv _
  obtain ⟨k, b, hk, hb, hrun⟩ := hspends.faults hu
  obtain rfl : b = 0 := Nat.le_zero.1 hb
  exact ⟨k, hk, runCommand_error (bind_error hrun)⟩

/-- Settles O29: without a failed call every cell is the trivial encryption of its digit, and the only other end is F_CTX. -/
theorem trivwLaw : Obligations.TrivwLaw := by
  intro rd imm s
  refine ⟨fun hs => ?_, exec_trivw_ctx rd imm⟩
  obtain ⟨w, hw, hrun⟩ := exec_trivw_ok rd imm hs
  refine ⟨w, _, hrun, completes_complete _, fun i => ?_, fun dec hG => ⟨val_triv hG hw, fun i => ?_⟩⟩
  · rw [hw i]
    exact Config.tag_triv _
  · rw [hw i, hG.dec_triv]
    rfl

end Sys2Proof.Machine
end

section
/-!
PROOF. WordOps (R140 to R152): ROTR copies cells; the other seven commands write the word of a word function, whose calls and
batches decide how the command ends.
-/

namespace Sys2Proof.Machine

/-! The commands that write a computed word. -/

/-- From s, with its sources read, the instruction comes down to work that computes a word, which it then writes to rd. -/
def WritesWord (i : Instr) (s : State) (m : Micro Word) (rd : Reg) : Prop :=
  exec i s = runCommand (m >>= writeR rd) s

/-- Work has one result from one state. -/
theorem ok_unique {α : Type} {m : Micro α} {s t t' : State} {a a' : α} (h : m s = .ok a t) (h' : m s = .ok a' t') : a = a' :=
  (EStateM.Result.ok.inj (h.symm.trans h')).1

section

variable {i : Instr} {s : State} {m : Micro Word} {rd : Reg}

theorem WritesWord.exec_ok (h : WritesWord i s m rd) {w : Word} {u : State} (hm : m s = .ok w u) :
    exec i s = .next (u.setR rd w).complete :=
  h.trans (runCommand_ok (u := ()) (bind_ok hm))

/-- Where only draws are used, the first failure among those of the micro-steps is the fault, and nothing else has changed. -/
theorem WritesWord.exec_firstFault (h : WritesWord i s m rd) {C B : Nat} (hspends : Spends C B m)
    (hfollows : Follows i.capSteps m) {w : Word} {u : State} (hsilent : m (s.withDraws [] []) = .ok w u) {c : FaultCode}
    (hc : s.firstFault i.capSteps = some c) :
    ∃ k b, k ≤ C ∧ b ≤ B ∧ exec i s = .next ((s.afterCalls k b).takeFault c) := by
  obtain ⟨v, hv⟩ := hfollows.faults hsilent hc
  obtain ⟨k, b, hk, hb, hrun⟩ := hspends.faults hv
  exact ⟨k, b, hk, hb, h.trans (runCommand_error (bind_error hrun))⟩

/-- The two ends of such a command. `P` is what a key that fits knows of the word; the word itself depends on no key. -/
theorem WritesWord.outcomes (h : WritesWord i s m rd) {C B : Nat} {P : (Ct → Bool) → Word → Prop}
    (hok : ∀ dec, Config.G.Fits dec → ∀ {u : State}, u.NoFailure C B → ∃ w, P dec w ∧ m u = .ok w (u.afterCalls C B))
    (hspends : Spends C B m) (hfollows : Follows i.capSteps m) :
    (s.NoFailure C B → ∃ w t, exec i s = .next t ∧ ((s.afterCalls C B).setR rd w).Completes t ∧
      ∀ dec, Config.G.Fits dec → P dec w) ∧
    ∀ c, s.firstFault i.capSteps = some c → ∃ k b, k ≤ C ∧ b ≤ B ∧
      exec i s = .next ((s.afterCalls k b).takeFault c) := by
  obtain ⟨key, hkey⟩ := Config.some_key
  refine ⟨fun hs => ?_, fun c hc => ?_⟩
  · obtain ⟨w, -, hrun⟩ := hok key hkey hs
    refine ⟨w, _, h.exec_ok hrun, completes_complete _, fun dec hG => ?_⟩
    obtain ⟨w', hw', hrun'⟩ := hok dec hG hs
    rwa [ok_unique hrun hrun']
  · obtain ⟨w, -, hsilent⟩ := hok key hkey (noFailure_withDraws_nil s C B)
    exact h.exec_firstFault hspends hfollows hsilent hc

end

/-- Any of the sources of a command with three being `empty` is F_SHAPE (R22). -/
theorem emptySourceFaults_three {i : Instr} {rs1 rs2 rs3 : Reg} (hi : i.sources = [rs1, rs2, rs3]) {s : State}
    (h : s.r[rs1] = none ∨ s.r[rs2] = none ∨ s.r[rs3] = none) : exec i s = .next (s.takeFault .fShape) := by
  obtain h | h | h := h
  · exact emptySourceFaults i s rs1 (by simp [hi]) h
  · exact emptySourceFaults i s rs2 (by simp [hi]) h
  · exact emptySourceFaults i s rs3 (by simp [hi]) h

/-! ROTR and SHR. -/

/-- Cell i moves to cell (i + n) mod 32 (R140). -/
theorem getElem_rotR_add (x : Word) (n : Nat) (i : Fin 32) :
    (rotR x n)[(i.val + n) % 32]'(Nat.mod_lt _ (by decide)) = x[i] := by
  have hback : ((i.val + n) % 32 + (32 - n % 32)) % 32 = i.val := by omega
  simp only [rotR, Vector.getElem_ofFn, hback, Fin.getElem_fin]

/-- Settles O32: without any call the command completes, with the rotated source in the destination. -/
theorem rotrLaw : Obligations.RotrLaw := by
  intro rd rs1 n s
  refine ⟨emptySourceFaults _ s rs1 (List.mem_singleton.2 rfl), fun x hx => ?_⟩
  exact ⟨_, _, exec_rotr_ok rd n hx, completes_complete _, getElem_rotR_add x n.toNat, fun dec _ => val_rotR dec x n.toNat⟩

/-- The cells of `ShR(x, n)`: n trivial zeros, then those of x (R142). -/
theorem shR_cells {G : Capability} {n : Nat} {s : State} (h : s.NoFailure n 0) (x : Word) :
    ∃ w : Word, (∀ i : Fin 32, i.val < n → w[i] = G.triv false) ∧ (∀ i : Fin 32, n ≤ i.val → w[i] = x[i.val - n]) ∧
      shR G x n s = .ok w (s.afterCalls n 0) := by
  obtain ⟨zs, hzs, hrun⟩ := collect_triv_ok (G := G) h fun _ => false
  refine ⟨_, fun i hi => ?_, fun i hi => ?_, bind_ok hrun⟩
  · simpa [hi] using hzs ⟨i.val, hi⟩
  · simp [Nat.not_lt.2 hi]

theorem writesWord_shr {s : State} (rd : Reg) {rs1 : Reg} (n : BitVec 8) {x : Word} (hx : s.r[rs1] = some x) :
    WritesWord (.shr rd rs1 n) s (shR Config.G x n.toNat) rd :=
  runCommand_readR hx _

/-- Settles O33: the cells of the shift say where the trivial zeros are, and only its n calls can fail. -/
theorem shrLaw : Obligations.ShrLaw := by
  intro rd rs1 n s hn
  refine ⟨emptySourceFaults _ s rs1 (List.mem_singleton.2 rfl), fun x hx => ⟨fun hs => ?_, fun hctx => ?_⟩⟩
  · obtain ⟨w, hzero, hkept, hrun⟩ := shR_cells (G := Config.G) hs x
    refine ⟨w, _, (writesWord_shr rd n hx).exec_ok hrun, completes_complete _, fun i hi => ?_, hkept, fun dec hG => ?_⟩
    · rw [hzero i hi]
      exact ⟨Config.tag_triv _, fun dec hG => hG.dec_triv _⟩
    · obtain ⟨w', hval, -, hrun'⟩ := shR_ok hG hn hs x
      rwa [ok_unique hrun hrun']
  · obtain ⟨w, -, -, hsilent⟩ := shR_cells (G := Config.G) (noFailure_withDraws_nil s n.toNat 0) x
    obtain ⟨k, b, hk, hb, hexec⟩ := (writesWord_shr rd n hx).exec_firstFault (spends_shR x n.toNat) (follows_shR x n.toNat)
      hsilent (firstFault_calls hctx)
    obtain rfl : b = 0 := Nat.le_zero.1 hb
    exact ⟨k, hk, hexec⟩

/-! The functions of one word. -/

/-- Settles O34, by the runs of the word function `SSig0` with and without a failure. -/
theorem ssig0Law : Obligations.Ssig0Law := by
  intro rd rs1 s
  refine ⟨emptySourceFaults _ s rs1 (List.mem_singleton.2 rfl), fun x hx => ?_⟩
  have hwrites : WritesWord (.ssig0 rd rs1) s (ssig0 Config.G x) rd := runCommand_readR hx _
  exact hwrites.outcomes (fun dec hG _ hs => ssig0_ok hG hs x) (spends_ssig0 x) (follows_ssig0 x)

/-- Settles O35, by the runs of the word function `SSig1` with and without a failure. -/
theorem ssig1Law : Obligations.Ssig1Law := by
  intro rd rs1 s
  refine ⟨emptySourceFaults _ s rs1 (List.mem_singleton.2 rfl), fun x hx => ?_⟩
  have hwrites : WritesWord (.ssig1 rd rs1) s (ssig1 Config.G x) rd := runCommand_readR hx _
  exact hwrites.outcomes (fun dec hG _ hs => ssig1_ok hG hs x) (spends_ssig1 x) (follows_ssig1 x)

/-- Settles O36, by the runs of the word function `BSig0` with and without a failure. -/
theorem bsig0Law : Obligations.Bsig0Law := by
  intro rd rs1 s
  refine ⟨emptySourceFaults _ s rs1 (List.mem_singleton.2 rfl), fun x hx => ?_⟩
  have hwrites : WritesWord (.bsig0 rd rs1) s (bsig0 Config.G x) rd := runCommand_readR hx _
  exact hwrites.outcomes (fun dec hG _ hs => bsig0_ok hG hs x) (spends_bsig0 x) (follows_bsig0 x)

/-- Settles O37, by the runs of the word function `BSig1` with and without a failure. -/
theorem bsig1Law : Obligations.Bsig1Law := by
  intro rd rs1 s
  refine ⟨emptySourceFaults _ s rs1 (List.mem_singleton.2 rfl), fun x hx => ?_⟩
  have hwrites : WritesWord (.bsig1 rd rs1) s (bsig1 Config.G x) rd := runCommand_readR hx _
  exact hwrites.outcomes (fun dec hG _ hs => bsig1_ok hG hs x) (spends_bsig1 x) (follows_bsig1 x)

/-! The functions of three words. -/

/-- Three sources that are present are read without a trace. -/
theorem runCommand_readR_three {s : State} {k1 k2 k3 : Reg} {x y z : Word} (hx : s.r[k1] = some x) (hy : s.r[k2] = some y)
    (hz : s.r[k3] = some z) (f : Word → Word → Word → Micro Unit) :
    runCommand (readR k1 >>= fun x => readR k2 >>= fun y => readR k3 >>= f x y) s = runCommand (f x y z) s :=
  (runCommand_readR hx _).trans ((runCommand_readR hy _).trans (runCommand_readR hz _))

/-- Settles O38, by the runs of the word function `Ch` with and without a failure. -/
theorem chLaw : Obligations.ChLaw := by
  intro rd rs1 rs2 rs3 s
  refine ⟨emptySourceFaults_three rfl, fun x y z hx hy hz => ?_⟩
  have hwrites : WritesWord (.ch rd rs1 rs2 rs3) s (ch Config.G x y z) rd := runCommand_readR_three hx hy hz _
  exact hwrites.outcomes (fun dec hG _ hs => ch_ok hG hs x y z) (spends_ch x y z) (follows_ch x y z)

/-- Settles O39, by the runs of the word function `Maj` with and without a failure. -/
theorem majLaw : Obligations.MajLaw := by
  intro rd rs1 rs2 rs3 s
  refine ⟨emptySourceFaults_three rfl, fun x y z hx hy hz => ?_⟩
  have hwrites : WritesWord (.maj rd rs1 rs2 rs3) s (maj Config.G x y z) rd := runCommand_readR_three hx hy hz _
  exact hwrites.outcomes (fun dec hG _ hs => maj_ok hG hs x y z) (spends_maj x y z) (follows_maj x y z)

end Sys2Proof.Machine
end

section
/-!
PROOF. The Adder (R170 to R173): the carry chain's cells are the carries, which make ADD's batch of XOR gates the sum; a
failure on the way keeps all but the draws, the scratch words and the sequencer's position.
-/

namespace Sys2Proof.Machine

/-! The carry chain. -/

/-- The carry into a cell, as a number: the overflow of the sum of the digits below it (R173). -/
theorem toNat_carryBit (v u : U32) (i : Nat) :
    (carryBit v u i).toNat = (v.toNat % 2 ^ (31 - i) + u.toNat % 2 ^ (31 - i)) / 2 ^ (31 - i) := by
  simp only [carryBit, BitVec.carry]
  generalize 31 - i = n
  have hv : v.toNat % 2 ^ n < 2 ^ n := Nat.mod_lt _ (Nat.two_pow_pos n)
  have hu : u.toNat % 2 ^ n < 2 ^ n := Nat.mod_lt _ (Nat.two_pow_pos n)
  by_cases hc : 2 ^ n ≤ v.toNat % 2 ^ n + u.toNat % 2 ^ n
  · rw [Nat.div_eq_of_lt_le (k := 1) (by omega) (by omega)]
    simpa using hc
  · rw [Nat.div_eq_of_lt (by omega)]
    simpa using hc

/-- A digit of a sum is the XOR of the terms' digits and the carry, so the carries are what the XOR with both terms leaves (R173). -/
theorem val_of_carries {dec : Ct → Bool} {w : Word} {v u : U32} (h : ∀ i : Fin 32, dec w[i] = carryBit v u i) :
    val dec w = (v + u) ^^^ v ^^^ u := by
  refine val_eq fun i => ?_
  rw [bitOf_xor, bitOf_xor, bitOf_add, h i]
  cases bitOf v i <;> cases bitOf u i <;> simp

/-- The cells of the whole carry word: those of the chain, and a 0 for the last (R172). -/
theorem dec_push_carries {dec : Ct → Bool} {v u : U32} {cs : Vector Ct 31} {c31 : Ct}
    (hcs : ∀ (i : Nat) (hi : i < 31), dec cs[i] = carryBit v u i) (hc31 : dec c31 = false) (i : Fin 32) :
    dec (cs.push c31)[i] = carryBit v u i := by
  rw [Fin.getElem_fin, Vector.getElem_push]
  split
  · next hi => exact hcs i hi
  · next hi =>
    rw [hc31, show i.val = 31 by omega, carryBit_last]

/-- Settles O42: the chain's cells are the carries, which are numbers by `toNat_carryBit` and a word by `val_of_carries`. -/
theorem carryWord : Obligations.CarryWord := by
  intro G dec a b p g c31 s hG hp hg hc31 hs
  obtain ⟨cs, hcs, hrun⟩ := carryFrom_ok hG hp hg 31 (by decide) c31 s hs (hc31.trans (carryBit_last _ _).symm)
  refine ⟨cs, _, hrun, fun i => ?_, val_of_carries (dec_push_carries hcs hc31)⟩
  rw [Fin.getElem_fin, hcs i i.isLt, toNat_carryBit]

/-! ADD. -/

/-- A fault inside a command is taken in a state that differs from the first only inside it. -/
theorem Keeps.faults_inside {W : Prop} {C : State → FaultCode → Prop} {α : Type} {m : Micro α} (hm : Keeps W Inside C m)
    {s u : State} {c : FaultCode} (h : m s = .error .faulted (u.takeFault c)) :
    ∃ v, Inside s v ∧ m s = .error .faulted (v.takeFault c) := by
  obtain ⟨v, c', hv, -, hu⟩ := (hm s).of_error h
  obtain rfl : c = c' := Option.some.inj (congrArg (fun t : State => t.status.fault) hu)
  exact ⟨v, hv, by rw [h, hu]⟩

theorem writesWord_add {s : State} (rd : Reg) {rs1 rs2 : Reg} {a b : Word} (ha : s.r[rs1] = some a)
    (hb : s.r[rs2] = some b) : WritesWord (.add rd rs1 rs2) s (add Config.G a b) rd :=
  (runCommand_readR ha _).trans (runCommand_readR hb _)

/-- ADD without a failure among its draws: one word is the sum under every key that fits (R170, R171). -/
theorem exec_add_ok {s : State} (rd : Reg) {rs1 rs2 : Reg} {a b : Word} (ha : s.r[rs1] = some a) (hb : s.r[rs2] = some b)
    (hs : s.NoFailure 159 3) : ∃ w, exec (.add rd rs1 rs2) s = .next (((s.afterCalls 159 3).setR rd w).clearAdder).complete ∧
      ∀ dec, Config.G.Fits dec → val dec w = val dec a + val dec b := by
  obtain ⟨w, hrun, hval⟩ := for_every_key (fun _ _ => ok_unique) fun dec hG =>
    (add_ok hG hs a b).imp fun _ => And.symm
  refine ⟨w, ?_, hval⟩
  rw [(writesWord_add rd ha hb).exec_ok hrun, complete_clearAdder_setR]

/-- ADD with a failure among its draws: the first one's fault, taken inside the command (R268, R333). -/
theorem exec_add_firstFault {s : State} (rd : Reg) {rs1 rs2 : Reg} {a b : Word} (ha : s.r[rs1] = some a)
    (hb : s.r[rs2] = some b) {c : FaultCode} (hc : s.firstFault (Instr.add rd rs1 rs2).capSteps = some c) :
    ∃ v, Inside s v ∧ exec (.add rd rs1 rs2) s = .next (v.takeFault c) := by
  obtain ⟨key, hkey⟩ := Config.some_key
  obtain ⟨w, -, hsilent⟩ := add_ok hkey (noFailure_withDraws_nil s 159 3) a b
  obtain ⟨u, hu⟩ := (follows_add a b).faults hsilent hc
  have hkeeps : Keeps False Inside (Caused fun _ => True) (add Config.G a b) := keeps_add trivial trivial a b
  obtain ⟨v, hv, hrun⟩ := hkeeps.faults_inside hu
  exact ⟨v, hv, (writesWord_add rd ha hb).trans (runCommand_error (bind_error hrun))⟩

/-- Settles O41, by the runs of the word function `Add` with and without a failure. -/
theorem addLaw : Obligations.AddLaw := by
  intro rd rs1 rs2 s
  refine ⟨emptySourceFaults_two rfl, fun a b ha hb => ⟨fun hs => ?_, fun c hc => ?_⟩⟩
  · obtain ⟨w, hrun, hval⟩ := exec_add_ok rd ha hb hs
    refine ⟨w, _, hrun, completes_complete _, fun dec hG => ?_⟩
    rw [hval dec hG, BitVec.toNat_add]
  · obtain ⟨v, hv, hrun⟩ := exec_add_firstFault rd ha hb hc
    exact ⟨_, hrun, rfl, hv.cmd, hv.r⟩

end Sys2Proof.Machine
end

section
/-!
PROOF. COMPRESS (R195 to R198): an `empty` source is F_SHAPE before any gate, the first failure among the draws is the fault and
leaves the words of R, HS and BLK, and without one HS becomes the compression of the old one with the block, in value.
-/

namespace Sys2Proof.Machine

/-! Reading a group of storage elements. -/

/-- All the elements are read, without a trace, or one is `empty` and the read is F_SHAPE (R22). -/
theorem collect_readElement_cases {n : Nat} (x : Fin n → State → Option Word) (s : State) :
    (∃ ws : Vector Word n, collect n (fun k => readElement (x k)) s = .ok ws s ∧ ∀ k, x k s = some ws[k]) ∨
      ShapeFaults s (collect n fun k => readElement (x k)) := by
  have hends := post_reads (x := x) (s := s) (E := fun e t => e = .faulted ∧ t = s.takeFault .fShape) fun _ _ => ⟨rfl, rfl⟩
  cases hrun : collect n (fun k => readElement (x k)) s with
  | ok ws t =>
    obtain ⟨rfl, hws⟩ := hends.of_ok hrun
    exact .inl ⟨ws, rfl, hws⟩
  | error e t =>
    obtain ⟨rfl, rfl⟩ := hends.of_error hrun
    exact .inr hrun

theorem shapeFaults_collect {α : Type} {n : Nat} {s : State} (x : Fin n → State → Option Word) (h : ∃ k, x k s = none)
    (f : Vector Word n → Micro α) : ShapeFaults s (collect n (fun k => readElement (x k)) >>= f) := by
  obtain ⟨k, hk⟩ := h
  obtain ⟨ws, -, hws⟩ | hfault := collect_readElement_cases x s
  · cases hk.symm.trans (hws k)
  · exact bind_error hfault

/-- A group read first neither hides nor cures the fault of what comes after it. -/
theorem ShapeFaults.after_collect {α : Type} {n : Nat} {s : State} (x : Fin n → State → Option Word)
    {f : Vector Word n → Micro α} (h : ∀ ws, ShapeFaults s (f ws)) :
    ShapeFaults s (collect n (fun k => readElement (x k)) >>= f) := by
  obtain ⟨ws, hrun, -⟩ | hfault := collect_readElement_cases x s
  · exact (bind_ok hrun).trans (h ws)
  · exact bind_error hfault

/-! The three ends of COMPRESS. -/

/-- The check of every source element comes before any gate (R195). -/
theorem shapeFaults_compress {G : Capability} {s : State} (h : s.LacksHS ∨ s.LacksBLK) : ShapeFaults s (compress G) := by
  obtain h | h := h
  · exact shapeFaults_collect (fun k s => s.hs[k]) h _
  · exact .after_collect (fun k s => s.hs[k]) fun _ => shapeFaults_collect (fun k s => s.blk[k]) h _

/-- Where the work of COMPRESS ends, with draws used since s up to u, the command completes (R34, R194). -/
theorem completes_compressed (u : State) (n : Vector Word 8) (t : Fin 64) (ci : Fin 32) :
    ((u.setHS n).clearAdder.clearRounds).Completes (((u.during Scratch.empty t ci).setHS n).setPhase .none).complete :=
  ⟨rfl, rfl⟩

theorem getElem_vals {m : Nat} (dec : Ct → Bool) (ws : Vector Word m) (k : Fin m) : (vals dec ws)[k] = val dec ws[k] := by
  simp [vals]

/-- A word of the new hash state, where the values are those of the compression function (R196). -/
theorem val_of_vals_compress {dec : Ct → Bool} {n h : Vector Word 8} {b : Vector Word 16}
    (hn : vals dec n = Plain.compress (vals dec h) (vals dec b)) (k : Fin 8) :
    val dec n[k] = val dec h[k] + (Plain.rounds (Plain.schedule (vals dec b) 48) (vals dec h) 64)[k] := by
  rw [← getElem_vals dec n, ← getElem_vals dec h, hn]
  exact Plain.compress_getElem _ _ k.isLt

/-- COMPRESS without a failure among its draws: one new hash state is the compression under every key that fits (R195, R196). -/
theorem exec_compress_ok {s : State} {h : Vector Word 8} {b : Vector Word 16} (hh : s.HoldsHS h) (hb : s.HoldsBLK b)
    (hs : s.NoFailure 130840 2824) : ∃ n : Vector Word 8,
      exec .compress s = .next ((((s.afterCalls 130840 2824).during Scratch.empty 7 0).setHS n).setPhase .none).complete ∧
      ∀ dec, Config.G.Fits dec → vals dec n = Plain.compress (vals dec h) (vals dec b) := by
  refine for_every_key (fun n m hn hm => ?_) fun dec hG => ?_
  · exact filled_inj (congrArg State.hs (next_inj hn hm))
  · obtain ⟨n, hval, hrun⟩ := compress_ok hG hh hb hs
    exact ⟨n, runCommand_ok hrun, hval⟩

/-- A fault is taken where the work has kept what it keeps. -/
theorem Stopped.kept_of_takeFault {W : Prop} {R : State → State → Prop} {C : State → FaultCode → Prop} {s u : State}
    {c : FaultCode} (h : Stopped W R C s .faulted (u.takeFault c)) : ∃ v, R s v ∧ u.takeFault c = v.takeFault c := by
  obtain ⟨v, c', hv, -, hu⟩ := h
  obtain rfl : c = c' := Option.some.inj (congrArg (fun t : State => t.status.fault) hu)
  exact ⟨v, hv, hu⟩

/-- COMPRESS with a failure among its draws: the first one's fault, taken inside the command (R268, R333). -/
theorem exec_compress_firstFault {s : State} {h : Vector Word 8} {b : Vector Word 16} (hh : s.HoldsHS h) (hb : s.HoldsBLK b)
    {c : FaultCode} (hc : s.firstFault Instr.compress.capSteps = some c) :
    ∃ v, Inside s v ∧ exec .compress s = .next (v.takeFault c) := by
  obtain ⟨key, hkey⟩ := Config.some_key
  obtain ⟨n, -, hsilent⟩ := compress_ok (s := s.withDraws [] []) hkey hh hb (noFailure_withDraws_nil s 130840 2824)
  obtain ⟨u, hrun⟩ := follows_compress.faults hsilent hc
  have hends : Yields False Inside (Caused fun _ => True) (fun s _ t => Compressed s t) (compress Config.G) :=
    yields_compress trivial trivial trivial
  obtain ⟨v, hv, huv⟩ := ((hends s).of_error hrun).kept_of_takeFault
  exact ⟨v, hv, runCommand_error (hrun.trans (congrArg _ huv))⟩

/-- Settles O43, by the three ends of COMPRESS: a source that is `empty`, no failure drawn, and a first failure. -/
theorem compressLaw : Obligations.CompressLaw := by
  intro s
  refine ⟨fun hlacks => (shapeFaults_compress hlacks).runCommand, fun h b hh hb => ⟨fun hs => ?_, fun c hc => ?_⟩⟩
  · obtain ⟨n, hrun, hval⟩ := exec_compress_ok hh hb hs
    exact ⟨n, _, hrun, completes_compressed _ n 7 0, fun dec hG => val_of_vals_compress (hval dec hG)⟩
  · obtain ⟨v, hv, hrun⟩ := exec_compress_firstFault hh hb hc
    exact ⟨_, hrun, rfl, hv.cmd, hv.r, hv.hs, hv.blk⟩

end Sys2Proof.Machine
end

section
/-!
PROOF. HINIT (R222): without a failed call HS holds trivial encryptions of IV, and with one the command ends in F_CTX.
-/

namespace Sys2Proof.Machine

/-! HINIT. -/

/-- The words HINIT makes: every cell the trivial encryption of its digit of IV (R222). -/
def IsInitial (n : Vector Word 8) : Prop := ∀ (k : Fin 8) (i : Fin 32), n[k][i] = Config.G.triv (bitOf (IV k) i)

theorem IsInitial.tag {n : Vector Word 8} (h : IsInitial n) (k : Fin 8) (i : Fin 32) : n[k][i].tag = .trivial := by
  rw [h k i]
  exact Config.tag_triv _

theorem IsInitial.val {n : Vector Word 8} (h : IsInitial n) {dec : Ct → Bool} (hG : Config.G.Fits dec) (k : Fin 8) :
    val dec n[k] = IV k :=
  val_triv hG (h k)

theorem IsInitial.vals {n : Vector Word 8} (h : IsInitial n) {dec : Ct → Bool} (hG : Config.G.Fits dec) :
    vals dec n = Plain.iv := by
  simp only [Machine.vals, Plain.iv, h.val hG]

/-- The eight words of IV, without a failed call (R222). -/
theorem collect_iv_ok {s : State} (h : s.NoFailure 256 0) :
    ∃ n, IsInitial n ∧ collect 8 (fun k => trivW Config.G (IV k)) s = .ok n (s.afterCalls 256 0) := by
  have word (k : Fin 8) : ∃ w : Word, (∀ hk : k.val < 8, ∀ i : Fin 32, w[i] = Config.G.triv (bitOf (IV ⟨k.val, hk⟩) i)) ∧
      trivW Config.G (IV k) (s.afterCalls (32 * k.val) 0) = .ok w (s.afterCalls (32 * (k.val + 1)) 0) := by
    obtain ⟨w, hw, hrun⟩ := trivW_ok (G := Config.G) (h.within (32 * k.val) 0 32 0 (by omega) (by omega)) (IV k)
    exact ⟨w, fun _ => hw, by rw [hrun, afterCalls_afterCalls, Nat.mul_add_one]⟩
  obtain ⟨n, hn, hrun⟩ := collect_ok (T := fun i => s.afterCalls (32 * i) 0)
    (P := fun k w => ∀ hk : k < 8, ∀ i : Fin 32, w[i] = Config.G.triv (bitOf (IV ⟨k, hk⟩) i)) word
  exact ⟨n, fun k => hn k k.isLt, hrun⟩

/-- HINIT's pseudocode without a failed call. The words do not depend on a key. -/
theorem initHash_initial {s : State} (h : s.NoFailure 256 0) :
    ∃ n, IsInitial n ∧ initHash Config.G s = .ok () ((s.afterCalls 256 0).setHS n) := by
  obtain ⟨n, hn, hrun⟩ := collect_iv_ok h
  exact ⟨n, hn, bind_ok hrun⟩

/-- HINIT makes 256 calls and no batch. -/
theorem capSteps_hinit : CapStep.hinit = List.replicate 256 .call := List.flatten_replicate_replicate

/-- The eight words of IV, with a failed call: F_CTX, after at most 256 calls and no batch (R222, R268). -/
theorem collect_iv_ctx {s : State} (h : true ∈ s.env.ctxDraws.take 256) :
    ∃ k, k ≤ 256 ∧ collect 8 (fun k => trivW Config.G (IV k)) s = .error .faulted ((s.afterCalls k 0).takeFault .fCtx) := by
  have hfollows : Follows CapStep.hinit (collect 8 fun k => trivW Config.G (IV k)) := follows_collect fun k => follows_trivW _
  have hspends : Spends (32 * 8) (0 * 8) (collect 8 fun k => trivW Config.G (IV k)) :=
    spends_collect fun k => spends_collect fun _ => spends_triv _
  obtain ⟨n, -, hsilent⟩ := collect_iv_ok (noFailure_withDraws_nil s 256 0)
  obtain ⟨u, hu⟩ := hfollows.faults hsilent (capSteps_hinit ▸ firstFault_calls h)
  obtain ⟨k, b, hk, hb, hrun⟩ := hspends.faults hu
  obtain rfl : b = 0 := Nat.le_zero.1 hb
  exact ⟨k, hk, hrun⟩

/-- Settles O44: without a failed call the eight words are trivial encryptions of IV, and the only other end is F_CTX. -/
theorem hinitLaw : Obligations.HinitLaw := by
  intro s
  refine ⟨fun hs => ?_, fun hctx => ?_⟩
  · obtain ⟨n, hn, hrun⟩ := initHash_initial hs
    exact ⟨n, _, runCommand_ok hrun, completes_complete _, hn.tag, fun dec hG => hn.val hG⟩
  · obtain ⟨k, hk, hrun⟩ := collect_iv_ctx hctx
    exact ⟨k, hk, runCommand_error (bind_error hrun)⟩

end Sys2Proof.Machine
end

section
/-!
PROOF. HASH (R223, R224): a HASH that starts is HINIT and then a HASH in phase LOAD, and a HASH in phase LOAD completes, waits or
faults by the frames and the draws that are there.
-/

namespace Sys2Proof.Machine

/-! Where HASH begins. -/

theorem exec_hash_none (imm : U32) {s : State} (hp : s.seq.phase = .none) :
    exec (.hash imm) s = runCommand (hashAll Config.G imm) s :=
  if_neg (by rw [hp]; decide)

theorem exec_hash_load (imm : U32) {s : State} (hp : s.seq.phase = .load) :
    exec (.hash imm) s = runCommand (hashRest Config.G) s :=
  if_pos hp

/-- From its loop on, HASH writes the phase before anything reads it. -/
theorem hashRest_setPhase {G : Capability} (s : State) (p : Phase) : hashRest G (s.setPhase p) = hashRest G s := by
  rw [hashRest_run, hashRest_run, State.setPhase_seq_blkLeft]
  cases s.seq.blkLeft.toNat with
  | zero => rfl
  | succ n => rfl

/-- Where a HASH is once its HINIT has run: as if held in phase LOAD with all its blocks left (R223). -/
def State.hashStarted (s : State) (imm : U32) (n : Vector Word 8) : State :=
  (((s.setBlkLeft imm).setPhase .load).afterCalls 256 0).setHS n

@[simp] theorem State.hashStarted_r (s : State) (imm : U32) (n : Vector Word 8) : (s.hashStarted imm n).r = s.r := rfl

@[simp] theorem State.hashStarted_fcmd (s : State) (imm : U32) (n : Vector Word 8) : (s.hashStarted imm n).fcmd = s.fcmd := rfl

/-- A HASH whose HINIT meets no failure goes on as a HASH held in phase LOAD would (R223). -/
theorem exec_hash_start (imm : U32) {s : State} (hp : s.seq.phase = .none) (hs : s.NoFailure 256 0) :
    ∃ n, IsInitial n ∧ exec (.hash imm) s = exec (.hash imm) (s.hashStarted imm n) := by
  obtain ⟨n, hn, hinit⟩ := initHash_initial (s := (s.setBlkLeft imm).setPhase .hinit) hs
  refine ⟨n, hn, ?_⟩
  have hrun : hashAll Config.G imm s = hashRest Config.G (s.hashStarted imm n) := by
    rw [hashAll, bind_update, bind_update, bind_ok hinit]
    exact (hashRest_setPhase _ .load).symm
  rw [exec_hash_none imm hp, exec_hash_load imm rfl, runCommand, runCommand, hrun]

/-! What the draws leave. -/

/-- The environment after calls and batches, with nothing emitted (R15). -/
theorem afterCalls_env_eq (s : State) (c b : Nat) :
    (s.afterCalls c b).env = ⟨s.env.host, s.env.dout, s.env.ctxDraws.drop c, s.env.workerDraws.drop (8 * b)⟩ := rfl

/-- The draws of HINIT and then of c more calls and b batches are those of 256 + c calls (R331). -/
theorem State.hashStarted_afterCalls_env (s : State) (imm : U32) (n : Vector Word 8) (c b : Nat) :
    ((s.hashStarted imm n).afterCalls c b).env = (s.afterCalls (256 + c) b).env := by
  rw [afterCalls_env_eq, afterCalls_env_eq, ← List.drop_drop]
  rfl

/-- HINIT's 256 calls come before those of the blocks (R70, R223). -/
theorem State.NoFailure.hinit {s : State} {c b : Nat} (h : s.NoFailure (256 + c) b) : s.NoFailure 256 0 :=
  h.within 0 0 256 0 (by omega) (by omega)

theorem State.NoFailure.hashStarted {s : State} {c b : Nat} (h : s.NoFailure (256 + c) b) (imm : U32) (n : Vector Word 8) :
    (s.hashStarted imm n).NoFailure c b :=
  h.within 256 0 c b (le_refl _) (by omega)

/-! Faults. -/

/-- A HASH that ends where a fault is taken has kept the command word, the registers and the frames emitted (R266). -/
theorem Ending.hash_takeFault {imm : U32} {s u : State} {c : FaultCode} (h : Ending (.hash imm) s (u.takeFault c)) :
    u.seq.cmd = s.seq.cmd ∧ u.r = s.r ∧ u.env.dout = s.env.dout := by
  cases h with
  | hashed _ v ws hi h hs hsc ht => cases congrArg (fun t : State => t.status.state) ht
  | hashWaits _ hi h => exact ⟨h.cmd, h.r, h.dout⟩
  | hashFaulted _ c' v hi h hc ht =>
    have hseq : u.seq = v.seq := by simpa using congrArg State.seq ht
    have hr : u.r = v.r := by simpa using congrArg State.r ht
    have henv : u.env = v.env := by simpa using congrArg State.env ht
    exact ⟨hseq ▸ h.cmd, hr ▸ h.r, henv ▸ h.dout⟩
  | faulted c' v hi => exact absurd rfl (hi.2.1 imm)
  | wrote rd w v hd => cases hd
  | waits hi => obtain ⟨rd, hi⟩ | hi := hi <;> cases hi
  | frameFaulted f q hi => obtain ⟨rd, hi⟩ | hi := hi <;> cases hi
  | faultedInside c' v hi => obtain hi | ⟨rd, rs1, rs2, hi⟩ := hi <;> cases hi
  | added rd rs1 rs2 w v hi => cases hi
  | loaded rd w f q hi => cases hi
  | stored rs1 w hi => cases hi
  | blockLoaded b f q hi => cases hi
  | emitted ws hi => cases hi
  | initialised n v hi => cases hi
  | compressed v hi => cases hi

/-- HASH ends in this fault, its registers and the frames emitted as before (R266). -/
def HashFaults (imm : U32) (s : State) (c : FaultCode) : Prop :=
  ∃ t, exec (.hash imm) s = .next t ∧ t.status = ⟨.fatal, some c⟩ ∧ t.fcmd = s.seq.cmd ∧ t.r = s.r ∧ t.env.dout = s.env.dout

theorem hashFaults_of_exec {imm : U32} {s u : State} {c : FaultCode} (h : exec (.hash imm) s = .next (u.takeFault c)) :
    HashFaults imm s c := by
  obtain ⟨hcmd, hr, hdout⟩ := (exec_ending h).hash_takeFault
  exact ⟨_, h, rfl, hcmd, hr, hdout⟩

/-- The frames the host sends for these blocks (R55, R60). -/
abbrev framesOf (blocks : List (Vector Word 16)) : List Frame := blocks.map fun b => Frame.block (b.toList.map Vector.toList)

/-- From its start: the first failure among HINIT's draws and those of the blocks that are there (R268, R333). -/
theorem hashFaults_start {imm : U32} {s : State} {blocks : List (Vector Word 16)} {rest : List Frame} {c : FaultCode}
    (hp : s.seq.phase = .none) (hd : s.dinq = framesOf blocks ++ rest) (hl : blocks.length ≤ imm.toNat)
    (hc : s.firstFault (CapStep.hinit ++ CapStep.blocks blocks.length) = some c) : HashFaults imm s c := by
  obtain ⟨key, hkey⟩ := Config.some_key
  obtain ⟨u, hrun⟩ := hashAll_fault hkey hd hl hc
  exact hashFaults_of_exec ((exec_hash_none imm hp).trans (runCommand_error hrun))

/-- In phase LOAD: the first failure among the draws of the blocks that are there (R268, R333). -/
theorem hashFaults_load {imm : U32} {s : State} {h : Vector Word 8} {blocks : List (Vector Word 16)} {rest : List Frame}
    {c : FaultCode} (hp : s.seq.phase = .load) (hh : s.HoldsHS h) (hd : s.dinq = framesOf blocks ++ rest)
    (hl : blocks.length ≤ s.seq.blkLeft.toNat) (hc : s.firstFault (CapStep.blocks blocks.length) = some c) :
    HashFaults imm s c := by
  obtain ⟨key, hkey⟩ := Config.some_key
  obtain ⟨u, hrun⟩ := hashRest_fault hkey hd hh hl hc
  exact hashFaults_of_exec ((exec_hash_load imm hp).trans (runCommand_error hrun))

/-! One hash state for every key. -/

/-- The state an instruction ends in, and the words in its HS, do not depend on the key whose values a law speaks of. -/
theorem exec_for_every_key {i : Instr} {s : State} {P : State → Vector Word 8 → Prop} {Q : (Ct → Bool) → Vector Word 8 → Prop}
    (h : ∀ dec, Config.G.Fits dec → ∃ t n, exec i s = .next t ∧ t.HoldsHS n ∧ P t n ∧ Q dec n) :
    ∃ t n, exec i s = .next t ∧ P t n ∧ ∀ dec, Config.G.Fits dec → Q dec n := by
  obtain ⟨key, hkey⟩ := Config.some_key
  obtain ⟨t, n, hrun, hn, hP, -⟩ := h key hkey
  refine ⟨t, n, hrun, hP, fun dec hG => ?_⟩
  obtain ⟨t', n', hrun', hn', -, hQ⟩ := h dec hG
  obtain rfl := next_inj hrun hrun'
  rwa [filled_inj (hn.symm.trans hn')]

/-! Too few frames. -/

/-- In phase LOAD over fewer blocks than are left, with no frame after them (R61, R223). -/
theorem exec_hash_load_waits (imm : U32) {s : State} {h : Vector Word 8} {blocks : List (Vector Word 16)}
    (hp : s.seq.phase = .load) (hh : s.HoldsHS h) (hd : s.dinq = framesOf blocks) (hl : blocks.length < s.seq.blkLeft.toNat)
    (hs : s.NoFailure (130840 * blocks.length) (2824 * blocks.length)) :
    ∃ t n, exec (.hash imm) s = .next t ∧
      (HashWaiting s t blocks n ∧ t.seq.blkLeft.toNat = s.seq.blkLeft.toNat - blocks.length ∧
        t.env = (s.afterCalls (130840 * blocks.length) (2824 * blocks.length)).env) ∧
      ∀ dec, Config.G.Fits dec → vals dec n = (blocks.map (vals dec)).foldl Plain.compress (vals dec h) := by
  refine exec_for_every_key fun dec hG => ?_
  obtain ⟨u, n, hrun, hn, U⟩ := hashRest_waits hG (asBlock_frames blocks) hd hh hl hs
  exact ⟨_, n, (exec_hash_load imm hp).trans (runCommand_error hrun), U.hs, ⟨U.waiting, U.left hl.le, U.env⟩, hn⟩

/-- HINIT touches nothing that a wait leaves as it was. -/
theorem HashWaiting.of_hashStarted {s t : State} {imm : U32} {n0 n : Vector Word 8} {blocks : List (Vector Word 16)}
    (W : HashWaiting (s.hashStarted imm n0) t blocks n) : HashWaiting s t blocks n :=
  ⟨W.status, W.fcmd.trans (s.hashStarted_fcmd imm n0), W.cmd, W.phase, W.hs, W.blk, W.noBlk, W.scratch,
    W.r.trans (s.hashStarted_r imm n0), W.dinq⟩

/-- Settles O46: a HASH in phase LOAD waits by `exec_hash_load_waits`, and one that starts as it would after its HINIT. -/
theorem hashWaitsForFrames : Obligations.HashWaitsForFrames := by
  intro imm s blocks _ hd
  have hd' : s.dinq = framesOf blocks ++ [] := hd.trans (List.append_nil _).symm
  refine ⟨fun hp hl => ⟨fun hs => ?_, fun c hc => hashFaults_start hp hd' hl.le hc⟩,
    fun h hp hh hl => ⟨fun hs => ?_, fun c hc => hashFaults_load hp hh hd' hl.le hc⟩⟩
  · obtain ⟨n0, hn0, hstart⟩ := exec_hash_start imm hp hs.hinit
    obtain ⟨t, n, hrun, ⟨W, hleft, henv⟩, hn⟩ :=
      exec_hash_load_waits imm (s := s.hashStarted imm n0) rfl rfl hd hl (hs.hashStarted imm n0)
    exact ⟨t, n, hstart.trans hrun, W.of_hashStarted, hleft,
      henv.trans ((s.hashStarted_afterCalls_env imm n0 _ _).trans (afterCalls_env_eq _ _ _)),
      fun dec hG => by rw [hn dec hG, hn0.vals hG]⟩
  · obtain ⟨t, n, hrun, ⟨W, hleft, henv⟩, hn⟩ := exec_hash_load_waits imm hp hh hd hl hs
    exact ⟨t, n, hrun, W, hleft, henv.trans (afterCalls_env_eq _ _ _), hn⟩

/-! A frame that is no block. -/

/-- In phase LOAD over fewer blocks than are left, with a frame after them that is no block (R61, R223, R263). -/
theorem exec_hash_load_bad (imm : U32) {s : State} {h : Vector Word 8} {blocks : List (Vector Word 16)} {f : Frame}
    {rest : List Frame} (hp : s.seq.phase = .load) (hh : s.HoldsHS h) (hd : s.dinq = framesOf blocks ++ f :: rest)
    (hf : ∀ b : Vector Word 16, f ≠ .block (b.toList.map Vector.toList)) (hl : blocks.length < s.seq.blkLeft.toNat)
    (hs : s.NoFailure (130840 * blocks.length) (2824 * blocks.length)) :
    ∃ u : State, exec (.hash imm) s = .next (u.takeFault .fShape) ∧ u.seq.cmd = s.seq.cmd ∧ u.dinq = rest ∧ u.r = s.r ∧
      u.env = (s.afterCalls (130840 * blocks.length) (2824 * blocks.length)).env := by
  obtain ⟨key, hkey⟩ := Config.some_key
  have hbad : f.asBlock = none := Option.eq_none_iff_forall_ne_some.2 fun b hb => hf b (asBlock_iff.1 hb)
  obtain ⟨u, n, hrun, U⟩ := hashRest_bad hkey (asBlock_frames blocks) hd hbad hh hl hs
  exact ⟨_, (exec_hash_load imm hp).trans (runCommand_error hrun), U.cmd, rfl, U.r, U.env⟩

/-- Settles O48: a HASH in phase LOAD faults by `exec_hash_load_bad`, and one that starts as it would after its HINIT. -/
theorem hashBadFrame : Obligations.HashBadFrame := by
  intro imm s blocks f rest hd hf
  refine ⟨fun hp hl => ⟨fun hs => ?_, fun c hc => hashFaults_start hp hd hl.le hc⟩,
    fun h hp hh hl => ⟨fun hs => ?_, fun c hc => hashFaults_load hp hh hd hl.le hc⟩⟩
  · obtain ⟨n0, -, hstart⟩ := exec_hash_start imm hp hs.hinit
    obtain ⟨u, hrun, hcmd, hdinq, hr, henv⟩ :=
      exec_hash_load_bad imm (s := s.hashStarted imm n0) rfl rfl hd hf hl (hs.hashStarted imm n0)
    exact ⟨_, hstart.trans hrun, rfl, hcmd, hdinq, hr,
      henv.trans ((s.hashStarted_afterCalls_env imm n0 _ _).trans (afterCalls_env_eq _ _ _))⟩
  · obtain ⟨u, hrun, hcmd, hdinq, hr, henv⟩ := exec_hash_load_bad imm hp hh hd hf hl hs
    exact ⟨_, hrun, rfl, hcmd, hdinq, hr, henv.trans (afterCalls_env_eq _ _ _)⟩

/-! Blocks that are there. -/

/-- t is where commands have completed that since s, with c calls and b batches, took these blocks from DINQ and left rest,
made n of HS with them and emitted out (R34, R223). -/
structure Absorbed (c b : Nat) (s t : State) (blocks : List (Vector Word 16)) (rest : List Frame) (n : Vector Word 8)
    (out : List Word) : Prop where
  status : t.status = ⟨.idle, s.status.fault⟩
  phase : t.seq.phase = .none
  fcmd : t.fcmd = s.fcmd
  r : t.r = s.r
  dinq : t.dinq = rest
  hs : t.HoldsHS n
  blk : t.blk = blocks.getLast?.elim s.blk filled
  scratch : t.scratch = if blocks = [] then s.scratch else Scratch.empty
  env : t.env = ⟨s.env.host, s.env.dout ++ out, s.env.ctxDraws.drop c, s.env.workerDraws.drop (8 * b)⟩

section

variable {c b : Nat} {s t : State} {blocks : List (Vector Word 16)} {rest : List Frame} {n : Vector Word 8} {out : List Word}

theorem Absorbed.blk_last (A : Absorbed c b s t blocks rest n out) : ∀ b ∈ blocks.getLast?, t.HoldsBLK b := by
  intro b hb
  rw [State.HoldsBLK, A.blk, hb]
  rfl

theorem Absorbed.blk_nil (A : Absorbed c b s t blocks rest n out) (h : blocks = []) : t.blk = s.blk := by
  subst h
  exact A.blk

/-- HINIT touches nothing but HS and its draws, and the frames emitted after it are those of the whole HASH. -/
theorem Absorbed.of_hashStarted {imm : U32} {n0 : Vector Word 8} (A : Absorbed c b (s.hashStarted imm n0) t blocks rest n out) :
    Absorbed (256 + c) b s t blocks rest n out :=
  ⟨A.status, A.phase, A.fcmd.trans (s.hashStarted_fcmd imm n0), A.r.trans (s.hashStarted_r imm n0), A.dinq, A.hs, A.blk,
    A.scratch, by rw [A.env, ← List.drop_drop]; rfl⟩

end

/-- In phase LOAD over the blocks still left (R223, R224). -/
theorem exec_hash_load_ok (imm : U32) {s : State} {h : Vector Word 8} {blocks : List (Vector Word 16)} {rest : List Frame}
    (hp : s.seq.phase = .load) (hh : s.HoldsHS h) (hd : s.dinq = framesOf blocks ++ rest)
    (hl : blocks.length = s.seq.blkLeft.toNat) (hs : s.NoFailure (130840 * blocks.length) (2824 * blocks.length)) :
    ∃ t n, exec (.hash imm) s = .next t ∧
      Absorbed (130840 * blocks.length) (2824 * blocks.length) s t blocks rest n n.toList ∧
      ∀ dec, Config.G.Fits dec → vals dec n = (blocks.map (vals dec)).foldl Plain.compress (vals dec h) := by
  refine exec_for_every_key fun dec hG => ?_
  obtain ⟨u, n, hrun, hn, U⟩ := hashRest_ok hG (asBlock_frames blocks) hd hh hl hs
  refine ⟨_, n, (exec_hash_load imm hp).trans (runCommand_ok hrun), U.hs, ?_, hn⟩
  exact {
    status := congrArg (Status.mk .idle) (congrArg Status.fault U.status)
    phase := rfl
    fcmd := U.fcmd
    r := U.r
    dinq := U.dinq
    hs := U.hs
    blk := U.blk.trans (by cases blocks.getLast? <;> rfl)
    scratch := U.scratch
    env := congrArg (fun e : Env => { e with dout := e.dout ++ n.toList }) (U.env.trans (afterCalls_env_eq _ _ _)) }

/-- From its start over as many blocks as its count (R223, R224). -/
theorem exec_hash_ok {imm : U32} {s : State} {blocks : List (Vector Word 16)} {rest : List Frame} (hp : s.seq.phase = .none)
    (hd : s.dinq = framesOf blocks ++ rest) (hl : blocks.length = imm.toNat)
    (hs : s.NoFailure (256 + 130840 * blocks.length) (2824 * blocks.length)) :
    ∃ t n, exec (.hash imm) s = .next t ∧
      Absorbed (256 + 130840 * blocks.length) (2824 * blocks.length) s t blocks rest n n.toList ∧
      ∀ dec, Config.G.Fits dec → vals dec n = (blocks.map (vals dec)).foldl Plain.compress Plain.iv := by
  obtain ⟨n0, hn0, hstart⟩ := exec_hash_start imm hp hs.hinit
  obtain ⟨t, n, hrun, A, hn⟩ := exec_hash_load_ok imm (s := s.hashStarted imm n0) rfl rfl hd hl (hs.hashStarted imm n0)
  exact ⟨t, n, hstart.trans hrun, A.of_hashStarted, fun dec hG => by rw [hn dec hG, hn0.vals hG]⟩

/-- Settles O47, by the runs of a HASH in phase LOAD with and without a failure. -/
theorem hashGoesOn : Obligations.HashGoesOn := by
  intro imm s h blocks rest hp hh hl hd
  refine ⟨fun hs => ?_, fun c hc => hashFaults_load hp hh hd hl.le hc⟩
  obtain ⟨t, n, hrun, A, hn⟩ := exec_hash_load_ok imm hp hh hd hl hs
  exact ⟨t, n, hrun, A.status, A.phase, A.fcmd, A.r, A.dinq, A.hs, A.blk_last, A.blk_nil, A.scratch, A.env, hn⟩

/-- Settles O45, by the runs of a HASH from its start with and without a failure. -/
theorem hashLaw : Obligations.HashLaw := by
  intro imm s blocks rest hp hd hl
  rw [Instr.capSteps, ← hl]
  refine ⟨fun hs => ?_, fun c hc => hashFaults_start hp hd hl.le hc⟩
  obtain ⟨t, n, hrun, A, hn⟩ := exec_hash_ok hp hd hl hs
  exact ⟨t, n, hrun, A.status, A.phase, A.fcmd, A.r, A.dinq, A.hs, A.blk_last, A.blk_nil, A.scratch, A.env, hn⟩

end Sys2Proof.Machine
end

section
/-!
PROOF. HASH as a whole (R224, R311): the explicit sequence of commands leaves what HASH leaves, in value, and the digest of an
encrypted padded message is its SHA-256.
-/

namespace Sys2Proof.Machine

/-! The explicit sequence. -/

section

variable {c b c' b' : Nat} {s t u : State} {blocks blocks' : List (Vector Word 16)} {rest rest' : List Frame}
  {n n' : Vector Word 8} {out out' : List Word}

/-- No command at all. -/
theorem Absorbed.refl (hidle : s.status.state = .idle) (hp : s.seq.phase = .none) (hh : s.HoldsHS n) :
    Absorbed 0 0 s s [] s.dinq n [] :=
  ⟨congrArg (Status.mk · s.status.fault) hidle, hp, rfl, rfl, rfl, hh, rfl, rfl, by rw [List.append_nil]; rfl⟩

/-- Some commands and then others. -/
theorem Absorbed.trans (A : Absorbed c b s t blocks rest n out) (B : Absorbed c' b' t u blocks' rest' n' out') :
    Absorbed (c + c') (b + b') s u (blocks ++ blocks') rest' n' (out ++ out') where
  status := by rw [B.status, A.status]
  phase := B.phase
  fcmd := B.fcmd.trans A.fcmd
  r := B.r.trans A.r
  dinq := B.dinq
  hs := B.hs
  blk := by
    rw [B.blk, A.blk, List.getLast?_append]
    cases blocks'.getLast? <;> rfl
  scratch := by
    rw [B.scratch, A.scratch]
    by_cases h : blocks' = []
    · simp [h]
    · simp [h]
  env := by rw [B.env, A.env, List.drop_drop, List.drop_drop, List.append_assoc, Nat.mul_add]

theorem Absorbed.idle (A : Absorbed c b s t blocks rest n out) : t.status.state = .idle := congrArg Status.state A.status

/-- What the draws of the commands before leave to those after. -/
theorem Absorbed.noFailure (A : Absorbed c b s t blocks rest n out) (h : s.NoFailure (c + c') (b + b')) : t.NoFailure c' b' :=
  h.split.2.of_draws (by rw [A.env]; rfl) (by rw [A.env]; rfl)

end

/-- A command that has completed makes way for the next (R59, R68). -/
theorem runCommands_cons {i : Instr} {s t : State} (hrun : exec i (s.accept (encode i)) = .next t)
    (hidle : t.status.state = .idle) (is : List Instr) : runCommands (i :: is) s = runCommands is t := by
  rw [runCommands, hrun]
  exact if_pos hidle

/-- HINIT, handed over in IDLE (R222). -/
theorem runCommands_hinit {s : State} (hs : s.NoFailure 256 0) (is : List Instr) :
    ∃ t n, runCommands (.hinit :: is) s = runCommands is t ∧ Absorbed 256 0 s t [] s.dinq n [] ∧ IsInitial n := by
  obtain ⟨n, hn, hrun⟩ := initHash_initial (s := s.accept (encode .hinit)) hs
  refine ⟨_, n, runCommands_cons (i := .hinit) (runCommand_ok hrun) rfl is, ?_, hn⟩
  exact ⟨rfl, rfl, rfl, rfl, rfl, rfl, rfl, rfl, by rw [List.append_nil]; rfl⟩

/-- Where a COMPRESS completes that was handed over after an LDBLK, whatever their command words (R194, R242). -/
theorem absorbed_block (c b : Nat) (s : State) (blk : Vector Word 16) (rest : List Frame) (n : Vector Word 8)
    (load compress : CmdWord) (t : Fin 64) (ci : Fin 32) :
    Absorbed c b s
      ((((((((s.accept load).setDinq rest).setBLK blk).complete.accept compress).afterCalls c b).during Scratch.empty t ci).setHS
        n).setPhase .none).complete [blk] rest n [] where
  status := rfl
  phase := rfl
  fcmd := by simp [State.during, State.afterCalls]
  r := by simp [State.during, State.afterCalls]
  dinq := by simp [State.during, State.afterCalls]
  hs := rfl
  blk := rfl
  scratch := rfl
  env := by rw [List.append_nil]; rfl

/-- LDBLK and COMPRESS, handed over in IDLE with a block there (R195, R242). -/
theorem runCommands_block {s : State} {h : Vector Word 8} {b : Vector Word 16} {rest : List Frame} (hh : s.HoldsHS h)
    (hd : s.dinq = Frame.block (b.toList.map Vector.toList) :: rest) (hs : s.NoFailure 130840 2824) (is : List Instr) :
    ∃ t n, runCommands (.ldblk :: .compress :: is) s = runCommands is t ∧ Absorbed 130840 2824 s t [b] rest n [] ∧
      ∀ dec, Config.G.Fits dec → vals dec n = Plain.compress (vals dec h) (vals dec b) := by
  have hload : exec .ldblk (s.accept (encode .ldblk)) = .next _ := runCommand_ok (loadBlock_ok hd (asBlock_iff.2 rfl))
  obtain ⟨n, hrun, hn⟩ := exec_compress_ok
    (s := (((s.accept (encode .ldblk)).setDinq rest).setBLK b).complete.accept (encode .compress)) hh rfl hs
  exact ⟨_, n, (runCommands_cons hload rfl _).trans (runCommands_cons hrun rfl is), absorbed_block .., hn⟩

/-- LDBLK and COMPRESS for each block in turn, by induction on the blocks (R311). -/
theorem runCommands_blocks (is : List Instr) (rest : List Frame) : ∀ (blocks : List (Vector Word 16)) (s : State)
    (h : Vector Word 8), s.status.state = .idle → s.seq.phase = .none → s.HoldsHS h → s.dinq = framesOf blocks ++ rest →
    s.NoFailure (130840 * blocks.length) (2824 * blocks.length) →
    ∃ t n, runCommands ((List.replicate blocks.length [.ldblk, .compress]).flatten ++ is) s = runCommands is t ∧
      Absorbed (130840 * blocks.length) (2824 * blocks.length) s t blocks rest n [] ∧
      ∀ dec, Config.G.Fits dec → vals dec n = (blocks.map (vals dec)).foldl Plain.compress (vals dec h) := by
  intro blocks
  induction blocks with
  | nil =>
    intro s h hidle hp hh hd _
    obtain rfl : s.dinq = rest := hd
    exact ⟨s, h, rfl, .refl hidle hp hh, fun _ _ => rfl⟩
  | cons b blocks ih =>
    intro s h hidle hp hh hd hs
    rw [List.length_cons, Nat.mul_add_one, Nat.mul_add_one, Nat.add_comm _ 130840, Nat.add_comm _ 2824] at hs ⊢
    obtain ⟨t, m, hfirst, A, hm⟩ := runCommands_block hh hd hs.split.1
      ((List.replicate blocks.length [.ldblk, .compress]).flatten ++ is)
    obtain ⟨u, n, hothers, B, hn⟩ := ih t m A.idle A.phase A.hs A.dinq (A.noFailure hs)
    refine ⟨u, n, hfirst.trans hothers, A.trans B, fun dec hG => ?_⟩
    rw [hn dec hG, hm dec hG, List.map_cons, List.foldl_cons]

/-- RDH, handed over in IDLE with words in HS (R243). -/
theorem runCommands_rdh {s : State} {n : Vector Word 8} (hh : s.HoldsHS n) :
    ∃ t, runCommands [.rdh] s = some t ∧ Absorbed 0 0 s t [] s.dinq n n.toList := by
  have hrun : exec .rdh (s.accept (encode .rdh)) = .next _ := runCommand_ok (emitDigest_ok (s := s.accept (encode .rdh)) hh)
  exact ⟨_, runCommands_cons hrun rfl [], rfl, rfl, rfl, rfl, rfl, hh, rfl, rfl, rfl⟩

/-- The explicit sequence over as many blocks as it has pairs (R311). -/
theorem runCommands_explicitHash {s : State} {blocks : List (Vector Word 16)} {rest : List Frame}
    (hd : s.dinq = framesOf blocks ++ rest) (hs : s.NoFailure (256 + 130840 * blocks.length) (2824 * blocks.length)) :
    ∃ t n, runCommands (explicitHash blocks.length) s = some t ∧
      Absorbed (256 + 130840 * blocks.length) (2824 * blocks.length) s t blocks rest n n.toList ∧
      ∀ dec, Config.G.Fits dec → vals dec n = (blocks.map (vals dec)).foldl Plain.compress Plain.iv := by
  obtain ⟨t, n0, hinit, A, hn0⟩ := runCommands_hinit hs.hinit
    ((List.replicate blocks.length [.ldblk, .compress]).flatten ++ [.rdh])
  rw [← Nat.zero_add (2824 * blocks.length)] at hs ⊢
  obtain ⟨u, n, hblocks, B, hn⟩ := runCommands_blocks [.rdh] rest blocks t n0 A.idle A.phase A.hs (A.dinq.trans hd)
    (A.noFailure hs)
  obtain ⟨v, hrdh, D⟩ := runCommands_rdh B.hs
  have AB := (A.trans B).trans D
  rw [List.append_nil, B.dinq] at AB
  exact ⟨v, n, hinit.trans (hblocks.trans hrdh), AB, fun dec hG => by rw [hn dec hG, hn0.vals hG]⟩

/-- Settles O49: HASH and the explicit sequence absorb the same blocks with the same draws. -/
theorem hashIsExplicitSequence : Obligations.HashIsExplicitSequence := by
  intro imm s blocks rest _ hd hl hs
  rw [← hl] at hs ⊢
  obtain ⟨t, n, hhash, A, hn⟩ := exec_hash_ok (s := s.accept (encode (.hash imm))) rfl hd hl hs
  obtain ⟨u, m, hexplicit, B, hm⟩ := runCommands_explicitHash hd hs
  refine ⟨t, u, n, m, hhash, hexplicit, A.hs, B.hs, congrArg Env.dout A.env, congrArg Env.dout B.env,
    A.blk.trans B.blk.symm, A.dinq.trans B.dinq.symm, A.r.trans B.r.symm, A.status.trans B.status.symm,
    A.scratch.trans B.scratch.symm, ?_, ?_, fun dec hG => (hn dec hG).trans (hm dec hG).symm⟩
  · exact (congrArg Env.ctxDraws A.env).trans (congrArg Env.ctxDraws B.env).symm
  · exact (congrArg Env.workerDraws A.env).trans (congrArg Env.workerDraws B.env).symm

/-! The digest of a message. -/

/-- A plain word of a bit sequence is the value of the encrypted word whose cells decrypt to its bits (R10, R52). -/
theorem wordAt_eq_val {dec : Ct → Bool} {bits : List Bool} {k : Nat} {w : Word}
    (h : ∀ i : Fin 32, bits[32 * k + i.val]? = some (dec w[i])) : Plain.wordAt bits k = val dec w := by
  simp only [Plain.wordAt, val, List.getD_eq_getElem?_getD, h, Option.getD_some]

/-- The plain blocks of a bit sequence are the values of the encrypted blocks whose cells decrypt to its bits (R53). -/
theorem blocks_eq_map_vals {dec : Ct → Bool} {bits : List Bool} {blocks : List (Vector Word 16)}
    (hlen : 512 * blocks.length = bits.length)
    (h : ∀ (b : Fin blocks.length) (k : Fin 16) (i : Fin 32),
      bits[512 * b.val + 32 * k.val + i.val]? = some (dec (blocks[b])[k][i])) :
    Plain.blocks bits = blocks.map (vals dec) := by
  have hcount : bits.length / 512 = blocks.length := by omega
  refine List.ext_getElem (by simp [Plain.blocks, hcount]) fun b _ hb => ?_
  rw [List.length_map] at hb
  simp only [Plain.blocks, List.getElem_map, List.getElem_range]
  refine Vector.ext fun k hk => ?_
  have hword : Plain.wordAt bits (16 * b + k) = val dec blocks[b][k] := wordAt_eq_val fun i => by
    rw [show 32 * (16 * b + k) + i.val = 512 * b + 32 * k + i.val by omega]
    exact h ⟨b, hb⟩ ⟨k, hk⟩ i
  exact (Vector.getElem_ofFn hk).trans (hword.trans (getElem_vals dec blocks[b] ⟨k, hk⟩).symm)

/-- Digest bit j is a digit of the value of its word, most significant first (R54). -/
theorem digestBit_eq (dec : Ct → Bool) (n : Vector Word 8) (j : Fin 256) :
    digestBit dec n j = ((vals dec n)[j.val / 32]'(by omega)).getLsbD (31 - j.val % 32) := by
  have hbit := bitOf_val dec (n[j.val / 32]'(by omega)) ⟨j.val % 32, by omega⟩
  have hval : (vals dec n)[j.val / 32]'(by omega) = val dec (n[j.val / 32]'(by omega)) :=
    getElem_vals dec n ⟨j.val / 32, by omega⟩
  rw [hval]
  exact hbit.symm

/-- Settles O50: HASH folds the compression over the blocks' values, which are the blocks of the padded message. -/
theorem digestOfMessage : Obligations.DigestOfMessage := by
  intro dec msg imm s blocks rest hG hp hpad hl hbits hd hs
  rw [← hl] at hs
  obtain ⟨t, n, hrun, A, hn⟩ := exec_hash_ok hp hd hl hs
  have hdigest : vals dec n = Plain.sha256 msg := by
    rw [hn dec hG, Plain.sha256, Plain.hash, blocks_eq_map_vals hpad hbits]
  refine ⟨t, n, hrun, A.idle, congrArg Env.dout A.env, A.hs, hdigest, fun j => ?_⟩
  rw [digestBit_eq]
  simp only [hdigest]

end Sys2Proof.Machine
end

section
/-!
PROOF. Transfers (R240 to R243): LDW and LDBLK end as the frame at the head of DINQ says, STW and RDH as the words they emit.
-/

namespace Sys2Proof.Machine

/-! Taking a frame (R61). -/

theorem takeFrame_nil {α : Type} {shape : Frame → Option α} {s : State} (hd : s.dinq = []) :
    takeFrame shape s = .error .held s := by
  simp only [takeFrame, hd]

theorem takeFrame_some {α : Type} {shape : Frame → Option α} {s : State} {f : Frame} {q : List Frame} {x : α}
    (hd : s.dinq = f :: q) (hf : shape f = some x) : takeFrame shape s = .ok x (s.setDinq q) := by
  simp only [takeFrame, hd, hf]

theorem takeFrame_none {α : Type} {shape : Frame → Option α} {s : State} {f : Frame} {q : List Frame}
    (hd : s.dinq = f :: q) (hf : shape f = none) :
    takeFrame shape s = .error .faulted ((s.setDinq q).takeFault .fShape) := by
  simp only [takeFrame, hd, hf]

/-! The commands that load a frame. -/

/-- From s, the instruction takes a frame of the given shape and stores what the frame carries. -/
def LoadsFrame {α : Type} (i : Instr) (s : State) (shape : Frame → Option α) (store : α → State → State) : Prop :=
  exec i s = runCommand (takeFrame shape >>= fun x => update (store x)) s

theorem loadsFrame_ldw (rd : Reg) (s : State) : LoadsFrame (.ldw rd) s Frame.asWord fun w u => u.setR rd w := rfl

theorem loadsFrame_ldblk (s : State) : LoadsFrame .ldblk s Frame.asBlock fun b u => u.setBLK b := rfl

/-- The three ends of such a command, where the frames of the shape are the frames `frameOf x`. -/
theorem LoadsFrame.outcomes {α : Type} {i : Instr} {s : State} {shape : Frame → Option α} {store : α → State → State}
    (h : LoadsFrame i s shape store) {frameOf : α → Frame} (hshape : ∀ {f x}, shape f = some x ↔ f = frameOf x) :
    (s.dinq = [] → exec i s = .next s) ∧
    (∀ x q, s.dinq = frameOf x :: q → ∃ t, exec i s = .next t ∧ (store x (s.setDinq q)).Completes t) ∧
    (∀ f q, s.dinq = f :: q → (∀ x, f ≠ frameOf x) → exec i s = .next ((s.setDinq q).takeFault .fShape)) := by
  unfold LoadsFrame at h
  rw [h]
  refine ⟨fun hd => ?_, fun x q hd => ?_, fun f q hd hf => ?_⟩
  · exact runCommand_error (bind_error (takeFrame_nil hd))
  · exact ⟨_, runCommand_ok (bind_ok (takeFrame_some hd (hshape.2 rfl))), completes_complete _⟩
  · have hbad : shape f = none := Option.eq_none_iff_forall_ne_some.2 fun x hx => hf x (hshape.1 hx)
    exact runCommand_error (bind_error (takeFrame_none hd hbad))

/-- Settles O51: the frames LDW takes are the words' cells. -/
theorem ldwLaw : Obligations.LdwLaw := fun rd s => (loadsFrame_ldw rd s).outcomes asWord_iff

/-- Settles O53: the frames LDBLK takes are the blocks' sixteen words of cells. -/
theorem ldblkLaw : Obligations.LdblkLaw := fun s => (loadsFrame_ldblk s).outcomes asBlock_iff

/-! The commands that emit. -/

theorem exec_stw_ok {rs1 : Reg} {s : State} {w : Word} (hw : s.r[rs1] = some w) :
    exec (.stw rs1) s = .next (s.emit w).complete :=
  (runCommand_readR hw _).trans (runCommand_ok (update_run _ s))

/-- Settles O52: an `empty` source faults before anything is emitted; otherwise only the host's history grows. -/
theorem stwLaw : Obligations.StwLaw := by
  intro rs1 s
  refine ⟨emptySourceFaults _ s rs1 (List.mem_singleton.2 rfl), fun w hw => ?_⟩
  exact ⟨_, exec_stw_ok hw, rfl, rfl, rfl, rfl, rfl, rfl, rfl, rfl, rfl⟩

/-- The check of all eight words comes before the first frame (R243). -/
theorem shapeFaults_emitDigest {s : State} (h : s.LacksHS) : ShapeFaults s emitDigest :=
  shapeFaults_collect (fun k s => s.hs[k]) h _

/-- Eight words in index order, `h[0]` first (R54). -/
theorem toList_eq_eight {α : Type} (h : Vector α 8) : h.toList = [h[0], h[1], h[2], h[3], h[4], h[5], h[6], h[7]] := by
  conv_lhs => rw [← Vector.ofFn_getElem (xs := h), Vector.toList_ofFn]
  rfl

/-- Settles O54: a word of HS that is `empty` faults before anything is emitted; otherwise only the host's history grows. -/
theorem rdhLaw : Obligations.RdhLaw := by
  intro s
  refine ⟨fun hlacks => (shapeFaults_emitDigest hlacks).runCommand, fun h hh => ?_⟩
  rw [← toList_eq_eight]
  exact ⟨_, runCommand_ok (emitDigest_ok hh), rfl, rfl, rfl, rfl, rfl, rfl, rfl, rfl, rfl⟩

end Sys2Proof.Machine
end

section
/-!
PROOF. Exceptions (R59, R61, R261 to R269, R303): illegal words, that every step answers, FATAL, and what a fault leaves and is caused by.
-/

namespace Sys2Proof.Machine

/-! The step. -/

/-- Settles O7: the work on an undecodable word is the fault, taken in the state that accepted the word. -/
theorem illegalWordFaults : Obligations.IllegalWordFaults := by
  intro s cw es hidle hhost hes hnone
  have hstep : step s = .next (((s.setHost es).accept cw).takeFault .fIllegal) := by
    rw [(State.Begins.accepted es hidle hhost).step_eq_work, work_of_unstruck hes, runWord, hnone]
  exact ⟨_, hstep, rfl, rfl, rfl, rfl, rfl, rfl, rfl, rfl⟩

theorem exec_next (i : Instr) (s : State) : ∃ t, exec i s = .next t := by
  obtain ⟨m, -, hm⟩ := exec_uses i s
  exact hm ▸ runCommand_next m s

theorem runWord_next (cw : CmdWord) (s : State) : ∃ t, runWord cw s = .next t := by
  unfold runWord
  cases decode cw with
  | none => exact ⟨_, rfl⟩
  | some i => exact exec_next i s

/-- A reset that strikes the work ends it in a state too (R301). -/
theorem work_next (cw : CmdWord) (s : State) : ∃ t, work cw s = .next t := by
  obtain ⟨t, ht⟩ := runWord_next cw s
  unfold work
  split
  · rw [ht]
    exact ⟨_, rfl⟩
  · exact ⟨t, ht⟩

/-- A step is the sequencer's work, where it can begin some, and else the host's act. -/
theorem step_next (s : State) : ∃ t, step s = .next t := by
  by_cases h : ∃ cw u, s.Begins cw u
  · obtain ⟨cw, u, hu⟩ := h
    rw [hu.step_eq_work]
    exact work_next cw u
  · refine ⟨_, step_eq_hostNext (fun hidle cw es hhost => h ⟨cw, _, .accepted es hidle hhost⟩) fun hbusy => ?_⟩
    by_contra hframe
    exact h ⟨_, s, .resumed hbusy rfl hframe⟩

/-- Settles O11. -/
theorem everyStepAnswersNext : Obligations.EveryStepAnswersNext := ⟨exec_next, step_next⟩

/-- Settles O15: in FATAL only the host acts, and it leaves all but its own list and DINQ, or it resets. -/
theorem fatalLeftOnlyByReset : Obligations.FatalLeftOnlyByReset := by
  intro s t hs h
  obtain rfl := (step_stepped h).eq_hostNext_of_fatal hs
  obtain ⟨q, es, hnext⟩ | ⟨e, es, hhost, he, hnext⟩ := hostNext_cases s
  · rw [hnext]
    exact .inl ⟨rfl, rfl, rfl, rfl, rfl, rfl, rfl, rfl, rfl, rfl⟩
  · exact .inr ⟨e, es, hhost, he, hnext⟩

/-! What a fault leaves (R266). -/

/-- How a command ends where it faults: work that keeps what HASH keeps, then a fault the command may raise (R261);
the work of a command other than HASH has written neither `HS` nor `BLK`. -/
structure Faulted (i : Instr) (s u : State) (c : FaultCode) : Prop where
  cause : i.mayRaise c
  kept : HashRun s u
  storage : (∀ imm, i ≠ .hash imm) → u.hs = s.hs ∧ u.blk = s.blk

theorem Faulted.of_inside {i : Instr} {s u : State} {c : FaultCode} (hc : Caused i.mayRaise s c) (h : Inside s u) :
    Faulted i s u c := ⟨hc.1, h.hashRun, fun _ => ⟨h.hs, h.blk⟩⟩

/-- An instruction that starts in BUSY and ends in FATAL has taken a fault. -/
theorem Ending.faulted_of_fatal {i : Instr} {s t : State} (h : Ending i s t) (hs : s.status.state = .busy)
    (ht : t.status.state = .fatal) : ∃ c u, Faulted i s u c ∧ t = u.takeFault c := by
  cases h
  case faulted c u hi h hc ht => exact ⟨c, u, .of_inside hc h.inside, ht⟩
  case faultedInside c u hi h hc ht => exact ⟨c, u, .of_inside hc h, ht⟩
  case hashFaulted imm c u hi h hc ht => exact ⟨c, u, ⟨hc.1, h, fun hnot => absurd hi (hnot imm)⟩, ht⟩
  case frameFaulted f q hi hd ht =>
    have hshape : i.mayRaise .fShape := by obtain ⟨rd, rfl⟩ | rfl := hi <;> simp [Instr.mayRaise]
    exact ⟨.fShape, s.setDinq q, ⟨hshape, ⟨rfl, rfl, rfl, rfl, rfl, rfl, id, id, id, id, id⟩, fun _ => ⟨rfl, rfl⟩⟩, ht⟩
  case waits hi hd hts =>
    rw [hts, hs] at ht
    cases ht
  case hashWaits imm hi h hsc hp hl hle hpres hd =>
    rw [h.status, hs] at ht
    cases ht
  all_goals
    subst_vars
    cases ht

/-- Settles O17, from the ways a command can fault. -/
theorem faultWritesNothing : Obligations.FaultWritesNothing := by
  intro i s t hs h ht
  obtain ⟨c, u, hf, rfl⟩ := (exec_ending h).faulted_of_fatal hs ht
  exact ⟨⟨c, rfl, hf.cause⟩, hf.kept.cmd, hf.kept.r, hf.kept.dout, hf.kept.host, hf.storage⟩

/-! What a fault is caused by (R262, R264). -/

/-- STATUS is as it was. -/
def SameStatus (s t : State) : Prop := t.status = s.status

theorem sameStatus_chains : Chains SameStatus fun _ _ => True := ⟨fun _ => rfl, fun h k => Eq.trans k h, fun _ _ => trivial⟩

/-- Work whose every fault has its cause among the draws used, and which leaves STATUS alone until it faults:
so a state in FATAL is one where it faulted, and not one where it waits. -/
structure Accounted {α : Type} (m : Micro α) : Prop where
  uses : Uses m
  status : Keeps True SameStatus (fun _ _ => True) m

theorem accounted_bind {α β : Type} {m : Micro α} {f : α → Micro β} (hm : Accounted m) (hf : ∀ a, Accounted (f a)) :
    Accounted (m >>= f) :=
  ⟨uses_bind hm.uses fun a => (hf a).uses, keeps_bind sameStatus_chains hm.status fun a => (hf a).status⟩

theorem accounted_read (x : State → Option Word) : Accounted (readElement x) :=
  ⟨uses_read x, keeps_readElement sameStatus_chains (fun _ => trivial) x⟩

theorem accounted_frame {α : Type} (shape : Frame → Option α) : Accounted (takeFrame shape) :=
  ⟨uses_frame shape, fun s => post_frame (fun _ => ⟨trivial, rfl⟩) (fun _ _ _ _ _ => rfl)
    fun _ q _ _ => ⟨s.setDinq q, .fShape, rfl, trivial, rfl⟩⟩

theorem accounted_update {f : State → State}
    (hf : ∀ s, (f s).env.ctxDraws = s.env.ctxDraws ∧ (f s).env.workerDraws = s.env.workerDraws ∧ (f s).status = s.status) :
    Accounted (update f) :=
  ⟨uses_update fun s => ⟨(hf s).1, (hf s).2.1⟩, keeps_update fun s => (hf s).2.2⟩

/-- Computing a word leaves STATUS, whatever faults it may end in. -/
theorem Keeps.accounted {C : State → FaultCode → Prop} {α : Type} {m : Micro α} (h : Keeps True Inside C m) (hm : Uses m) :
    Accounted m :=
  ⟨hm, h.weaken Inside.status fun _ => trivial⟩

/-- Every fault allowed. -/
abbrev AnyFault (_ : FaultCode) : Prop := True

theorem accounted_batch (q : BatchOp) : Accounted (batch Config.G q) :=
  (keeps_batch (A := AnyFault) trivial trivial q).inside.accounted (uses_batch q)

theorem accounted_trivW (v : U32) : Accounted (trivW Config.G v) :=
  (keeps_trivW (A := AnyFault) trivial v).inside.accounted (uses_trivW v)

theorem accounted_compress : Accounted (compress Config.G) :=
  ⟨uses_compress, (keeps_compress (A := AnyFault) trivial trivial trivial).weaken HashRun.status fun _ => trivial⟩

theorem accounted_hashBlocks (n : Nat) : Accounted (hashBlocks Config.G n) :=
  ⟨uses_hashBlocks n, (keeps_hashBlocks (A := AnyFault) trivial trivial trivial n).weaken HashRun.status fun _ => trivial⟩

theorem accounted_collect {α : Type} {n : Nat} {f : Fin n → Micro α} (hf : ∀ i, Accounted (f i)) : Accounted (collect n f) :=
  ⟨uses_collect fun i => (hf i).uses, keeps_collect sameStatus_chains fun i => (hf i).status⟩

theorem accounted_initHash : Accounted (initHash Config.G) :=
  accounted_bind (accounted_collect fun _ => accounted_trivW _) fun _ => accounted_update fun _ => ⟨rfl, rfl, rfl⟩

theorem accounted_emitDigest : Accounted emitDigest := by
  have frame : ∀ w, Keeps True SameStatus (fun _ _ => True) (doutWordFrame w) := fun _ => keeps_update fun _ => rfl
  have reads : Accounted (collect 8 readHS) := accounted_collect fun _ => accounted_read _
  exact ⟨uses_emitDigest, keeps_bind sameStatus_chains reads.status fun _ =>
    keeps_forRange sameStatus_chains (fun _ => frame _) 8⟩

theorem accounted_hashRest : Accounted (hashRest Config.G) := by
  refine ⟨uses_hashRest, fun s => ?_⟩
  have rest : Accounted (hashBlocks Config.G s.seq.blkLeft.toNat >>= fun _ => update (fun s => s.setPhase .out) >>= fun _ =>
      emitDigest >>= fun _ => update fun s => s.setPhase .none) :=
    accounted_bind (accounted_hashBlocks _) fun _ => accounted_bind (accounted_update fun _ => ⟨rfl, rfl, rfl⟩) fun _ =>
      accounted_bind accounted_emitDigest fun _ => accounted_update fun _ => ⟨rfl, rfl, rfl⟩
  exact rest.status s

theorem accounted_hashAll (imm : U32) : Accounted (hashAll Config.G imm) :=
  accounted_bind (accounted_update fun _ => ⟨rfl, rfl, rfl⟩) fun _ =>
    accounted_bind (accounted_update fun _ => ⟨rfl, rfl, rfl⟩) fun _ =>
      accounted_bind accounted_initHash fun _ => accounted_hashRest

/-- A word is computed, or taken from a frame, and a register written. -/
theorem accounted_writeR {m : Micro Word} (hm : Accounted m) (rd : Reg) : Accounted (m >>= writeR rd) :=
  accounted_bind hm fun _ => accounted_update fun _ => ⟨rfl, rfl, rfl⟩

/-- A command in one, two or three source registers is accounted for as its word function is. -/
theorem accounted_one {f : Word → Micro Word} (hf : ∀ x, Accounted (f x)) (rd rs : Reg) :
    Accounted (do let x ← readR rs; let w ← f x; writeR rd w) :=
  accounted_bind (accounted_read _) fun x => accounted_writeR (hf x) rd

theorem accounted_two {f : Word → Word → Micro Word} (hf : ∀ x y, Accounted (f x y)) (rd rs1 rs2 : Reg) :
    Accounted (do let x ← readR rs1; let y ← readR rs2; let w ← f x y; writeR rd w) :=
  accounted_bind (accounted_read _) fun x => accounted_one (hf x) rd rs2

theorem accounted_three {f : Word → Word → Word → Micro Word} (hf : ∀ x y z, Accounted (f x y z)) (rd rs1 rs2 rs3 : Reg) :
    Accounted (do let x ← readR rs1; let y ← readR rs2; let z ← readR rs3; let w ← f x y z; writeR rd w) :=
  accounted_bind (accounted_read _) fun x => accounted_two (hf x) rd rs2 rs3

/-- Every command's work is accounted for. -/
theorem exec_accounted (i : Instr) (s : State) : ∃ m : Micro Unit, Accounted m ∧ exec i s = runCommand m s := by
  cases i with
  | xorw rd rs1 rs2 => exact ⟨_, accounted_two (fun a b => accounted_batch (.xor a b)) rd rs1 rs2, rfl⟩
  | andw rd rs1 rs2 => exact ⟨_, accounted_two (fun a b => accounted_batch (.and a b)) rd rs1 rs2, rfl⟩
  | notw rd rs1 => exact ⟨_, accounted_one (fun a => accounted_batch (.not a)) rd rs1, rfl⟩
  | trivw rd imm => exact ⟨_, accounted_writeR (accounted_trivW imm) rd, rfl⟩
  | rotr rd rs1 n =>
    exact ⟨_, accounted_bind (accounted_read fun s => s.r[rs1]) fun x =>
      accounted_update (f := fun s => s.setR rd (rotR x n.toNat)) fun _ => ⟨rfl, rfl, rfl⟩, rfl⟩
  | shr rd rs1 n =>
    exact ⟨_, accounted_one (fun x => (keeps_shR (A := AnyFault) trivial x n.toNat).inside.accounted (uses_shR x _)) rd rs1, rfl⟩
  | ssig0 rd rs1 =>
    exact ⟨_, accounted_one (fun x => (keeps_ssig0 (A := AnyFault) trivial trivial x).inside.accounted (uses_ssig0 x)) rd rs1, rfl⟩
  | ssig1 rd rs1 =>
    exact ⟨_, accounted_one (fun x => (keeps_ssig1 (A := AnyFault) trivial trivial x).inside.accounted (uses_ssig1 x)) rd rs1, rfl⟩
  | bsig0 rd rs1 =>
    exact ⟨_, accounted_one (fun x => (keeps_bsig0 (A := AnyFault) trivial trivial x).inside.accounted (uses_bsig0 x)) rd rs1, rfl⟩
  | bsig1 rd rs1 =>
    exact ⟨_, accounted_one (fun x => (keeps_bsig1 (A := AnyFault) trivial trivial x).inside.accounted (uses_bsig1 x)) rd rs1, rfl⟩
  | ch rd rs1 rs2 rs3 =>
    exact ⟨_, accounted_three (fun x y z => (keeps_ch (A := AnyFault) trivial trivial x y z).inside.accounted (uses_ch x y z))
      rd rs1 rs2 rs3, rfl⟩
  | maj rd rs1 rs2 rs3 =>
    exact ⟨_, accounted_three (fun x y z => (keeps_maj (A := AnyFault) trivial trivial x y z).inside.accounted (uses_maj x y z))
      rd rs1 rs2 rs3, rfl⟩
  | add rd rs1 rs2 =>
    exact ⟨_, accounted_two (fun a b => (keeps_add (A := AnyFault) trivial trivial a b).accounted (uses_add a b)) rd rs1 rs2, rfl⟩
  | compress => exact ⟨_, accounted_compress, rfl⟩
  | hinit => exact ⟨_, accounted_initHash, rfl⟩
  | hash imm =>
    by_cases hp : s.seq.phase = .load
    · exact ⟨_, accounted_hashRest, if_pos hp⟩
    · exact ⟨_, accounted_hashAll imm, if_neg hp⟩
  | ldw rd => exact ⟨_, accounted_writeR (accounted_frame Frame.asWord) rd, rfl⟩
  | stw rs1 =>
    exact ⟨_, accounted_bind (accounted_read fun s => s.r[rs1]) fun w =>
      accounted_update (f := fun s => s.emit w) fun _ => ⟨rfl, rfl, rfl⟩, rfl⟩
  | ldblk =>
    exact ⟨_, accounted_bind (accounted_frame Frame.asBlock) fun b =>
      accounted_update (f := fun s => s.setBLK b) fun _ => ⟨rfl, rfl, rfl⟩, rfl⟩
  | rdh => exact ⟨_, accounted_emitDigest, rfl⟩

/-- A command that starts in BUSY and ends in FATAL was stopped by a fault, whose cause lies among the draws used. -/
theorem Accounted.cause {m : Micro Unit} (h : Accounted m) {s t : State} (hs : s.status.state = .busy)
    (hrun : runCommand m s = .next t) (ht : t.status.state = .fatal) :
    (t.status.fault = some .fCtx → true ∈ s.ctxUsed t) ∧ (t.status.fault = some .fWorker → true ∈ s.workersUsed t) := by
  cases hm : m s with
  | ok a u =>
    obtain rfl := next_inj hrun (runCommand_ok hm)
    cases ht
  | error e u =>
    obtain rfl := next_inj hrun (runCommand_error hm)
    cases e with
    | held =>
      obtain ⟨-, hsame⟩ : True ∧ SameStatus s t := (h.status s).of_error hm
      rw [hsame, hs] at ht
      cases ht
    | faulted =>
      obtain ⟨c, w, hctx, hworkers, hcause⟩ := (h.uses s).of_error hm
      rw [ctxUsed_of_drop hctx, workersUsed_of_drop hworkers]
      exact hcause rfl

/-- Settles O18: every command's work is accounted for, so a fault it ends in has its cause among the draws used. -/
theorem faultsHaveCauses : Obligations.FaultsHaveCauses := by
  intro i s t hs h
  obtain ⟨m, hm, hexec⟩ := exec_accounted i s
  have hcause := hm.cause hs (hexec ▸ h)
  exact ⟨fun ht => (hcause (by rw [ht])).1 (by rw [ht]), fun ht => (hcause (by rw [ht])).2 (by rw [ht])⟩

end Sys2Proof.Machine
end

section
/-!
PROOF. The reset event, between pieces of the sequencer's work and in the middle of one (R300 to R302, R64): both lead to the
reset state, and differ only in what stays with the host and the environment.
-/

namespace Sys2Proof.Machine

/-! Draws that a piece of work has used. -/

/-- However a command ends, the draws to come are the last of those there were (R302). -/
theorem exec_draws_suffix {i : Instr} {s t : State} (h : exec i s = .next t) :
    t.env.ctxDraws <:+ s.env.ctxDraws ∧ t.env.workerDraws <:+ s.env.workerDraws := by
  obtain ⟨m, hm, hexec⟩ := exec_uses i s
  have used : ∃ c w, t.env.ctxDraws = s.env.ctxDraws.drop c ∧ t.env.workerDraws = s.env.workerDraws.drop w := by
    cases hms : m s with
    | ok a u =>
      obtain rfl := next_inj (hexec ▸ h) (runCommand_ok hms)
      obtain ⟨c, w, hc, hw⟩ := (hm s).of_ok hms
      exact ⟨c, w, hc, hw⟩
    | error e u =>
      obtain rfl := next_inj (hexec ▸ h) (runCommand_error hms)
      obtain ⟨c, w, hc, hw, -⟩ := (hm s).of_error hms
      exact ⟨c, w, hc, hw⟩
  obtain ⟨c, w, hc, hw⟩ := used
  rw [hc, hw]
  exact ⟨List.drop_suffix c _, List.drop_suffix w _⟩

theorem runWord_draws_suffix {cw : CmdWord} {s t : State} (h : runWord cw s = .next t) :
    t.env.ctxDraws <:+ s.env.ctxDraws ∧ t.env.workerDraws <:+ s.env.workerDraws := by
  cases hd : decode cw with
  | some i => exact exec_draws_suffix (runWord_of_decode hd s ▸ h)
  | none =>
    rw [runWord, hd] at h
    cases h
    exact ⟨List.suffix_refl _, List.suffix_refl _⟩

theorem drawsLeft_nil (n : Nat) (before after : List Bool) :
    drawsLeft [] n before after = before.drop (min n (before.length - after.length)) := rfl

theorem drawsLeft_of_ne_nil {frames : List Word} (h : frames ≠ []) (n : Nat) (before after : List Bool) :
    drawsLeft frames n before after = after := by
  rw [drawsLeft, List.isEmpty_eq_false_iff.2 h]
  rfl

/-- A reset gives no draw back (R302). -/
theorem drawsLeft_suffix {before after : List Bool} (h : after <:+ before) (frames : List Word) (n : Nat) :
    drawsLeft frames n before after <:+ before := by
  by_cases hframes : frames = []
  · rw [hframes, drawsLeft_nil]
    exact List.drop_suffix _ before
  · rwa [drawsLeft_of_ne_nil hframes]

theorem length_ctxUsed (s t : State) : (s.ctxUsed t).length = s.env.ctxDraws.length - t.env.ctxDraws.length := by
  rw [State.ctxUsed, List.length_take, Nat.min_eq_left (Nat.sub_le _ _)]

theorem length_workersUsed (s t : State) : (s.workersUsed t).length = s.env.workerDraws.length - t.env.workerDraws.length := by
  rw [State.workersUsed, List.length_take, Nat.min_eq_left (Nat.sub_le _ _)]

/-! The steps with a reset. -/

/-- A reset event, however the host names it, that meets no work of the sequencer (R300). -/
theorem step_reset_between {s : State} {e : HostEvent} {es : List HostEvent} (hhost : s.env.host = e :: es) (he : e.IsReset)
    (hbusy : s.status.state = .busy → s.dinq = []) : step s = .next (s.setHost es).resetEvent := by
  have hidle : s.status.state = .idle → ∀ cw es', s.env.host ≠ .command cw :: es' := by
    obtain rfl | ⟨m, rfl⟩ := he <;> simp [hhost]
  rw [step_eq_hostNext hidle hbusy, hostNext_cons hhost]
  obtain rfl | ⟨m, rfl⟩ := he <;> rfl

/-- A reset that strikes the work on a command word, which would have ended in t (R301). -/
theorem State.Begins.step_struck {s u t : State} {cw : CmdWord} {m : Moment} {es : List HostEvent} (h : s.Begins cw u)
    (hhost : u.env.host = .resetDuring m :: es) (hrun : runWord cw u = .next t) : step s = .next (abandon u t m es) := by
  rw [h.step_eq_work, work]
  simp only [hhost, hrun]

/-- Where the work that a reset strikes begins: by a command word accepted or a held one gone on with, which has used no
draw and emitted no frame. -/
theorem begins_of_struck {s s' : State} {cw : CmdWord} {m : Moment} {es : List HostEvent}
    (h : s.status.state = .idle ∧ s.env.host = .command cw :: .resetDuring m :: es ∧
        s' = (s.setHost (.resetDuring m :: es)).accept cw ∨
      s.status.state = .busy ∧ s.seq.cmd = cw ∧ s.dinq ≠ [] ∧ s.env.host = .resetDuring m :: es ∧ s' = s) :
    s.Begins cw s' ∧ s'.env = { s.env with host := .resetDuring m :: es } := by
  obtain ⟨hidle, hhost, rfl⟩ | ⟨hbusy, hcmd, hframe, hhost, rfl⟩ := h
  · exact ⟨.accepted _ hidle hhost, rfl⟩
  · exact ⟨.resumed hbusy hcmd hframe, by rw [← hhost]⟩

/-- The reset state, whatever was before: what stays is in the environment alone. -/
theorem step_resetEvent {s : State} {es : List HostEvent}
    (h : s.env.host = .reset :: es ∧ (s.status.state = .busy → s.dinq = []) ∨ ∃ m, s.env.host = .resetDuring m :: es) :
    ∃ v : State, step s = .next v.resetEvent ∧ v.env.host = es ∧ s.env.dout <+: v.env.dout ∧
      v.env.ctxDraws <:+ s.env.ctxDraws ∧ v.env.workerDraws <:+ s.env.workerDraws ∧
      (s.env.host = .reset :: es → v.env = { s.env with host := es }) := by
  by_cases hfree : s.status.state = .busy → s.dinq = []
  · obtain ⟨e, he, hhost⟩ : ∃ e : HostEvent, e.IsReset ∧ s.env.host = e :: es :=
      h.elim (fun h => ⟨_, .inl rfl, h.1⟩) fun ⟨m, hm⟩ => ⟨_, .inr ⟨m, rfl⟩, hm⟩
    exact ⟨_, step_reset_between hhost he hfree, rfl, ⟨[], List.append_nil _⟩, List.suffix_refl _, List.suffix_refl _, fun _ => rfl⟩
  · obtain ⟨m, hhost⟩ := h.resolve_left fun h => hfree h.2
    obtain ⟨hbusy, hframe⟩ := Classical.not_imp.1 hfree
    obtain ⟨t, hrun⟩ := runWord_next s.seq.cmd s
    obtain ⟨hctx, hworkers⟩ := runWord_draws_suffix hrun
    exact ⟨_, (State.Begins.resumed hbusy rfl hframe).step_struck hhost hrun, rfl, ⟨_, rfl⟩,
      drawsLeft_suffix hctx _ _, drawsLeft_suffix hworkers _ _, fun h => by rw [hhost] at h; cases h⟩

/-! The statements. -/

/-- Settles O3: a step with a reset ends in the reset state of `step_resetEvent`, seen element by element. -/
theorem resetEventEffect : Obligations.ResetEventEffect := by
  intro s es h
  obtain ⟨v, hstep, hhost, hdout, hctx, hworkers, hplain⟩ := step_resetEvent h
  refine ⟨_, hstep, ?_, ?_, ?_, ?_, ?_, rfl, rfl, rfl, rfl, rfl, rfl, rfl, rfl, rfl, rfl, rfl, rfl, rfl, rfl,
    hhost, hdout, hctx, hworkers, hplain, rfl⟩
  all_goals exact fun k => by simp [Scratch.empty]

/-- Settles O4: the struck work is abandoned from where it began, and `drawsLeft` says which draws are gone; an undecodable
word has emitted nothing and used none. -/
theorem resetAbandonsCommand : Obligations.ResetAbandonsCommand := by
  refine ⟨fun s s' u cw es m i hi hstart hexec => ?_, fun s cw es m hnone hstart => ?_⟩
  · obtain ⟨hbegins, henv⟩ := begins_of_struck hstart
    have hstep := hbegins.step_struck (by rw [henv]) ((runWord_of_decode hi s').trans hexec)
    rw [abandon, henv] at hstep
    refine ⟨_, _, _, rfl, fun hframes => ?_, fun hframes => ?_, hstep⟩
    · rw [hframes, drawsLeft_nil, drawsLeft_nil, length_ctxUsed, length_workersUsed]
      exact ⟨rfl, rfl⟩
    · exact ⟨drawsLeft_of_ne_nil hframes _ _ _, drawsLeft_of_ne_nil hframes _ _ _⟩
  · have hstruck : ∃ s', s.Begins cw s' ∧ s'.env = { s.env with host := .resetDuring m :: es } := by
      obtain ⟨hidle, hhost⟩ | ⟨hbusy, hcmd, hframe, hhost⟩ := hstart
      · exact ⟨_, begins_of_struck (.inl ⟨hidle, hhost, rfl⟩)⟩
      · exact ⟨s, begins_of_struck (.inr ⟨hbusy, hcmd, hframe, hhost, rfl⟩)⟩
    obtain ⟨s', hbegins, henv⟩ := hstruck
    have hrun : runWord cw s' = .next (s'.takeFault .fIllegal) := by rw [runWord, hnone]
    rw [hbegins.step_struck (by rw [henv]) hrun, abandon, State.takeFault_env, henv]
    simp [State.resetEvent, drawsLeft_nil]

end Sys2Proof.Machine
end

section
/-!
PROOF. What a completed command has cost (R15, R198, R331): the draws of its calls and batches, none of them a failure.
-/

namespace Sys2Proof.Machine

/-- Work that, if it ends, has used exactly the draws of c calls and b batches, all successes, and that leaves STATUS alone
until it stops: so a command in IDLE is one whose work has ended. -/
structure Costs (c b : Nat) {α : Type} (m : Micro α) : Prop where
  counts : Counts c b m
  steady : Steady m

/-- Work that begins in BUSY and stops before its end does not stop in IDLE. -/
theorem Keeps.not_idle_of_error {α : Type} {m : Micro α} (hm : Steady m) {s t : State} {e : Stop}
    (hs : s.status.state = .busy) (h : m s = .error e t) : t.status.state ≠ .idle := by
  have hstop := (hm s).of_error h
  cases e with
  | held =>
    obtain ⟨-, hsame⟩ := hstop
    simp [hsame, hs]
  | faulted =>
    obtain ⟨u, c, -, -, rfl⟩ := hstop
    simp

/-- A command whose work has these costs has paid them where it completes. -/
theorem Costs.completed {c b : Nat} {m : Micro Unit} (hm : Costs c b m) {s t : State} (hs : s.status.state = .busy)
    (hrun : runCommand m s = .next t) (ht : t.status.state = .idle) :
    s.NoFailure c b ∧ t.env.ctxDraws = s.env.ctxDraws.drop c ∧ t.env.workerDraws = s.env.workerDraws.drop (8 * b) := by
  cases h : m s with
  | ok a u =>
    obtain rfl := next_inj hrun (runCommand_ok h)
    obtain ⟨hok, hctx, hworkers⟩ := (hm.counts s).of_ok h
    exact ⟨hok, hctx, hworkers⟩
  | error e u =>
    obtain rfl := next_inj hrun (runCommand_error h)
    exact absurd ht (hm.steady.not_idle_of_error hs h)

/-! The costs of what commands are made of. -/

theorem costs_bind {α β : Type} {m : Micro α} {f : α → Micro β} {c b c' b' : Nat} (hm : Costs c b m) (hf : ∀ a, Costs c' b' (f a)) :
    Costs (c + c') (b + b') (m >>= f) :=
  ⟨counts_bind hm.counts fun a => (hf a).counts, steady_bind hm.steady fun a => (hf a).steady⟩

/-- What comes before work and costs nothing. -/
theorem costs_free_bind {α β : Type} {m : Micro α} {f : α → Micro β} {c b : Nat} (hm : Costs 0 0 m) (hf : ∀ a, Costs c b (f a)) :
    Costs c b (m >>= f) := by
  simpa using costs_bind hm hf

theorem costs_update {f : State → State} (hf : ∀ s, (f s).env.ctxDraws = s.env.ctxDraws ∧
    (f s).env.workerDraws = s.env.workerDraws ∧ (f s).status = s.status) : Costs 0 0 (update f) :=
  ⟨counts_update fun s => ⟨(hf s).1, (hf s).2.1⟩, (accounted_update hf).status⟩

theorem costs_read (x : State → Option Word) : Costs 0 0 (readElement x) := ⟨counts_read x, (accounted_read x).status⟩

theorem costs_frame {α : Type} (shape : Frame → Option α) : Costs 0 0 (takeFrame shape) :=
  ⟨fun _ => post_frame (fun _ => trivial) (fun _ _ _ _ _ => ⟨⟨rfl, rfl⟩, rfl, rfl⟩) fun _ _ _ _ => trivial,
    (accounted_frame shape).status⟩

theorem costs_writeR {c b : Nat} {m : Micro Word} (hm : Costs c b m) (rd : Reg) : Costs c b (m >>= writeR rd) :=
  costs_bind hm fun w => costs_update (f := fun s => s.setR rd w) fun _ => ⟨rfl, rfl, rfl⟩

/-- A command in one, two or three source registers costs what its word function does. -/
theorem costs_one {c b : Nat} {f : Word → Micro Word} (hf : ∀ x, Costs c b (f x)) (rd rs : Reg) :
    Costs c b (do let x ← readR rs; let w ← f x; writeR rd w) :=
  costs_free_bind (costs_read _) fun x => costs_writeR (hf x) rd

theorem costs_two {c b : Nat} {f : Word → Word → Micro Word} (hf : ∀ x y, Costs c b (f x y)) (rd rs1 rs2 : Reg) :
    Costs c b (do let x ← readR rs1; let y ← readR rs2; let w ← f x y; writeR rd w) :=
  costs_free_bind (costs_read _) fun x => costs_one (hf x) rd rs2

theorem costs_three {c b : Nat} {f : Word → Word → Word → Micro Word} (hf : ∀ x y z, Costs c b (f x y z)) (rd rs1 rs2 rs3 : Reg) :
    Costs c b (do let x ← readR rs1; let y ← readR rs2; let z ← readR rs3; let w ← f x y z; writeR rd w) :=
  costs_free_bind (costs_read _) fun x => costs_two (hf x) rd rs2 rs3

theorem costs_batch (q : BatchOp) : Costs 32 1 (batch Config.G q) := ⟨counts_batch q, steady_batch q⟩

/-- Emitting the digest calls nothing (R243). -/
theorem counts_emitDigest : Counts 0 0 emitDigest := by
  have reads : Counts (0 * 8) (0 * 8) (collect 8 readHS) := counts_collect fun _ => counts_read _
  have frame : ∀ w, Counts 0 0 (doutWordFrame w) := fun w => counts_update (f := fun s => s.emit w) fun _ => ⟨rfl, rfl⟩
  exact counts_bind reads fun _ => counts_quiet_forRange fun _ => frame _

/-! HASH. -/

/-- HASH from its loop on, with n blocks left (R223). -/
def hashTail (G : Capability) (n : Nat) : Micro Unit := do
  hashBlocks G n
  update fun s => s.setPhase .out
  emitDigest
  update fun s => s.setPhase .none

theorem hashRest_eq_hashTail (G : Capability) (s : State) : hashRest G s = hashTail G s.seq.blkLeft.toNat s := rfl

theorem counts_hashTail {G : Capability} (n : Nat) : Counts ((127568 + 3272) * n) (2824 * n) (hashTail G n) := by
  have phase : ∀ p, Counts 0 0 (update fun s => s.setPhase p) := fun p => counts_update fun _ => ⟨rfl, rfl⟩
  exact counts_bind (counts_hashBlocks n) fun _ => counts_bind (phase .out) fun _ =>
    counts_bind counts_emitDigest fun _ => phase .none

/-- HINIT leaves the number of blocks left. -/
theorem initHash_blkLeft {G : Capability} {s t : State} {u : Unit} (h : initHash G s = .ok u t) : t.seq.blkLeft = s.seq.blkLeft := by
  have words : Keeps False Quiet (Caused AnyFault) (collect 8 fun k => trivW G (IV k)) :=
    keeps_collect (quiet_chains _) fun k => keeps_trivW trivial (IV k)
  have hpost : Post (initHash G) s (fun _ v => v.seq.blkLeft = s.seq.blkLeft) fun _ _ => True :=
    Post.bind ((words s).mono (fun _ _ hv => congrArg Seq.blkLeft hv.seq) fun _ _ _ => trivial)
  exact hpost.of_ok h

/-- HASH is HINIT and then the loop over as many blocks as its word says (R223). -/
theorem hashAll_run (G : Capability) (imm : U32) (s : State) :
    hashAll G imm s = (initHash G >>= fun _ => hashTail G imm.toNat) ((s.setBlkLeft imm).setPhase .hinit) := by
  rw [hashAll, bind_update, bind_update]
  cases h : initHash G ((s.setBlkLeft imm).setPhase .hinit) with
  | error e t => rw [bind_error h, bind_error h]
  | ok a t => rw [bind_ok h, bind_ok h, hashRest_eq_hashTail, initHash_blkLeft h]; rfl

theorem counts_hashAll {G : Capability} (imm : U32) :
    Counts (256 + (127568 + 3272) * imm.toNat) (2824 * imm.toNat) (hashAll G imm) := by
  have hrun : Counts (256 + (127568 + 3272) * imm.toNat) (0 + 2824 * imm.toNat) (initHash G >>= fun _ => hashTail G imm.toNat) :=
    counts_bind counts_initHash fun _ => counts_hashTail _
  intro s
  rw [Post, hashAll_run, ← Nat.zero_add (2824 * imm.toNat)]
  exact hrun ((s.setBlkLeft imm).setPhase .hinit)

/-! The commands. -/

/-- From its start, every command's work has the costs of the table (R331). -/
theorem exec_costs (i : Instr) {s : State} (hp : s.seq.phase = .none) :
    ∃ m : Micro Unit, Costs i.calls i.batches m ∧ exec i s = runCommand m s := by
  cases i with
  | xorw rd rs1 rs2 => exact ⟨_, costs_two (fun a b => costs_batch (.xor a b)) rd rs1 rs2, rfl⟩
  | andw rd rs1 rs2 => exact ⟨_, costs_two (fun a b => costs_batch (.and a b)) rd rs1 rs2, rfl⟩
  | notw rd rs1 => exact ⟨_, costs_one (fun a => costs_batch (.not a)) rd rs1, rfl⟩
  | trivw rd imm => exact ⟨_, costs_writeR ⟨counts_trivW imm, (accounted_trivW imm).status⟩ rd, rfl⟩
  | rotr rd rs1 n =>
    exact ⟨_, costs_free_bind (costs_read fun s => s.r[rs1]) fun x =>
      costs_update (f := fun s => s.setR rd (rotR x n.toNat)) fun _ => ⟨rfl, rfl, rfl⟩, rfl⟩
  | shr rd rs1 n =>
    exact ⟨_, costs_one (fun x => ⟨counts_shR x n.toNat, steady_of_quiet (keeps_shR trivial x _)⟩) rd rs1, rfl⟩
  | ssig0 rd rs1 =>
    exact ⟨_, costs_one (fun x => ⟨counts_ssig0 x, steady_of_quiet (keeps_ssig0 trivial trivial x)⟩) rd rs1, rfl⟩
  | ssig1 rd rs1 =>
    exact ⟨_, costs_one (fun x => ⟨counts_ssig1 x, steady_of_quiet (keeps_ssig1 trivial trivial x)⟩) rd rs1, rfl⟩
  | bsig0 rd rs1 =>
    exact ⟨_, costs_one (fun x => ⟨counts_bsig0 x, steady_of_quiet (keeps_bsig0 trivial trivial x)⟩) rd rs1, rfl⟩
  | bsig1 rd rs1 =>
    exact ⟨_, costs_one (fun x => ⟨counts_bsig1 x, steady_of_quiet (keeps_bsig1 trivial trivial x)⟩) rd rs1, rfl⟩
  | ch rd rs1 rs2 rs3 =>
    exact ⟨_, costs_three (fun x y z => ⟨counts_ch x y z, steady_of_quiet (keeps_ch trivial trivial x y z)⟩) rd rs1 rs2 rs3, rfl⟩
  | maj rd rs1 rs2 rs3 =>
    exact ⟨_, costs_three (fun x y z => ⟨counts_maj x y z, steady_of_quiet (keeps_maj trivial trivial x y z)⟩) rd rs1 rs2 rs3, rfl⟩
  | add rd rs1 rs2 =>
    exact ⟨_, costs_two (fun x y => ⟨counts_add x y, steady_of_inside (keeps_add trivial trivial x y)⟩) rd rs1 rs2, rfl⟩
  | compress => exact ⟨_, ⟨counts_compress, accounted_compress.status⟩, rfl⟩
  | hinit => exact ⟨_, ⟨counts_initHash, accounted_initHash.status⟩, rfl⟩
  | hash imm => exact ⟨_, ⟨counts_hashAll imm, (accounted_hashAll imm).status⟩, exec_hash_none imm hp⟩
  | ldw rd => exact ⟨_, costs_writeR (costs_frame Frame.asWord) rd, rfl⟩
  | stw rs1 =>
    exact ⟨_, costs_free_bind (costs_read fun s => s.r[rs1]) fun w =>
      costs_update (f := fun s => s.emit w) fun _ => ⟨rfl, rfl, rfl⟩, rfl⟩
  | ldblk =>
    exact ⟨_, costs_free_bind (costs_frame Frame.asBlock) fun b =>
      costs_update (f := fun s => s.setBLK b) fun _ => ⟨rfl, rfl, rfl⟩, rfl⟩
  | rdh => exact ⟨_, ⟨counts_emitDigest, accounted_emitDigest.status⟩, rfl⟩

/-- Settles O59: every command's work has the costs of the table, which it has paid where it ends in IDLE. -/
theorem completionHadNoFailure : Obligations.CompletionHadNoFailure := by
  intro i s t hs hp h ht
  obtain ⟨m, hm, hexec⟩ := exec_costs i hp
  exact hm.completed hs (hexec ▸ h) ht

end Sys2Proof.Machine
end
